-- ==== Sys2Proof/Machine/Modular.lean ====
section
/-! DEFINITION. Powers and inverses modulo a number (41_fp_units.md R147), and the test of primality by a primitive root
that shows the default moduli prime. -/

namespace Sys2Proof.Machine

/-- `b^e mod m` by squaring, `e` below `2^fuel`. -/
def powMod (m : Nat) : Nat → Nat → Nat → Nat
  | 0, _, _ => 1 % m
  | fuel + 1, b, e =>
    let half := powMod m fuel (b * b % m) (e / 2)
    if e % 2 = 1 then b * half % m else half

/-- `inv(den)`, computed as `den^(p-2) mod p` (41_fp_units.md R147). `none` when the candidate is no inverse: with `p`
prime that is exactly `den = 0`; with `p` composite, which no configuration has, it errs toward the defect (log 13). -/
def inverse (p den : Nat) : Option Nat :=
  let z := powMod p (Nat.log2 p + 1) den (p - 2)
  if den * z % p = 1 then some z else none

/-! ### Primality -/

theorem powMod_eq (m fuel b e : Nat) (h : e < 2 ^ fuel) : powMod m fuel b e = b ^ e % m := by
  induction fuel generalizing b e with
  | zero => simp only [pow_zero] at h; obtain rfl : e = 0 := by omega
            simp [powMod]
  | succ n ih =>
    have he : e / 2 < 2 ^ n := by rw [pow_succ] at h; omega
    have hpow : (b * b) ^ (e / 2) = b ^ (2 * (e / 2)) := by rw [pow_mul, pow_two]
    simp only [powMod, ih _ _ he]
    rw [← Nat.pow_mod, hpow]
    split
    · rename_i hodd
      conv_rhs => rw [show e = 2 * (e / 2) + 1 by omega, pow_succ]
      rw [Nat.mul_mod, Nat.mod_mod, ← Nat.mul_mod, Nat.mul_comm]
    · conv_rhs => rw [show e = 2 * (e / 2) by omega]

/-- Lucas' test: `p` is prime when `a` has order `p - 1`, seen on the prime factors `fs` of `p - 1`. -/
theorem prime_of_powMod (p a fuel : Nat) (fs : List Nat) (hfs : ∀ f ∈ fs, f.Prime)
    (hlt : Nat.blt (p - 1) (2 ^ fuel) = true) (hprod : Nat.beq fs.prod (p - 1) = true) (hp : Nat.blt 1 p = true)
    (h1 : Nat.beq (powMod p fuel a (p - 1)) 1 = true)
    (h2 : fs.all (fun f => !Nat.beq (powMod p fuel a ((p - 1) / f)) 1) = true) : p.Prime := by
  rw [Nat.blt_eq] at hlt hp
  rw [Nat.beq_eq] at hprod h1
  simp only [List.all_eq_true, Bool.not_eq_true'] at h2
  have order (n : Nat) (hn : n ≤ p - 1) : (a : ZMod p) ^ n = 1 ↔ powMod p fuel a n = 1 := by
    have := ZMod.natCast_eq_natCast_iff' (a ^ n) 1 p
    rw [Nat.mod_eq_of_lt hp, ← powMod_eq p fuel a n (by omega)] at this
    simpa using this
  refine lucas_primality p (a : ZMod p) ((order _ le_rfl).mpr h1) fun q hq hd hone => ?_
  rw [← hprod] at hd
  obtain ⟨f, hf, hqf⟩ := (Nat.Prime.prime hq).dvd_prod_iff.mp hd
  rw [(Nat.prime_dvd_prime_iff_eq hq (hfs f hf)).mp hqf] at hone
  exact Nat.ne_of_beq_eq_false (h2 f hf) ((order _ (Nat.div_le_self _ _)).mp hone)

end Sys2Proof.Machine
end

