-- ==== Sys2Proof/Word.lean ====
section
/-! DEFINITION. The machine word of the engine (00_scope.md R8: WORD_BITS = 32) and its byte. -/

namespace Sys2Proof

/-- A machine word: a `WORD_BITS = 32` bit unsigned integer (00_scope.md R8, R11). -/
abbrev Word := BitVec 32

/-- One byte of the byte-addressed memory (20_memory.md R50). -/
abbrev Byte := BitVec 8

end Sys2Proof
end

