-- ==== Sys2Proof/Config.lean ====
section
/-! DEFINITION. The parameters of an engine (00_scope.md R8, R9), fixed before reset, which every rule takes as
arguments. One uninterpreted constant stands for round functions that no plain data describes. -/

namespace Sys2Proof

/-- The field-parameter descriptor of 41_fp_units.md: "modulus `p`, limb count, limb bit-width". -/
structure FieldDesc where
  /-- `P_MOD`, the prime modulus. -/
  p : Nat
  /-- `NUM_LIMBS`, called `L`. -/
  numLimbs : Nat
  /-- `LIMB_BITS`, called `w`. -/
  limbBits : Nat
deriving DecidableEq, Repr

/-- The configuration function `PermRound` of 43_perm.md R221, as plain data. -/
inductive RoundFn where
  /-- The default form of R221: `SBOX_DEG`, the rows of `PERM_M`, the rows of `PERM_RC`. -/
  | sboxLinear (deg : Nat) (m : List (List Nat)) (rc : List (List Nat))
  /-- Any other round function, by a label: its values are those of the uninterpreted `Config.externalRound`. -/
  | external (label : Nat)
deriving DecidableEq, Repr

/-- The form a round function has to have for `n` words and `r` rounds: in the default form `PERM_M` is `n x n` and
`PERM_RC` is `r x n` (00_scope.md R8). -/
def RoundFn.shaped (n r : Nat) : RoundFn → Bool
  | .sboxLinear _ m rc =>
    decide (m.length = n ∧ rc.length = r) && (m ++ rc).all (fun row => decide (row.length = n))
  | .external _ => true

/-- The parameters of 00_scope.md R8 that are OPEN, as a deployment writes them down. They make an engine only when they
are well formed (`Params.WellFormed`, `Config`). -/
structure Params where
  /-- `P_MOD`, `NUM_LIMBS`, `LIMB_BITS`. -/
  fd : FieldDesc
  /-- `ED_D`, the curve constant `d`. -/
  edD : Nat
  /-- `Q_NATIVE`, the modulus of a trace cell, called `Q`. -/
  q : Nat
  /-- `PERM_N`, words in the permutation state, called `N`. -/
  permN : Nat
  /-- `PERM_ROUNDS`, called `R`. -/
  permRounds : Nat
  /-- `PermRound`. -/
  roundFn : RoundFn
  /-- `REG_OPCODE`, `REG_A`, `REG_B`: ids of the three designated registers (10_state.md R22). -/
  regOpcode : Nat
  regA : Nat
  regB : Nat
  /-- Which chips the engine has: 00_scope.md R10(g) is asked "for the ED chip only", (h) "for the PERM chip only"
  (DESIGN CHOICE, log 12). -/
  hasEd : Bool
  hasPerm : Bool
deriving DecidableEq, Repr

/-- `IP_MAX`, the largest term count of FPIP (00_scope.md R8, decision D18). -/
def Config.ipMax : Nat := 2

/-- Word `i` of an external round function's output before it is reduced into `Z_Q`: arguments are the label, the
round, the input state and `i`. It has no body, so a claim about it holds of every round function (log 11). -/
opaque Config.externalRound : Nat → Nat → List Nat → Nat → Nat

/-- The default field of 00_scope.md R8 and R9: `p = 2^255 - 19`, 32 limbs of 8 bits. -/
def FieldDesc.ed25519 : FieldDesc := { p := 2 ^ 255 - 19, numLimbs := 32, limbBits := 8 }

end Sys2Proof
end

