-- ==== Sys2Proof/Machine/Params.lean ====
section
/-! DEFINITION. Quantities derived from the parameters (00_scope.md R8; 41_fp_units.md R134; 42_edadd.md R190;
43_perm.md R228). -/

namespace Sys2Proof

/-- The limb base `B = 2^LIMB_BITS` (00_scope.md R8). -/
def FieldDesc.base (fd : FieldDesc) : Nat := 2 ^ fd.limbBits

/-- `S(n) = n·L·(B-1)^2 + (B-1)` (41_fp_units.md R134). -/
def FieldDesc.sBound (fd : FieldDesc) (n : Nat) : Nat := n * fd.numLimbs * (fd.base - 1) ^ 2 + (fd.base - 1)

/-- `T_OFF(n) = n·L·B` (41_fp_units.md R134). -/
def FieldDesc.tOff (fd : FieldDesc) (n : Nat) : Nat := n * fd.numLimbs * fd.base

/-- Cells of one unit group, `G = 4L - 2` (41_fp_units.md R141). -/
def FieldDesc.groupWidth (fd : FieldDesc) : Nat := 4 * fd.numLimbs - 2

/-- What the six units need of a field descriptor: the odd modulus and the bound of 00_scope.md R10(c), read with `B^L`
for `2^256`, and at least one limb of at least one bit. `FP_MINI` meets it (41_fp_units.md, introduction), and so does the
descriptor of every configuration. -/
def FieldDesc.unitOk (fd : FieldDesc) : Bool :=
  decide (1 ≤ fd.numLimbs ∧ 1 ≤ fd.limbBits ∧ fd.p % 2 = 1 ∧ 3 ≤ fd.p ∧
    Config.ipMax * fd.p ≤ fd.base ^ fd.numLimbs)

namespace Params

/-- `WL = WORD_BITS / LIMB_BITS`, limbs per word (00_scope.md R8). -/
def limbsPerWord (c : Params) : Nat := 32 / c.fd.limbBits

/-- `W_ED = 3 + 48·WL + 8·G` (42_edadd.md R190, 44_trace.md R260). -/
def edWidth (c : Params) : Nat := 3 + 48 * c.limbsPerWord + 8 * c.fd.groupWidth

/-- `W_PERM = 4 + R + 3·N` (43_perm.md R228, 44_trace.md R260). -/
def permWidth (c : Params) : Nat := 4 + c.permRounds + 3 * c.permN

end Params

end Sys2Proof
end

