-- ==== Sys2Proof/Syntax.lean ====
section
/-! DEFINITION. The thirteen commands of the opcode map (30_encoding.md R84), the ports and the chips. -/

namespace Sys2Proof

/-- The three ports a command word arrives on (30_encoding.md R82, 60_exceptions.md R303). -/
inductive Port where
  | guest
  | unit
  | host
deriving DecidableEq, Repr

/-- The two chips `fn` selects for WIDTH, GENTRACE and EVAL (30_encoding.md R81). -/
inductive Chip where
  | ed
  | perm
deriving DecidableEq, Repr

/-- One constructor per row of the opcode map (30_encoding.md R84). An operand that is no field of the command word
comes from a register or the operand port (R82, R83), so it is no argument here. -/
inductive Instr where
  | edadd
  | perm
  | fpadd
  | fpsub
  | fpmul
  /-- `n` is the term count of the word's field `n`. -/
  | fpip (n : Nat)
  | fpdenP
  | fpdenM
  | mrd
  | mwr
  | width (chip : Chip)
  | gentrace (chip : Chip)
  | eval (chip : Chip)
deriving DecidableEq, Repr

/-- The port a command's format names (30_encoding.md R82: G guest, U unit, H host). -/
def Instr.port : Instr → Port
  | .edadd => .guest
  | .perm => .guest
  | .fpadd => .unit
  | .fpsub => .unit
  | .fpmul => .unit
  | .fpip _ => .unit
  | .fpdenP => .unit
  | .fpdenM => .unit
  | .mrd => .unit
  | .mwr => .unit
  | .width _ => .host
  | .gentrace _ => .host
  | .eval _ => .host

end Sys2Proof
end

