-- ==== Sys2Proof/WellFormed.lean ====
section
/-! DEFINITION. Well-formed commands (30_encoding.md R84's extra condition), well-formed parameters (00_scope.md
R10) and configurations (70_reset_and_hazards.md R331). -/

namespace Sys2Proof

/-- A command is well formed when its fields are values the opcode map admits: FPIP has `1 <= n <= IP_MAX` terms
(30_encoding.md R84, R86); a chip is one of the two by its type. -/
def Instr.wf : Instr → Bool
  | .edadd => true
  | .perm => true
  | .fpadd => true
  | .fpsub => true
  | .fpmul => true
  | .fpip n => decide (1 ≤ n ∧ n ≤ Config.ipMax)
  | .fpdenP => true
  | .fpdenM => true
  | .mrd => true
  | .mwr => true
  | .width _ => true
  | .gentrace _ => true
  | .eval _ => true

/-- Well-formed parameters, clause by clause (00_scope.md R10). The second half of (f), that `PermRound` is total into
`[0, Q)`, holds of every `RoundFn` by its meaning (43_perm.md R221, log 11). -/
structure Params.WellFormed (c : Params) : Prop where
  /-- (a), which is also the limb-length policy of 42_edadd.md R195. -/
  limbLength : c.fd.numLimbs * c.fd.limbBits = 256
  /-- (b) -/
  limbBits : 32 % c.fd.limbBits = 0 ∧ 1 ≤ c.fd.limbBits ∧ c.fd.limbBits ≤ 16
  /-- (c) -/
  primeP : c.fd.p.Prime
  oddP : c.fd.p % 2 = 1
  boundP : Config.ipMax * c.fd.p ≤ 2 ^ 256
  /-- (d) -/
  curveConstant : c.edD < c.fd.p
  /-- (e) -/
  primeQ : c.q.Prime
  /-- (f) -/
  permutation : 1 ≤ c.permN ∧ 1 ≤ c.permRounds
  roundFnShaped : c.roundFn.shaped c.permN c.permRounds = true
  /-- (g), for the ED chip only. -/
  noWrap : c.hasEd = true → c.fd.sBound Config.ipMax + c.fd.tOff Config.ipMax * (c.fd.base + 1) < c.q
  /-- (h), for the PERM chip only. -/
  wordsFit : c.hasPerm = true → c.q ≤ 2 ^ 32

/-- A configuration: well-formed parameters. There is no configuration, and so no state and no machine, of parameters
that are not (70_reset_and_hazards.md R331). -/
structure Config extends Params where
  wellFormed : toParams.WellFormed
deriving DecidableEq, Repr

end Sys2Proof
end

