-- ==== Sys2Proof/Decode.lean ====
section
/-! DEFINITION. The command word (30_encoding.md R80, R81), the decoder, total and rejecting by name (R85, R86), the
encoder, and the opcode map of R84 as rows of match and mask. -/

namespace Sys2Proof

/-- Why a word is illegal on a port (30_encoding.md R86). -/
inductive Illegal where
  /-- `rsv != 0`. -/
  | reservedBits
  /-- `opc` is none of the ten assigned values. -/
  | unknownOpcode
  /-- `fn` is outside the values listed for the `opc`. -/
  | badFunction
  /-- `n != 0` on a command that is not FPIP, or `n` outside `1 .. IP_MAX` on FPIP. -/
  | badTermCount
  /-- A legal word on a port its format does not name. -/
  | wrongPort
deriving DecidableEq, Repr

/-- Field `opc = CW[7:0]` (30_encoding.md R81). -/
def fieldOpc (cw : Word) : Nat := (cw.extractLsb' 0 8).toNat
/-- Field `fn = CW[15:8]`. -/
def fieldFn (cw : Word) : Nat := (cw.extractLsb' 8 8).toNat
/-- Field `n = CW[23:16]`. -/
def fieldN (cw : Word) : Nat := (cw.extractLsb' 16 8).toNat
/-- Field `rsv = CW[31:24]`. -/
def fieldRsv (cw : Word) : Nat := (cw.extractLsb' 24 8).toNat

/-- A command other than FPIP has `n = 0` (30_encoding.md R80). -/
def withoutCount (n : Nat) (i : Instr) : Except Illegal Instr :=
  if n = 0 then .ok i else .error .badTermCount

/-- A command whose `fn` and `n` are both 0. -/
def bare (fn n : Nat) (i : Instr) : Except Illegal Instr :=
  if fn = 0 then withoutCount n i else .error .badFunction

/-- The chip `fn` selects: `0` = ED, `1` = PERM (30_encoding.md R81). -/
def withChip (fn n : Nat) (i : Chip → Instr) : Except Illegal Instr :=
  if fn = 0 then withoutCount n (i .ed)
  else if fn = 1 then withoutCount n (i .perm)
  else .error .badFunction

/-- The row of the opcode map that the four fields select (30_encoding.md R84), port apart. -/
def decodeFields (rsv n fn opc : Nat) : Except Illegal Instr :=
  if rsv ≠ 0 then .error .reservedBits
  else if opc = 0x01 then bare fn n .edadd
  else if opc = 0x02 then bare fn n .perm
  else if opc = 0x10 then
    if fn = 0 then withoutCount n .fpadd
    else if fn = 1 then withoutCount n .fpsub
    else if fn = 2 then withoutCount n .fpmul
    else .error .badFunction
  else if opc = 0x11 then
    if fn ≠ 0 then .error .badFunction
    else if 1 ≤ n ∧ n ≤ Config.ipMax then .ok (.fpip n)
    else .error .badTermCount
  else if opc = 0x12 then
    if fn = 0 then withoutCount n .fpdenP
    else if fn = 1 then withoutCount n .fpdenM
    else .error .badFunction
  else if opc = 0x20 then bare fn n .mrd
  else if opc = 0x21 then bare fn n .mwr
  else if opc = 0x30 then withChip fn n .width
  else if opc = 0x31 then withChip fn n .gentrace
  else if opc = 0x32 then withChip fn n .eval
  else .error .unknownOpcode

/-- The decoder: a word and the port it arrived on give one command or an illegal encoding (30_encoding.md R85). -/
def decode (port : Port) (cw : Word) : Except Illegal Instr :=
  match decodeFields (fieldRsv cw) (fieldN cw) (fieldFn cw) (fieldOpc cw) with
  | .error e => .error e
  | .ok i => if i.port = port then .ok i else .error .wrongPort

/-- The port on which a word's `opc` belongs, for presenting a bare word to the engine: `opc` 0x01 and 0x02 are guest
commands, 0x30 to 0x32 host commands, the rest unit commands (30_encoding.md R84). -/
def homePort (cw : Word) : Port :=
  if fieldOpc cw = 0x01 ∨ fieldOpc cw = 0x02 then .guest
  else if fieldOpc cw = 0x30 ∨ fieldOpc cw = 0x31 ∨ fieldOpc cw = 0x32 then .host
  else .unit

/-- The command the decoder reads from an opcode-table word; every command is one word of 32 bits (30_encoding.md R85). -/
def decodeTableWord (nbits w : Nat) : Option Instr :=
  if nbits ≤ 32 ∧ w < 2 ^ 32 then
    match decode (homePort (BitVec.ofNat 32 w)) (BitVec.ofNat 32 w) with
    | .ok i => some i
    | .error _ => none
  else none

/-- The layout of 30_encoding.md R80 with `rsv = 0`. -/
def packWord (n fn opc : Nat) : Word := BitVec.ofNat 32 (n * 2 ^ 16 + fn * 2 ^ 8 + opc)

/-- `fn` of a chip (30_encoding.md R81). -/
def Chip.code : Chip → Nat
  | .ed => 0
  | .perm => 1

/-- The encoder: the word of a well-formed command (30_encoding.md R84). -/
def encode : Instr → Word
  | .edadd => packWord 0 0 0x01
  | .perm => packWord 0 0 0x02
  | .fpadd => packWord 0 0 0x10
  | .fpsub => packWord 0 1 0x10
  | .fpmul => packWord 0 2 0x10
  | .fpip n => packWord n 0 0x11
  | .fpdenP => packWord 0 0 0x12
  | .fpdenM => packWord 0 1 0x12
  | .mrd => packWord 0 0 0x20
  | .mwr => packWord 0 0 0x21
  | .width c => packWord 0 c.code 0x30
  | .gentrace c => packWord 0 c.code 0x31
  | .eval c => packWord 0 c.code 0x32

/-- A row of the opcode map: a word selects it when `CW AND mask = match` and the extra condition holds. -/
structure OpcodeRow where
  mnemonic : String
  port : Port
  matchWord : Word
  maskWord : Word
deriving DecidableEq, Repr

/-- The thirteen rows of 30_encoding.md R84, in its order. -/
def opcodeRows : List OpcodeRow :=
  [⟨"EDADD", .guest, 0x00000001, 0xFFFFFFFF⟩, ⟨"PERM", .guest, 0x00000002, 0xFFFFFFFF⟩,
   ⟨"FPADD", .unit, 0x00000010, 0xFFFFFFFF⟩, ⟨"FPSUB", .unit, 0x00000110, 0xFFFFFFFF⟩,
   ⟨"FPMUL", .unit, 0x00000210, 0xFFFFFFFF⟩, ⟨"FPIP", .unit, 0x00000011, 0xFF00FFFF⟩,
   ⟨"FPDEN.P", .unit, 0x00000012, 0xFFFFFFFF⟩, ⟨"FPDEN.M", .unit, 0x00000112, 0xFFFFFFFF⟩,
   ⟨"MRD", .unit, 0x00000020, 0xFFFFFFFF⟩, ⟨"MWR", .unit, 0x00000021, 0xFFFFFFFF⟩,
   ⟨"WIDTH", .host, 0x00000030, 0xFFFFFEFF⟩, ⟨"GENTRACE", .host, 0x00000031, 0xFFFFFEFF⟩,
   ⟨"EVAL", .host, 0x00000032, 0xFFFFFEFF⟩]

/-- The row's extra condition: `1 <= n <= IP_MAX` on FPIP, none elsewhere. -/
def OpcodeRow.extra (r : OpcodeRow) (cw : Word) : Bool :=
  if r.mnemonic = "FPIP" then decide (1 ≤ fieldN cw ∧ fieldN cw ≤ Config.ipMax) else true

/-- Whether a word selects the row. -/
def OpcodeRow.selects (r : OpcodeRow) (cw : Word) : Bool :=
  decide (cw &&& r.maskWord = r.matchWord) && r.extra cw

/-- The mnemonic of a command, as the opcode map spells it. -/
def Instr.mnemonic : Instr → String
  | .edadd => "EDADD"
  | .perm => "PERM"
  | .fpadd => "FPADD"
  | .fpsub => "FPSUB"
  | .fpmul => "FPMUL"
  | .fpip _ => "FPIP"
  | .fpdenP => "FPDEN.P"
  | .fpdenM => "FPDEN.M"
  | .mrd => "MRD"
  | .mwr => "MWR"
  | .width _ => "WIDTH"
  | .gentrace _ => "GENTRACE"
  | .eval _ => "EVAL"

end Sys2Proof
end

