-- ==== Sys2Proof/Machine/DefaultConfig.lean ====
section
/-! DEFINITION. The configuration of `Machine.State.reset`, and that its parameters are well formed: `2^255 - 19` is prime
by the prime factors of `p - 1`, of their predecessors, and so on down. -/

namespace Sys2Proof

namespace Machine

theorem prime_56bit : Nat.Prime 31757755568855353 :=
  prime_of_powMod _ 10 55 [2, 2, 2, 3, 31, 107, 223, 4153, 430751] (by norm_num)
    (by decide +kernel) (by decide +kernel) (by decide +kernel) (by decide +kernel) (by decide +kernel)

theorem prime_32bit : Nat.Prime 2773320623 :=
  prime_of_powMod _ 5 32 [2, 2437, 569003] (by norm_num)
    (by decide +kernel) (by decide +kernel) (by decide +kernel) (by decide +kernel) (by decide +kernel)

theorem prime_37bit : Nat.Prime 72106336199 :=
  prime_of_powMod _ 7 37 [2, 13, 2773320623] (by simp only [List.forall_mem_cons, prime_32bit]; norm_num)
    (by decide +kernel) (by decide +kernel) (by decide +kernel) (by decide +kernel) (by decide +kernel)

theorem prime_51bit : Nat.Prime 1919519569386763 :=
  prime_of_powMod _ 2 51 [2, 3, 7, 19, 47, 47, 127, 8574133] (by norm_num)
    (by decide +kernel) (by decide +kernel) (by decide +kernel) (by decide +kernel) (by decide +kernel)

theorem prime_116bit : Nat.Prime 75445702479781427272750846543864801 :=
  prime_of_powMod _ 7 116 [2, 2, 2, 2, 2, 3, 3, 5, 5, 75707, 72106336199, 1919519569386763]
    (by simp only [List.forall_mem_cons, prime_37bit, prime_51bit]; norm_num)
    (by decide +kernel) (by decide +kernel) (by decide +kernel) (by decide +kernel) (by decide +kernel)

theorem prime_236bit : Nat.Prime 74058212732561358302231226437062788676166966415465897661863160754340907 :=
  prime_of_powMod _ 2 236 [2, 3, 353, 57467, 132049, 1923133, 31757755568855353, 75445702479781427272750846543864801]
    (by simp only [List.forall_mem_cons, prime_56bit, prime_116bit]; norm_num)
    (by decide +kernel) (by decide +kernel) (by decide +kernel) (by decide +kernel) (by decide +kernel)

/-- The default `P_MOD` is prime. -/
theorem prime_25519 : Nat.Prime (2 ^ 255 - 19) := by
  rw [show 2 ^ 255 - 19 = 57896044618658097711785492504343953926634992332820282019728792003956564819949 by norm_num]
  exact prime_of_powMod _ 2 255 [2, 2, 3, 65147, 74058212732561358302231226437062788676166966415465897661863160754340907]
    (by simp only [List.forall_mem_cons, prime_236bit]; norm_num)
    (by decide +kernel) (by decide +kernel) (by decide +kernel) (by decide +kernel) (by decide +kernel)

/-- `2^31 - 1` is prime. -/
theorem prime_mersenne31 : Nat.Prime (2 ^ 31 - 1) :=
  prime_of_powMod _ 7 31 [2, 3, 3, 7, 11, 31, 151, 331] (by norm_num)
    (by decide +kernel) (by decide +kernel) (by decide +kernel) (by decide +kernel) (by decide +kernel)

end Machine

/-- The defaults of 00_scope.md R8 and R9 where the spec has one. For `Q_NATIVE`, `PERM_N`, `PERM_ROUNDS`, `PermRound` and
the register ids the spec has no default, and these are a DESIGN CHOICE (log 2). -/
def Params.atReset : Params where
  fd := FieldDesc.ed25519
  edD := 0x52036cee2b6ffe738cc740797779e89800700a4d4141d8ab75eb4dca135978a3
  q := 2 ^ 31 - 1
  permN := 2
  permRounds := 2
  roundFn := .sboxLinear 3 [[2, 1], [1, 3]] [[1, 2], [3, 4]]
  regOpcode := 0
  regA := 1
  regB := 2
  hasEd := true
  hasPerm := true

/-- The parameters at reset are well formed. -/
theorem Params.atReset_wellFormed : Params.atReset.WellFormed where
  limbLength := by decide
  limbBits := by decide
  primeP := Machine.prime_25519
  oddP := by decide +kernel
  boundP := by decide +kernel
  curveConstant := by decide +kernel
  primeQ := Machine.prime_mersenne31
  permutation := by decide
  roundFnShaped := by decide
  noWrap := fun _ => by decide +kernel
  wordsFit := fun _ => by decide +kernel

/-- The configuration of `Machine.State.reset`. -/
def Config.atReset : Config := { Params.atReset with wellFormed := Params.atReset_wellFormed }

end Sys2Proof
end

