-- ==== Sys2Proof/Machine/State.lean ====
section
/-! DEFINITION. The state of one engine (10_state.md R20), the reasons a command does not complete, and the state after
reset (10_state.md R35). -/

namespace Sys2Proof.Machine

/-- The registers: a total map from ids to words, as the list of the ids whose word is not `0`, ids rising
(10_state.md R21). -/
abbrev Regs := List (Nat × Word)

/-- The memory: a total map from byte addresses to bytes, as the list of the addresses whose byte differs from what an
unlisted address reads as, addresses rising (10_state.md R24). -/
abbrev Memory := List Host.Cell

/-- A trace matrix, row-major; a cell is held as its representative in `[0, Q)` (44_trace.md R264, R265). -/
abbrev Matrix := List (List Nat)

/-- "{address, clock, prior_value, new_value}" (10_state.md R26). -/
structure MemoryRecord where
  address : Word
  clock : Word
  priorValue : Word
  newValue : Word
deriving DecidableEq, Repr

/-- The event of one completed EDADD (10_state.md R28). -/
structure EdAddEvent where
  /-- The clock when the invocation started (decision D9). -/
  clock : Word
  pPtr : Word
  /-- The 16 words of the P region before the write-back. -/
  p : List Word
  qPtr : Word
  q : List Word
  pReadRecords : List MemoryRecord
  qReadRecords : List MemoryRecord
  pWriteRecords : List MemoryRecord
deriving DecidableEq, Repr

/-- The event of one completed PERM (10_state.md R29): `stateReads[r][i]` and `stateWrites[r][i]`. -/
structure PermEvent where
  clock : Word
  statePtr : Word
  stateReads : List (List MemoryRecord)
  stateWrites : List (List MemoryRecord)
deriving DecidableEq, Repr

/-- The sub-causes of ArithmeticDefect (60_exceptions.md R292). -/
inductive DefectCause where
  /-- Cause 1: an operand limb is not in `[0, B)`. -/
  | limbOutOfRange
  /-- Cause 2: an operand vector does not have `L` entries. -/
  | limbCountMismatch
  /-- Cause 3: a required inverse does not exist. -/
  | noInverse
  /-- Cause 4: an operand value is `>= p`, or a permutation word is `>= Q`. -/
  | nonCanonicalOperand
  /-- Cause 5: a value to be stored in a trace cell is `>= Q`. -/
  | cellOverflow
deriving DecidableEq, Repr

/-- The two aborting faults (60_exceptions.md R290). A step that raises one answers the NEXT state R298 describes, with
the fault in `FSTAT` and on the result port; no step answers `Host.Outcome.fault`, since the spec gives the state after
each of them (log 10). -/
inductive Fault where
  /-- Raised by MRD, MWR, EDADD, PERM on an address that is no multiple of 4 (60_exceptions.md R291). Safe: it is the
  spec's own fault, with the state the spec gives. -/
  | alignmentError (addr : Word)
  /-- Raised by the units, EDADD, PERM and GENTRACE (60_exceptions.md R292, R295). Safe: as above. -/
  | arithmeticDefect (cause : DefectCause)
deriving DecidableEq, Repr

/-- Why the engine has no step (00_scope.md R14: a refusal errs toward unprovable, so each of these is safe). -/
inductive Refusal where
  /-- Raised by an arm of `exec` whose command has no meaning yet; no arm is one. -/
  | notModelled (mnemonic : String)
  /-- Raised by the step on a word the decoder rejects on that port (30_encoding.md R86). -/
  | illegalCommand (port : Port) (word : Word) (why : Illegal)
  /-- Raised by FPIP on a term count no legal word has (30_encoding.md R86, 41_fp_units.md R138). -/
  | illegalTermCount (n : Nat)
  /-- Raised by every command once `FSTAT.kind != 0` (60_exceptions.md R299). -/
  | segmentFaulted
  /-- Raised by a sealed chip's guest command and second GENTRACE (10_state.md R31). -/
  | chipSealed (chip : Chip)
  /-- Raised by EDADD and PERM when the clock would pass `2^32 - 1` (10_state.md R25). -/
  | clockOverflow
  /-- Raised by EDADD and PERM when an aligned region passes the top of the address space (20_memory.md R59). -/
  | regionPastTop (ptr : Word)
  /-- Raised by EVAL when the chip has no matrix (44_trace.md R267). -/
  | noTrace (chip : Chip)
  /-- Raised by EVAL when the row index is not below the height (44_trace.md R267). -/
  | rowIndexOutOfRange (index : Nat)
  /-- Raised by EVAL when a row of the matrix has not the chip's width (44_trace.md R264); no run reaches such a row. -/
  | rowWidthMismatch (chip : Chip)
  /-- Raised by a chip's guest command, GENTRACE and EVAL in an engine without the chip (00_scope.md R10(g), (h): a chip
  whose clause fails is not instantiated; log 12). -/
  | chipAbsent (chip : Chip)
deriving DecidableEq, Repr

/-- `FSTAT.kind` (10_state.md R32). -/
inductive FaultKind where
  | none
  | alignmentError
  | arithmeticDefect
deriving DecidableEq, Repr

/-- `FSTAT` (10_state.md R32): `cause` is `none` for the code 0. -/
structure FStat where
  kind : FaultKind
  cause : Option DefectCause
  info : Word
deriving DecidableEq, Repr

/-- `FSTAT` with no fault: `{kind 0, cause 0, info 0}` (10_state.md R35). -/
def FStat.clear : FStat := { kind := .none, cause := none, info := 0 }

/-- The operand port (30_encoding.md R82, R83): limb-vector pairs for the six units (a two-operand command takes the
first pair), a byte address and a word for MRD and MWR, a row index for EVAL. -/
structure Operands where
  pairs : List (List Nat × List Nat)
  addr : Word
  value : Word
  row : Nat
deriving DecidableEq, Repr

/-- What a unit command returns: result limbs `C`, quotient limbs `K`, carry witnesses `t` (41_fp_units.md R132, R133). -/
structure UnitResult where
  res : List Nat
  quot : List Nat
  carry : List Int
deriving DecidableEq, Repr

/-- What a command returns on its port (30_encoding.md R82). -/
inductive Response where
  /-- A guest command completed; its results are in `MEM`, `CLK` and the log. -/
  | completed
  | triple (t : UnitResult)
  /-- MRD: the word and the record. -/
  | wordRead (value : Word) (record : MemoryRecord)
  /-- MWR: the record. -/
  | wordWritten (record : MemoryRecord)
  | width (w : Nat)
  | matrix (m : Matrix)
  /-- EVAL; `false` is the ConstraintViolation verdict (60_exceptions.md R293). -/
  | verdict (holds : Bool)
  /-- The aborting fault, returned to the caller (60_exceptions.md R297 (3)). -/
  | faulted (f : Fault)
deriving DecidableEq, Repr

/-- The result port: what the last command to finish returned, and on which port. -/
structure PortResult where
  port : Port
  response : Response
deriving DecidableEq, Repr

/-- What the surroundings can do to the engine, each between two commands (60_exceptions.md R303, 70 R330, R332, R335). -/
inductive Input where
  /-- The guest executes the fast-path instruction; the command word is `x[REG_OPCODE]` (30_encoding.md R80). -/
  | guest
  /-- A command on the unit port with its operands. -/
  | unit (word : Word) (ops : Operands)
  /-- A command on the host port with its operands. -/
  | host (word : Word) (ops : Operands)
  /-- The VM sets a register. -/
  | setReg (id : Nat) (value : Word)
  /-- The VM sets the memory word at byte address `4 * index`. -/
  | setMem (index : BitVec 30) (value : Word)
  /-- The VM sets the clock. -/
  | setClk (value : Word)
  /-- The engine is reset (70_reset_and_hazards.md R330). -/
  | reset
deriving DecidableEq, Repr

/-- The state of one engine. The fields down to `tracePerm` are those of 10_state.md R20; `cfg` is the configuration the
rules take as an argument, well formed by its type (70 R331), which no command writes (R34, log 1); the last three are
the ports (log 7). -/
structure State where
  cfg : Config
  /-- `X`, read by EDADD and PERM, written by nothing in the engine (R21, R22). -/
  x : Regs
  /-- `MEM` (R24). -/
  mem : Memory
  /-- `CLK` (R25). -/
  clk : Word
  /-- `MRB`, oldest record first (R27). -/
  mrb : List MemoryRecord
  /-- `LOG_ED`, `LOG_PERM`, in the order the invocations ran (R30). -/
  logEd : List EdAddEvent
  logPerm : List PermEvent
  /-- `SEALED_ED`, `SEALED_PERM` (R31). -/
  sealedEd : Bool
  sealedPerm : Bool
  /-- `FSTAT` (R32). -/
  fstat : FStat
  /-- `TRACE_ED`, `TRACE_PERM` (R33). -/
  traceEd : Option Matrix
  tracePerm : Option Matrix
  operands : Operands
  result : Option PortResult
  /-- What the surroundings do next, in order. -/
  inputs : List Input
deriving DecidableEq, Repr

/-- What the operand port holds before anything is presented: two pairs of zero vectors (DESIGN CHOICE, log 9). -/
def Operands.initial (c : Config) : Operands :=
  let zero := List.replicate c.fd.numLimbs 0
  { pairs := [(zero, zero), (zero, zero)], addr := 0, value := 0, row := 0 }

/-- An engine just created on configuration `c` with launch parameters `X0`, `MEM0`, `CLK0` (10_state.md R35,
70_reset_and_hazards.md R330). -/
def State.launch (c : Config) (x0 : Regs) (mem0 : Memory) (clk0 : Word) : State where
  cfg := c
  x := x0
  mem := mem0
  clk := clk0
  mrb := []
  logEd := []
  logPerm := []
  sealedEd := false
  sealedPerm := false
  fstat := FStat.clear
  traceEd := none
  tracePerm := none
  operands := Operands.initial c
  result := none
  inputs := []

/-- The state after reset: the engine-owned state of 10_state.md R35. The configuration and the three launch
parameters, which the spec leaves open, are named here as a DESIGN CHOICE (logs 2 to 5): every register, byte and the
clock are 0. -/
def State.reset : State := State.launch Config.atReset [] [] 0

end Sys2Proof.Machine
end

