-- ==== Sys2Proof/Machine/Ops.lean ====
section
/-! DEFINITION. The operations every command goes through: registers, memory, the recorder (40_memrec.md), the clock,
the ports, refusing after a fault, and taking an aborting fault (60_exceptions.md R297, R298). -/

namespace Sys2Proof.Machine

/-! ### Sparse maps in one canonical form -/

/-- The value at key `k`: the first entry of that key, or `d`. -/
def lookup {α : Type} (d : α) : List (Nat × α) → Nat → α
  | [], _ => d
  | (k, v) :: rest, a => if k = a then v else lookup d rest a

/-- Put an entry before the first one of a larger key. -/
def insertEntry {α : Type} (a : Nat) (v : α) : List (Nat × α) → List (Nat × α)
  | [] => [(a, v)]
  | (k, w) :: rest => if a < k then (a, v) :: (k, w) :: rest else (k, w) :: insertEntry a v rest

/-- Set key `a` to `v`: no entry is kept for the value `d` that an absent key has. -/
def update {α : Type} [DecidableEq α] (d : α) (m : List (Nat × α)) (a : Nat) (v : α) : List (Nat × α) :=
  let rest := m.filter (fun e => decide (e.1 ≠ a))
  if v = d then rest else insertEntry a v rest

/-- The canonical form: keys strictly rising and below `bound`, no entry equal to `d`. -/
def canonical {α : Type} [DecidableEq α] (d : α) (bound : Nat) (m : List (Nat × α)) : Bool :=
  decide (m.Pairwise (fun e f => e.1 < f.1)) && m.all (fun e => decide (e.1 < bound ∧ e.2 ≠ d))

/-! ### Registers -/

/-- `x[id]`, the register read without access recording (00_scope.md R13, 10_state.md R22). -/
def Regs.read (x : Regs) (id : Nat) : Word := lookup 0 x id

/-- The VM's write of a register; the engine makes none (10_state.md R21). -/
def Regs.write (x : Regs) (id : Nat) (v : Word) : Regs := update 0 x id v

/-- Registers are in canonical form when ids rise and no entry is `0`. -/
def Regs.wf (x : Regs) : Bool :=
  decide (x.Pairwise (fun e f => e.1 < f.1)) && x.all (fun e => decide (e.2 ≠ 0))

/-! ### Memory -/

/-- What a byte that nothing has written reads as. It only says how a map is written down: any `MEM0` is the list of
its bytes that differ from this one (10_state.md R24). DESIGN CHOICE, log 4. -/
def Memory.unlisted : Byte := 0

/-- The byte at an address. -/
def Memory.readByte (m : Memory) (a : Nat) : Byte := lookup Memory.unlisted m a

/-- Store a byte at an address. -/
def Memory.writeByte (m : Memory) (a : Nat) (b : Byte) : Memory := update Memory.unlisted m a b

/-- `MemRead(addr, 4)` (00_scope.md R13). Byte `k` of a word is its bits `8k+7 .. 8k`; no command observes this order
(20_memory.md R52; log 6). -/
def Memory.readWord (m : Memory) (a : Nat) : Word :=
  m.readByte (a + 3) ++ m.readByte (a + 2) ++ m.readByte (a + 1) ++ m.readByte a

/-- `MemWrite(addr, 4, v)` (00_scope.md R13). -/
def Memory.writeWord (m : Memory) (a : Nat) (v : Word) : Memory :=
  (((m.writeByte a (v.extractLsb' 0 8)).writeByte (a + 1) (v.extractLsb' 8 8)).writeByte
    (a + 2) (v.extractLsb' 16 8)).writeByte (a + 3) (v.extractLsb' 24 8)

/-- The canonical form of a memory: addresses of the 32-bit space (20_memory.md R50), rising, none unlisted in value. -/
def Memory.wf (m : Memory) : Bool := canonical Memory.unlisted (2 ^ 32) m

/-! ### The result port and the end of a command -/

/-- A command completes and returns `r` on its port. -/
def respond (port : Port) (r : Response) (s : State) : State :=
  { s with result := some { port := port, response := r } }

/-- What `FSTAT` becomes (60_exceptions.md R294). -/
def FStat.ofFault : Fault → FStat
  | .alignmentError a => { kind := .alignmentError, cause := none, info := a }
  | .arithmeticDefect c => { kind := .arithmeticDefect, cause := some c, info := 0 }

/-- Taking an aborting fault at state `s` of the faulting point (60_exceptions.md R297, R298): `FSTAT` is set, `MRB` is
emptied, the fault is returned on the command's port, and all else stays as it stands at that point. There is no
handler and no return from it (R300); only `resetEngine` clears `FSTAT`. -/
def takeFault (port : Port) (f : Fault) (s : State) : State :=
  { s with
    fstat := FStat.ofFault f
    mrb := []
    result := some { port := port, response := .faulted f } }

/-- Reset (70_reset_and_hazards.md R330): the engine-owned state takes the values of 10_state.md R35; `X`, `MEM`, `CLK`
and the configuration are not touched, nor is what the surroundings will do next. -/
def resetEngine (s : State) : State :=
  { State.launch s.cfg s.x s.mem s.clk with inputs := s.inputs }

/-- Numbers of 60_exceptions.md R294. -/
def FaultKind.code : FaultKind → Nat
  | .none => 0
  | .alignmentError => 1
  | .arithmeticDefect => 2

/-- Numbers of 60_exceptions.md R292. -/
def DefectCause.code : DefectCause → Nat
  | .limbOutOfRange => 1
  | .limbCountMismatch => 2
  | .noInverse => 3
  | .nonCanonicalOperand => 4
  | .cellOverflow => 5

/-- `FSTAT.kind`, `FSTAT.cause`, `FSTAT.info` as the numbers of 60_exceptions.md R294. -/
def FStat.codes (f : FStat) : Nat × Nat × Nat :=
  (f.kind.code, (match f.cause with | none => 0 | some c => c.code), f.info.toNat)

/-- The number a port reports for a response: 1 and 2 for the aborting faults, 3 for the ConstraintViolation verdict
(60_exceptions.md R293, R294). -/
def Response.code : Response → Nat
  | .faulted (.alignmentError _) => 1
  | .faulted (.arithmeticDefect _) => 2
  | .verdict false => 3
  | _ => 0

/-- Every command is refused after an aborting fault (60_exceptions.md R299); otherwise it runs. -/
def unlessFaulted (s : State) (k : Host.Outcome State Fault Refusal) : Host.Outcome State Fault Refusal :=
  if s.fstat.kind = .none then k else .refused .segmentFaulted

/-! ### Accesses -/

/-- A piece of a command: it goes on with a value, or raises a fault; either way at a state. -/
inductive Attempt (α : Type) where
  | ok (value : α) (s : State)
  | fault (f : Fault) (s : State)
deriving Repr

/-- The end of a command that accesses memory: the fault is taken where it was raised. -/
def conclude (port : Port) : Attempt Response → Host.Outcome State Fault Refusal
  | .ok r s => .next (respond port r s)
  | .fault f s => .next (takeFault port f s)

/-- Whether a byte address is a multiple of `WORD_BYTES = 4` (20_memory.md R55). -/
def aligned (addr : Word) : Bool := addr.toNat % 4 = 0

/-- `mr_read` (40_memrec.md R110). The value read is the record's `newValue`. -/
def mrRead (addr : Word) (s : State) : Attempt MemoryRecord :=
  if aligned addr then
    let value := s.mem.readWord addr.toNat
    let record : MemoryRecord := { address := addr, clock := s.clk, priorValue := value, newValue := value }
    .ok record { s with mrb := s.mrb ++ [record] }
  else .fault (.alignmentError addr) s

/-- `mr_write` (40_memrec.md R111). -/
def mrWrite (addr value : Word) (s : State) : Attempt MemoryRecord :=
  if aligned addr then
    let prior := s.mem.readWord addr.toNat
    let record : MemoryRecord := { address := addr, clock := s.clk, priorValue := prior, newValue := value }
    .ok record { s with mem := s.mem.writeWord addr.toNat value, mrb := s.mrb ++ [record] }
  else .fault (.alignmentError addr) s

/-- One tick, `CLK <- CLK + 1` (00_scope.md R13). Its callers have ruled out a wrap (10_state.md R25). -/
def tick (s : State) : State := { s with clk := s.clk + 1 }

/-- `n` recorded reads in ascending order from `addr`, each followed by a tick (42_edadd.md R181, 43_perm.md R222). -/
def readWords : Nat → Word → State → Attempt (List MemoryRecord)
  | 0, _, s => .ok [] s
  | n + 1, addr, s =>
    match mrRead addr s with
    | .fault f t => .fault f t
    | .ok r t =>
      match readWords n (addr + 4) (tick t) with
      | .fault f u => .fault f u
      | .ok rs u => .ok (r :: rs) u

/-- Recorded writes of the words in ascending order from `addr`, each followed by a tick (42_edadd.md R184). -/
def writeWords : List Word → Word → State → Attempt (List MemoryRecord)
  | [], _, s => .ok [] s
  | w :: ws, addr, s =>
    match mrWrite addr w s with
    | .fault f t => .fault f t
    | .ok r t =>
      match writeWords ws (addr + 4) (tick t) with
      | .fault f u => .fault f u
      | .ok rs u => .ok (r :: rs) u

/-- Whether an `n`-word region at an aligned pointer passes the top of the address space (20_memory.md R59). -/
def pastTop (ptr : Word) (n : Nat) : Bool :=
  aligned ptr && decide (2 ^ 32 - 4 < ptr.toNat + 4 * (n - 1))

/-- Whether `ticks` more ticks would pass `2^32 - 1` (10_state.md R25). -/
def clockWouldOverflow (s : State) (ticks : Nat) : Bool := decide (2 ^ 32 - 1 < s.clk.toNat + ticks)

end Sys2Proof.Machine
end

