-- ==== Sys2Proof/Machine/Limbs.lean ====
section
/-! DEFINITION. Limb vectors (00_scope.md R12), their conversion to words (20_memory.md R52, R54), the carry chain
(41_fp_units.md R133). -/

namespace Sys2Proof.Machine

/-- `val(a) = sum a[i]·B^i`, limb 0 least significant (00_scope.md R12, 20_memory.md R51). -/
def val (base : Nat) : List Nat → Nat
  | [] => 0
  | x :: xs => x + base * val base xs

/-- `limbs(v)`, the `n` limbs of `v` (00_scope.md R12). -/
def limbs (base : Nat) : Nat → Nat → List Nat
  | 0, _ => []
  | n + 1, v => v % base :: limbs base n (v / base)

/-! ### Integer vectors by position -/

/-- Position-by-position sum; a vector that ends is `0` from there on. -/
def addV : List Int → List Int → List Int
  | [], ys => ys
  | x :: xs, [] => x :: xs
  | x :: xs, y :: ys => (x + y) :: addV xs ys

/-- Position-by-position negation. -/
def negV (xs : List Int) : List Int := xs.map (fun x => -x)

/-- Position-by-position difference. -/
def subV (xs ys : List Int) : List Int := addV xs (negV ys)

/-- The product of two vectors position by position, no reduction and no carry. -/
def mulV : List Int → List Int → List Int
  | [], _ => []
  | x :: xs, ys => addV (ys.map (fun y => x * y)) (0 :: mulV xs ys)

/-- Limbs as integers. -/
def ints (a : List Nat) : List Int := a.map Int.ofNat

/-- `pad(a)`: `2L - 1` positions, the `L` limbs and then zeros (00_scope.md R12). -/
def pad (n : Nat) (a : List Nat) : List Int := ints a ++ List.replicate (n - 1) 0

/-- `conv(a, b)` on the `2L - 1` positions (00_scope.md R12). -/
def conv (a b : List Nat) : List Int := mulV (ints a) (ints b)

/-- The integer a vector stands for: `sum xs[j]·B^j`. -/
def valInt (base : Int) : List Int → Int
  | [] => 0
  | x :: xs => x + base * valInt base xs

/-- The carry chain from an incoming carry: `t[j] = (s[j] + t[j-1]) / B` (41_fp_units.md R133). -/
def carryChain (base : Int) : Int → List Int → List Int
  | _, [] => []
  | t, s :: rest => (s + t) / base :: carryChain base ((s + t) / base) rest

/-- The `2L - 2` carry witnesses of `s[0 .. 2L-2]`: the chain without its last entry (41_fp_units.md R133). -/
def carryWitnesses (base : Nat) (s : List Int) : List Int := (carryChain base 0 s).dropLast

/-! ### Words and limbs -/

/-- `word_limbs(v)`: limb `m` of a word is bits `w·m+w-1 .. w·m` (20_memory.md R52, R54). -/
def wordLimbs (c : Config) (v : Word) : List Nat := limbs c.fd.base c.limbsPerWord v.toNat

/-- `words_to_limbs(W)`: limb `WL·j + m` is limb `m` of word `j` (20_memory.md R54). -/
def wordsToLimbs (c : Config) (ws : List Word) : List Nat := ws.flatMap (wordLimbs c)

/-- `limbs_to_words(a)`: word `j` is `sum a[WL·j + m]·2^(w·m)` (20_memory.md R54), for `n` words. -/
def limbsToWords (c : Config) : Nat → List Nat → List Word
  | 0, _ => []
  | n + 1, a => BitVec.ofNat 32 (val c.fd.base (a.take c.limbsPerWord)) :: limbsToWords c n (a.drop c.limbsPerWord)

end Sys2Proof.Machine
end

