-- ==== Sys2Proof/Machine/Units.lean ====
section
/-! DEFINITION. The arithmetic units (41_fp_units.md): operand checks (R131), the results and quotients (R135 to R140),
the position identities `s`, populate, the cell group (R141) and unit eval (R143). -/

namespace Sys2Proof.Machine

/-- The kinds of unit (41_fp_units.md R143). -/
inductive UnitOp where
  | add
  | sub
  | mul
  | ip (n : Nat)
  | denP
  | denM
deriving DecidableEq, Repr

/-- The number of limb products in a position, the `n` of `S(n)` and `T_OFF(n)` (41_fp_units.md R134). -/
def UnitOp.terms : UnitOp → Nat
  | .ip n => n
  | _ => 1

/-- A pair of limb vectors, `(a, b)` or `(a_m, b_m)`. -/
abbrev LimbPair := List Nat × List Nat

/-- The operand checks of 41_fp_units.md R131: each check over all vectors before the next, the first that fails decides. -/
def operandDefect (fd : FieldDesc) (vs : List (List Nat)) : Option DefectCause :=
  if vs.any (fun v => decide (v.length ≠ fd.numLimbs)) then some .limbCountMismatch
  else if vs.any (fun v => v.any (fun x => decide (fd.base ≤ x))) then some .limbOutOfRange
  else if vs.any (fun v => decide (fd.p ≤ val fd.base v)) then some .nonCanonicalOperand
  else none

/-- All vectors of a list of pairs. -/
def vectorsOf (ins : List LimbPair) : List (List Nat) := ins.flatMap (fun ab => [ab.1, ab.2])

/-- The first pair: the operands `a`, `b` of a two-operand unit. -/
def firstPair (ins : List LimbPair) : LimbPair := ins.headD ([], [])

/-! ### Result and quotient -/

/-- FPADD (41_fp_units.md R135): `c` and `k`. -/
def solveAdd (p a b : Nat) : Nat × Nat :=
  let c := (a + b) % p
  (c, (a + b - c) / p)

/-- FPSUB (41_fp_units.md R136). -/
def solveSub (p a b : Nat) : Nat × Nat :=
  let c : Int := ((a : Int) - b) % p
  (c.toNat, ((c - a + b) / p).toNat)

/-- FPMUL (41_fp_units.md R137). -/
def solveMul (p a b : Nat) : Nat × Nat := (a * b % p, a * b / p)

/-- FPIP (41_fp_units.md R138): the products are added as integers before the single reduction. -/
def solveIp (p : Nat) (abs : List (Nat × Nat)) : Nat × Nat :=
  let t := (abs.map (fun ab => ab.1 * ab.2)).sum
  (t % p, t / p)

/-- FPDEN.P (41_fp_units.md R139), `none` for NoInverse. -/
def solveDenP (p a b : Nat) : Option (Nat × Nat) :=
  match inverse p ((1 + b) % p) with
  | none => none
  | some z =>
    let r := a * z % p
    some (r, (((r : Int) * b + r - a) / p).toNat)

/-- FPDEN.M (41_fp_units.md R140), `none` for NoInverse. -/
def solveDenM (p a b : Nat) : Option (Nat × Nat) :=
  match inverse p ((1 - (b : Int)) % p).toNat with
  | none => none
  | some z =>
    let r := a * z % p
    some (r, (((r : Int) * b + a - r) / p).toNat)

/-- Result and quotient of a unit on operand values. -/
def UnitOp.solve (op : UnitOp) (p : Nat) (abs : List (Nat × Nat)) : Option (Nat × Nat) :=
  let ab := abs.headD (0, 0)
  match op with
  | .add => some (solveAdd p ab.1 ab.2)
  | .sub => some (solveSub p ab.1 ab.2)
  | .mul => some (solveMul p ab.1 ab.2)
  | .ip _ => some (solveIp p abs)
  | .denP => solveDenP p ab.1 ab.2
  | .denM => solveDenM p ab.1 ab.2

/-! ### The identity by position -/

/-- `s[0 .. 2L-2]` of a unit (41_fp_units.md R135 to R140), from input, result and quotient limbs; `pl` is `limbs(p)`.
Populate computes it over the integers, unit eval reads it mod `Q`. -/
def UnitOp.positions (op : UnitOp) (fd : FieldDesc) (ins : List LimbPair) (res quot : List Nat) : List Int :=
  let a := (firstPair ins).1
  let b := (firstPair ins).2
  let pd := pad fd.numLimbs
  let kp := conv quot (limbs fd.base fd.numLimbs fd.p)
  match op with
  | .add => subV (subV (addV (pd a) (pd b)) (pd res)) kp
  | .sub => addV (subV (subV (pd a) (pd b)) (pd res)) kp
  | .mul => subV (subV (conv a b) (pd res)) kp
  | .ip _ => subV (subV (ins.foldr (fun ab acc => addV (conv ab.1 ab.2) acc) []) (pd res)) kp
  | .denP => subV (subV (addV (conv res b) (pd res)) (pd a)) kp
  | .denM => subV (subV (addV (conv res b) (pd a)) (pd res)) kp

/-- Populate: the operand checks, then result limbs, quotient limbs and carry witnesses (41_fp_units.md R131 to R140). -/
def populate (op : UnitOp) (fd : FieldDesc) (ins : List LimbPair) : Except DefectCause UnitResult :=
  match operandDefect fd (vectorsOf ins) with
  | some c => .error c
  | none =>
    match op.solve fd.p (ins.map (fun ab => (val fd.base ab.1, val fd.base ab.2))) with
    | none => .error .noInverse
    | some (c, k) =>
      let res := limbs fd.base fd.numLimbs c
      let quot := limbs fd.base fd.numLimbs k
      .ok { res := res, quot := quot, carry := carryWitnesses fd.base (op.positions fd ins res quot) }

/-! ### Cells and unit eval -/

/-- The cells of one unit in a trace row (41_fp_units.md R141). -/
structure UnitCells where
  result : List Nat
  quot : List Nat
  carry : List Nat
deriving DecidableEq, Repr

/-- A carry witness as a cell: `t mod Q` (41_fp_units.md R141). -/
def carryCell (q : Nat) (t : Int) : Nat := (t % q).toNat

/-- The signed reading of a carry cell (41_fp_units.md R142). -/
def signedCell (q v : Nat) : Int := if 2 * v < q then v else (v : Int) - q

/-- Populate's outputs as the cells of a unit group (41_fp_units.md R141). -/
def UnitResult.toCells (q : Nat) (t : UnitResult) : UnitCells :=
  { result := t.res, quot := t.quot, carry := t.carry.map (carryCell q) }

/-- The group's cells in order: result, quot, carry (41_fp_units.md R141). -/
def UnitCells.flat (u : UnitCells) : List Nat := u.result ++ u.quot ++ u.carry

/-- (E3) of 41_fp_units.md R143 from an incoming carry: each `s[j] + carry[j-1] - B·carry[j]` is `0` in `Z_Q`, and after
the last carry cell the outgoing carry is the constant `0`. -/
def chainHolds (q base : Int) : Int → List Int → List Int → Bool
  | _, [], _ => true
  | t, s :: ss, [] => decide ((s + t) % q = 0) && chainHolds q base 0 ss []
  | t, s :: ss, u :: us => decide ((s + t - base * u) % q = 0) && chainHolds q base u ss us

/-- Unit eval: (E1), (E2) and (E3) of 41_fp_units.md R143. -/
def unitPasses (q : Nat) (fd : FieldDesc) (op : UnitOp) (ins : List LimbPair) (u : UnitCells) : Bool :=
  (u.result ++ u.quot).all (fun x => decide (x < fd.base)) &&
  u.carry.all (fun v => decide ((v + fd.tOff op.terms) % q < 2 * fd.tOff op.terms)) &&
  chainHolds q fd.base 0 (op.positions fd ins u.result u.quot) (ints u.carry)

end Sys2Proof.Machine
end

