-- ==== Sys2Proof/Machine/Operands.lean ====
section
/-! DEFINITION. How a command gets its operands (30_encoding.md R82, R83): registers for the guest port, the operand
port for the unit and host ports. -/

namespace Sys2Proof.Machine

/-- The limb-vector pair `m` of the operand port. A pair that was not presented reads as two vectors of no entries, which
the count check of 41_fp_units.md R131 turns down (DESIGN CHOICE, log 9). -/
def operandPair (s : State) (m : Nat) : LimbPair := s.operands.pairs.getD m ([], [])

/-- The first `n` pairs: what FPIP takes, `n` from the command word (30_encoding.md R83). -/
def operandPairs (s : State) (n : Nat) : List LimbPair := (List.range n).map (operandPair s)

/-- The pointer in `REG_A`, an unsigned byte address (30_encoding.md R83). -/
def pointerA (s : State) : Word := s.x.read s.cfg.regA

/-- The pointer in `REG_B`. -/
def pointerB (s : State) : Word := s.x.read s.cfg.regB

end Sys2Proof.Machine
end

