-- ==== Sys2Proof/Machine/Fp.lean ====
section
/-! DEFINITION. The six arithmetic unit commands (41_fp_units.md R135 to R140). -/

namespace Sys2Proof.Machine

/-- A unit command: it returns the exact triple or takes an ArithmeticDefect, and changes nothing else of the engine
(41_fp_units.md, section 2; R149). -/
def unitCommand (op : UnitOp) (ins : List LimbPair) (s : State) : Host.Outcome State Fault Refusal :=
  unlessFaulted s <|
    match populate op s.cfg.fd ins with
    | .error c => .next (takeFault .unit (.arithmeticDefect c) s)
    | .ok t => .next (respond .unit (.triple t) s)

/-- FPADD, modular addition (41_fp_units.md R135). -/
def execFpadd (s : State) : Host.Outcome State Fault Refusal := unitCommand .add [operandPair s 0] s

/-- FPSUB, modular subtraction (41_fp_units.md R136). -/
def execFpsub (s : State) : Host.Outcome State Fault Refusal := unitCommand .sub [operandPair s 0] s

/-- FPMUL, modular multiplication (41_fp_units.md R137). -/
def execFpmul (s : State) : Host.Outcome State Fault Refusal := unitCommand .mul [operandPair s 0] s

/-- FPIP, inner product of `n` pairs (41_fp_units.md R138); a term count no legal word has is refused (30_encoding.md
R86). -/
def execFpip (n : Nat) (s : State) : Host.Outcome State Fault Refusal :=
  if 1 ≤ n ∧ n ≤ Config.ipMax then unitCommand (.ip n) (operandPairs s n) s
  else .refused (.illegalTermCount n)

/-- FPDEN.P, division by `1 + b` (41_fp_units.md R139). -/
def execFpdenP (s : State) : Host.Outcome State Fault Refusal := unitCommand .denP [operandPair s 0] s

/-- FPDEN.M, division by `1 - b` (41_fp_units.md R140). -/
def execFpdenM (s : State) : Host.Outcome State Fault Refusal := unitCommand .denM [operandPair s 0] s

end Sys2Proof.Machine
end

