-- ==== Sys2Proof/Machine/MemRec.lean ====
section
/-! DEFINITION. The recorder commands MRD and MWR on the unit port (40_memrec.md R110, R111, R115). -/

namespace Sys2Proof.Machine

/-- MRD, recorded read at the address of the operand port (40_memrec.md R110); no tick (R113). -/
def execMrd (s : State) : Host.Outcome State Fault Refusal :=
  unlessFaulted s <|
    conclude .unit <|
      match mrRead s.operands.addr s with
      | .fault f t => .fault f t
      | .ok r t => .ok (.wordRead r.newValue r) t

/-- MWR, recorded write of the operand port's word at its address (40_memrec.md R111); no tick (R113). -/
def execMwr (s : State) : Host.Outcome State Fault Refusal :=
  unlessFaulted s <|
    conclude .unit <|
      match mrWrite s.operands.addr s.operands.value s with
      | .fault f t => .fault f t
      | .ok r t => .ok (.wordWritten r) t

end Sys2Proof.Machine
end

