-- ==== Sys2Proof/Machine/EdAdd.lean ====
section
/-! DEFINITION. The curve-addition chip (42_edadd.md): EDADD (R180 to R185), its trace row (R190, R191) and its
constraints (R192). -/

namespace Sys2Proof.Machine

/-! ### The datapath -/

/-- The output triples of the eight unit instances (42_edadd.md R183). -/
structure EdChain where
  x3num : UnitResult
  y3num : UnitResult
  g1 : UnitResult
  g2 : UnitResult
  f : UnitResult
  df : UnitResult
  x3 : UnitResult
  y3 : UnitResult
deriving DecidableEq, Repr

/-- `dl = limbs(ED_D)` (00_scope.md R12). -/
def edDLimbs (c : Config) : List Nat := limbs c.fd.base c.fd.numLimbs c.edD

/-- Step 4, the chain of eight units in order (42_edadd.md R183). -/
def edChain (c : Config) (x1 y1 x2 y2 : List Nat) : Except DefectCause EdChain := do
  let x3num ← populate (.ip 2) c.fd [(x1, y2), (x2, y1)]
  let y3num ← populate (.ip 2) c.fd [(y1, y2), (x1, x2)]
  let g1 ← populate .mul c.fd [(x1, y1)]
  let g2 ← populate .mul c.fd [(x2, y2)]
  let f ← populate .mul c.fd [(g1.res, g2.res)]
  let df ← populate .mul c.fd [(edDLimbs c, f.res)]
  let x3 ← populate .denP c.fd [(x3num.res, df.res)]
  let y3 ← populate .denM c.fd [(y3num.res, df.res)]
  return { x3num, y3num, g1, g2, f, df, x3, y3 }

/-- The `x` coordinate of a point's 16 words (20_memory.md R53, R54). -/
def pointX (c : Config) (ws : List Word) : List Nat := wordsToLimbs c (ws.take 8)

/-- The `y` coordinate of a point's 16 words. -/
def pointY (c : Config) (ws : List Word) : List Nat := wordsToLimbs c ((ws.drop 8).take 8)

/-- Steps 3 and 4: reconstruct the coordinates, check that all four are canonical, run the chain (42_edadd.md R182,
R183). -/
def edSum (c : Config) (pw qw : List Word) : Except DefectCause EdChain :=
  if [pointX c pw, pointY c pw, pointX c qw, pointY c qw].any (fun v => decide (c.fd.p ≤ val c.fd.base v)) then
    .error .nonCanonicalOperand
  else edChain c (pointX c pw) (pointY c pw) (pointX c qw) (pointY c qw)

/-- The 16 words of the sum, `x3` then `y3` (42_edadd.md R184). -/
def edResultWords (c : Config) (ch : EdChain) : List Word := limbsToWords c 8 ch.x3.res ++ limbsToWords c 8 ch.y3.res

/-! ### The command -/

/-- Why EDADD is refused, if it is (42_edadd.md R180; 00_scope.md R10(g) for the chip). -/
def edRefusal (s : State) : Option Refusal :=
  if ¬ s.cfg.hasEd then some (.chipAbsent .ed)
  else if s.sealedEd then some (.chipSealed .ed)
  else if clockWouldOverflow s 48 then some .clockOverflow
  else if pastTop (pointerA s) 16 then some (.regionPastTop (pointerA s))
  else if pastTop (pointerB s) 16 then some (.regionPastTop (pointerB s))
  else none

/-- The event of an invocation that started at clock `c0` and made the records `recs` (42_edadd.md R185). -/
def edEvent (c0 pPtr : Word) (pw : List Word) (qPtr : Word) (qw : List Word) (recs : List MemoryRecord) :
    EdAddEvent where
  clock := c0
  pPtr := pPtr
  p := pw
  qPtr := qPtr
  q := qw
  pReadRecords := recs.take 16
  qReadRecords := (recs.drop 16).take 16
  pWriteRecords := (recs.drop 32).take 16

/-- Steps 2 to 6 from the state in which `MRB` has been emptied (42_edadd.md R181 to R185). -/
def edInvocation (s : State) : Attempt Response :=
  let pPtr := pointerA s
  let qPtr := pointerB s
  match readWords 16 pPtr s with
  | .fault f t => .fault f t
  | .ok pr t =>
    match readWords 16 qPtr t with
    | .fault f u => .fault f u
    | .ok qr u =>
      let pw := pr.map (·.newValue)
      let qw := qr.map (·.newValue)
      match edSum s.cfg pw qw with
      | .error c => .fault (.arithmeticDefect c) u
      | .ok ch =>
        match writeWords (edResultWords s.cfg ch) pPtr u with
        | .fault f v => .fault f v
        | .ok _ v =>
          .ok .completed
            { v with
              logEd := v.logEd ++ [edEvent s.clk pPtr pw qPtr qw v.mrb]
              mrb := [] }

/-- EDADD (42_edadd.md R180 to R185). -/
def execEdadd (s : State) : Host.Outcome State Fault Refusal :=
  unlessFaulted s <|
    match edRefusal s with
    | some r => .refused r
    | none => conclude .guest (edInvocation { s with mrb := [] })

/-! ### The trace row -/

/-- The units of a chain in the order of the row (42_edadd.md R190). -/
def EdChain.units (ch : EdChain) : List UnitResult :=
  [ch.x3num, ch.y3num, ch.g1, ch.g2, ch.f, ch.df, ch.x3, ch.y3]

/-- Row cells are elements of `Z_Q`: a natural number `>= Q` is never reduced (44_trace.md R265). -/
def storeRow (q : Nat) (cells : List Nat) : Except DefectCause (List Nat) :=
  if cells.all (fun x => decide (x < q)) then .ok cells else .error .cellOverflow

/-- The natural numbers a row stores, in the order of the layout (42_edadd.md R190, R191). -/
def edCells (c : Config) (e : EdAddEvent) (ch : EdChain) : List Nat :=
  [e.clock.toNat, e.pPtr.toNat, e.qPtr.toNat] ++
  (List.range 16).flatMap (fun i =>
    wordLimbs c (e.p.getD i 0) ++ wordLimbs c ((e.pWriteRecords.map (·.newValue)).getD i 0)) ++
  (List.range 16).flatMap (fun i => wordLimbs c (e.q.getD i 0)) ++
  ch.units.flatMap (fun t => (t.toCells c.q).flat)

/-- `row_ed(e)` (42_edadd.md R191): the clock and pointers must fit a cell; the chain is run again on the event's words. -/
def edRow (c : Config) (e : EdAddEvent) : Except DefectCause (List Nat) :=
  if [e.clock.toNat, e.pPtr.toNat, e.qPtr.toNat].any (fun x => decide (c.q ≤ x)) then .error .cellOverflow
  else
    match edChain c (pointX c e.p) (pointY c e.p) (pointX c e.q) (pointY c e.q) with
    | .error d => .error d
    | .ok ch => storeRow c.q (edCells c e ch)

/-! ### The row view and the constraints -/

/-- Cells `off .. off + len - 1` of a row. -/
def slice (off len : Nat) (row : List Nat) : List Nat := (row.drop off).take len

/-- The named fields of an ED row (42_edadd.md R190, and the abbreviations `xp` to `yn` of R192). -/
structure EdRow where
  clk : Nat
  pPtr : Nat
  qPtr : Nat
  xp : List Nat
  yp : List Nat
  xq : List Nat
  yq : List Nat
  xn : List Nat
  yn : List Nat
  x3num : UnitCells
  y3num : UnitCells
  g1 : UnitCells
  g2 : UnitCells
  f : UnitCells
  df : UnitCells
  x3 : UnitCells
  y3 : UnitCells
deriving DecidableEq, Repr

/-- `p_access[i].prev` (42_edadd.md R190). -/
def pPrevCells (c : Config) (row : List Nat) (i : Nat) : List Nat :=
  slice (3 + 2 * c.limbsPerWord * i) c.limbsPerWord row

/-- `p_access[i].new`. -/
def pNewCells (c : Config) (row : List Nat) (i : Nat) : List Nat :=
  slice (3 + 2 * c.limbsPerWord * i + c.limbsPerWord) c.limbsPerWord row

/-- `q_access[i].val`. -/
def qValCells (c : Config) (row : List Nat) (i : Nat) : List Nat :=
  slice (3 + 32 * c.limbsPerWord + c.limbsPerWord * i) c.limbsPerWord row

/-- The group of unit number `k` of the row, split as 41_fp_units.md R141 says. -/
def unitCellsAt (c : Config) (row : List Nat) (k : Nat) : UnitCells :=
  let off := 3 + 48 * c.limbsPerWord + k * c.fd.groupWidth
  { result := slice off c.fd.numLimbs row
    quot := slice (off + c.fd.numLimbs) c.fd.numLimbs row
    carry := slice (off + 2 * c.fd.numLimbs) (2 * c.fd.numLimbs - 2) row }

/-- The view of a row; only a row of exactly `W_ED` cells has one (44_trace.md R264). -/
def EdRow.ofCells (c : Config) (row : List Nat) : Option EdRow :=
  if row.length = c.edWidth then
    let lo := List.range 8
    let hi := lo.map (· + 8)
    some
      { clk := row.getD 0 0
        pPtr := row.getD 1 0
        qPtr := row.getD 2 0
        xp := lo.flatMap (pPrevCells c row)
        yp := hi.flatMap (pPrevCells c row)
        xq := lo.flatMap (qValCells c row)
        yq := hi.flatMap (qValCells c row)
        xn := lo.flatMap (pNewCells c row)
        yn := hi.flatMap (pNewCells c row)
        x3num := unitCellsAt c row 0
        y3num := unitCellsAt c row 1
        g1 := unitCellsAt c row 2
        g2 := unitCellsAt c row 3
        f := unitCellsAt c row 4
        df := unitCellsAt c row 5
        x3 := unitCellsAt c row 6
        y3 := unitCellsAt c row 7 }
  else none

/-- The constraints (C1) to (C10) of the ED chip, all row-local (42_edadd.md R192). -/
def evalEdRow (c : Config) (r : EdRow) : Bool :=
  let unit := unitPasses c.q c.fd
  [r.xp, r.yp, r.xq, r.yq, r.xn, r.yn].all (fun v => v.all (fun x => decide (x < c.fd.base))) &&
  unit (.ip 2) [(r.xp, r.yq), (r.xq, r.yp)] r.x3num &&
  unit (.ip 2) [(r.yp, r.yq), (r.xp, r.xq)] r.y3num &&
  unit .mul [(r.xp, r.yp)] r.g1 &&
  unit .mul [(r.xq, r.yq)] r.g2 &&
  unit .mul [(r.g1.result, r.g2.result)] r.f &&
  unit .mul [(edDLimbs c, r.f.result)] r.df &&
  unit .denP [(r.x3num.result, r.df.result)] r.x3 &&
  unit .denM [(r.y3num.result, r.df.result)] r.y3 &&
  decide (r.x3.result = r.xn ∧ r.y3.result = r.yn)

/-! ### What a row stands for -/

/-- The 48 MemoryRecords a row stands for, in order of access (42_edadd.md R194): what the outer memory argument reads. -/
def EdRow.records (c : Config) (r : EdRow) : List MemoryRecord :=
  let prev := limbsToWords c 8 r.xp ++ limbsToWords c 8 r.yp
  let val := limbsToWords c 8 r.xq ++ limbsToWords c 8 r.yq
  let new := limbsToWords c 8 r.xn ++ limbsToWords c 8 r.yn
  let record := fun (ptr off i : Nat) (before after : Word) =>
    ({ address := BitVec.ofNat 32 (ptr + 4 * i)
       clock := BitVec.ofNat 32 (r.clk + off + i)
       priorValue := before
       newValue := after } : MemoryRecord)
  (List.range 16).map (fun i => record r.pPtr 0 i (prev.getD i 0) (prev.getD i 0)) ++
  (List.range 16).map (fun i => record r.qPtr 16 i (val.getD i 0) (val.getD i 0)) ++
  (List.range 16).map (fun i => record r.pPtr 32 i (prev.getD i 0) (new.getD i 0))

end Sys2Proof.Machine
end

