-- ==== Sys2Proof/Machine/Perm.lean ====
section
/-! DEFINITION. The permutation chip (43_perm.md): PERM (R222), its trace rows (R228, R229) and its constraints (R231 to
R233). -/

namespace Sys2Proof.Machine

/-! ### The round function -/

/-- Entry `(i, j)` of a list of rows; a configuration's rows have the entries that are read (`RoundFn.shaped`). -/
def entry (m : List (List Nat)) (i j : Nat) : Nat := (m.getD i []).getD j 0

/-- `PermRound(r, v)`: `N` words of `[0, Q)` (43_perm.md R221). -/
def permRound (c : Config) (r : Nat) (v : List Nat) : List Nat :=
  match c.roundFn with
  | .sboxLinear deg m rc =>
    (List.range c.permN).map (fun i =>
      ((List.range c.permN).map (fun j => entry m i j * ((v.getD j 0 + entry rc r j) ^ deg % c.q))).sum % c.q)
  | .external label => (List.range c.permN).map (fun i => Config.externalRound label r v i % c.q)

/-! ### The command -/

/-- Why PERM is refused, if it is (43_perm.md R222; 00_scope.md R10(h) for the chip). -/
def permRefusal (s : State) : Option Refusal :=
  if ¬ s.cfg.hasPerm then some (.chipAbsent .perm)
  else if s.sealedPerm then some (.chipSealed .perm)
  else if clockWouldOverflow s (2 * s.cfg.permN * s.cfg.permRounds) then some .clockOverflow
  else if pastTop (pointerA s) s.cfg.permN then some (.regionPastTop (pointerA s))
  else none

/-- `k` rounds from round `r` on: `N` reads, the canonical check, the round function, `N` writes (43_perm.md R222). The
value is the read and the write records, by round. -/
def permLoop (ptr : Word) : Nat → Nat → State → Attempt (List (List MemoryRecord) × List (List MemoryRecord))
  | 0, _, s => .ok ([], []) s
  | k + 1, r, s =>
    match readWords s.cfg.permN ptr s with
    | .fault f t => .fault f t
    | .ok rd t =>
      let v := rd.map (fun m => m.newValue.toNat)
      if v.any (fun x => decide (s.cfg.q ≤ x)) then .fault (.arithmeticDefect .nonCanonicalOperand) t
      else
        match writeWords ((permRound s.cfg r v).map (BitVec.ofNat 32)) ptr t with
        | .fault f u => .fault f u
        | .ok wr u =>
          match permLoop ptr k (r + 1) u with
          | .fault f w => .fault f w
          | .ok (rds, wrs) w => .ok (rd :: rds, wr :: wrs) w

/-- The rounds and the event, from the state in which `MRB` has been emptied (43_perm.md R222). -/
def permInvocation (s : State) : Attempt Response :=
  match permLoop (pointerA s) s.cfg.permRounds 0 s with
  | .fault f t => .fault f t
  | .ok (rds, wrs) t =>
    .ok .completed
      { t with
        logPerm := t.logPerm ++ [{ clock := s.clk, statePtr := pointerA s, stateReads := rds, stateWrites := wrs }]
        mrb := [] }

/-- PERM (43_perm.md R222). -/
def execPerm (s : State) : Host.Outcome State Fault Refusal :=
  unlessFaulted s <|
    match permRefusal s with
    | some r => .refused r
    | none => conclude .guest (permInvocation { s with mrb := [] })

/-! ### The trace rows -/

/-- Word `i` of round `r` in records kept by round, as a number. -/
def roundWord (recs : List (List MemoryRecord)) (r i : Nat) : Nat :=
  (((recs.getD r []).map (fun m => m.newValue.toNat)).getD i 0)

/-- The natural numbers the row of round `r` stores, in the order of the layout (43_perm.md R228, R229). -/
def permCells (c : Config) (e : PermEvent) (r : Nat) : List Nat :=
  let inp := roundWord e.stateReads r
  let out := roundWord e.stateWrites r
  let last := decide (r + 1 = c.permRounds)
  [e.clock.toNat + 2 * c.permN * r, e.statePtr.toNat, 1, if last then 1 else 0] ++
  (List.range c.permRounds).map (fun k => if k = r then 1 else 0) ++
  (List.range c.permN).map inp ++
  (List.range c.permN).map out ++
  (List.range c.permN).map (fun i => if last then (((out i : Int) - inp i) % c.q).toNat else 0)

/-- `row_perm(e, r)` (43_perm.md R229), with the overflow rule of 44_trace.md R265. -/
def permRow (c : Config) (e : PermEvent) (r : Nat) : Except DefectCause (List Nat) :=
  if (permCells c e r).all (fun x => decide (x < c.q)) then .ok (permCells c e r) else .error .cellOverflow

/-! ### The row view and the constraints -/

/-- The named fields of a PERM row (43_perm.md R228). -/
structure PermRow where
  clk : Nat
  statePtr : Nat
  isExternal : Nat
  isFinalize : Nat
  roundSel : List Nat
  inp : List Nat
  out : List Nat
  finOpd : List Nat
deriving DecidableEq, Repr

/-- The view of a row; only a row of exactly `W_PERM` cells has one (44_trace.md R264). -/
def PermRow.ofCells (c : Config) (row : List Nat) : Option PermRow :=
  if row.length = c.permWidth then
    some
      { clk := row.getD 0 0
        statePtr := row.getD 1 0
        isExternal := row.getD 2 0
        isFinalize := row.getD 3 0
        roundSel := (row.drop 4).take c.permRounds
        inp := (row.drop (4 + c.permRounds)).take c.permN
        out := (row.drop (4 + c.permRounds + c.permN)).take c.permN
        finOpd := (row.drop (4 + c.permRounds + 2 * c.permN)).take c.permN }
  else none

/-- Selector `round_sel[r]`. -/
def PermRow.sel (row : PermRow) (r : Nat) : Int := row.roundSel.getD r 0

/-- `x = y` in `Z_Q`. -/
def eqZq (q : Nat) (x y : Int) : Bool := decide ((x - y) % q = 0)

/-- The row-local constraints (P1) to (P6) (43_perm.md R231). -/
def permRowLocal (c : Config) (cur : PermRow) : Bool :=
  let eq := eqZq c.q
  let ext : Int := cur.isExternal
  let fin : Int := cur.isFinalize
  let inp := fun i => (cur.inp.getD i 0 : Int)
  let out := fun i => (cur.out.getD i 0 : Int)
  let opd := fun i => (cur.finOpd.getD i 0 : Int)
  let rounds := List.range c.permRounds
  let words := List.range c.permN
  (ext :: fin :: rounds.map cur.sel).all (fun b => eq (b * (b - 1)) 0) &&
  eq (rounds.map cur.sel).sum ext &&
  eq fin (cur.sel (c.permRounds - 1)) &&
  words.all (fun i =>
    eq (ext * out i) ((rounds.map (fun r => cur.sel r * ((permRound c r cur.inp).getD i 0 : Int))).sum)) &&
  words.all (fun i => eq (fin * (inp i + opd i - out i)) 0) &&
  words.all (fun i => eq ((1 - fin) * opd i) 0)

/-- The adjacent-row constraints (T1) to (T6) (43_perm.md R232). -/
def permTransition (c : Config) (cur next : PermRow) : Bool :=
  let eq := eqZq c.q
  let early := List.range (c.permRounds - 1)
  let words := List.range c.permN
  early.all (fun r => eq (cur.sel r * (next.sel (r + 1) - 1)) 0) &&
  early.all (fun r => eq (next.sel (r + 1) * (cur.sel r - 1)) 0) &&
  early.all (fun r => eq (cur.sel r * ((next.statePtr : Int) - cur.statePtr)) 0) &&
  early.all (fun r => eq (cur.sel r * ((next.clk : Int) - cur.clk - 2 * c.permN)) 0) &&
  early.all (fun r => words.all (fun i =>
    eq (cur.sel r * ((next.inp.getD i 0 : Int) - (cur.out.getD i 0 : Int))) 0)) &&
  eq ((1 - (cur.isExternal : Int)) * next.isExternal) 0

/-- The first-row constraint (43_perm.md R233): `round_sel[r] = 0` for every `1 <= r < R`. -/
def permFirstRow (c : Config) (cur : PermRow) : Bool :=
  (List.range (c.permRounds - 1)).all (fun r => eqZq c.q (cur.sel (r + 1)) 0)

/-- Every constraint of the PERM chip on a window, gated by the builder constants (43_perm.md R231 to R233). -/
def evalPermWindow (c : Config) (cur next : PermRow) (isFirstRow isTransition : Bool) : Bool :=
  permRowLocal c cur && (!isTransition || permTransition c cur next) && (!isFirstRow || permFirstRow c cur)

/-! ### What a row stands for -/

/-- The `2N` MemoryRecords a genuine row stands for, reads first (43_perm.md R234). -/
def PermRow.records (c : Config) (row : PermRow) : List MemoryRecord :=
  let record := fun (off i before after : Nat) =>
    ({ address := BitVec.ofNat 32 (row.statePtr + 4 * i)
       clock := BitVec.ofNat 32 (row.clk + off + i)
       priorValue := BitVec.ofNat 32 before
       newValue := BitVec.ofNat 32 after } : MemoryRecord)
  (List.range c.permN).map (fun i => record 0 i (row.inp.getD i 0) (row.inp.getD i 0)) ++
  (List.range c.permN).map (fun i => record c.permN i (row.inp.getD i 0) (row.out.getD i 0))

end Sys2Proof.Machine
end

