-- ==== Sys2Proof/Machine/Trace.lean ====
section
/-! DEFINITION. Trace and constraint integration (44_trace.md): WIDTH, GENTRACE, EVAL. -/

namespace Sys2Proof.Machine

/-- Whether the configuration has the chip (00_scope.md R10(g), (h); log 12). -/
def hasChip (c : Config) : Chip → Bool
  | .ed => c.hasEd
  | .perm => c.hasPerm

/-- GENTRACE and EVAL of a chip are refused by an engine without the chip. -/
def ifChip (chip : Chip) (s : State) (k : Host.Outcome State Fault Refusal) : Host.Outcome State Fault Refusal :=
  if hasChip s.cfg chip then k else .refused (.chipAbsent chip)

/-! ### WIDTH -/

/-- The chip's fixed column count (44_trace.md R260). -/
def chipWidth (c : Config) : Chip → Nat
  | .ed => c.edWidth
  | .perm => c.permWidth

/-- WIDTH (44_trace.md R260): from the configuration only, whichever chips the engine has. -/
def execWidth (chip : Chip) (s : State) : Host.Outcome State Fault Refusal :=
  unlessFaulted s <|
    .next (respond .host (.width (chipWidth s.cfg chip)) s)

/-! ### GENTRACE -/

/-- The smallest power of two that is at least `max(1, n)` (44_trace.md R263). -/
def padHeight (n : Nat) : Nat := if n ≤ 1 then 1 else 2 ^ (Nat.log2 (n - 1) + 1)

/-- All results of a list, or the first defect. -/
def collect {α : Type} : List (Except DefectCause α) → Except DefectCause (List α)
  | [] => .ok []
  | .error d :: _ => .error d
  | .ok a :: rest =>
    match collect rest with
    | .error d => .error d
    | .ok as => .ok (a :: as)

/-- Append all-zero rows of the given width up to the padded height (44_trace.md R261 to R263). -/
def padMatrix (width : Nat) (rows : List (List Nat)) : Matrix :=
  rows ++ List.replicate (padHeight rows.length - rows.length) (List.replicate width 0)

/-- The ED matrix of a log: one row per event, in log order (44_trace.md R261). -/
def edMatrix (c : Config) (log : List EdAddEvent) : Except DefectCause Matrix :=
  match collect (log.map (edRow c)) with
  | .error d => .error d
  | .ok rows => .ok (padMatrix c.edWidth rows)

/-- The PERM matrix of a log: one row per event and round, round 0 first (44_trace.md R262). -/
def permMatrix (c : Config) (log : List PermEvent) : Except DefectCause Matrix :=
  match collect (log.flatMap (fun e => (List.range c.permRounds).map (permRow c e))) with
  | .error d => .error d
  | .ok rows => .ok (padMatrix c.permWidth rows)

/-- GENTRACE ED (44_trace.md R261). -/
def gentraceEd (s : State) : Host.Outcome State Fault Refusal :=
  if s.sealedEd then .refused (.chipSealed .ed)
  else
    match edMatrix s.cfg s.logEd with
    | .error d => .next (takeFault .host (.arithmeticDefect d) s)
    | .ok m => .next (respond .host (.matrix m) { s with traceEd := some m, sealedEd := true })

/-- GENTRACE PERM (44_trace.md R262). -/
def gentracePerm (s : State) : Host.Outcome State Fault Refusal :=
  if s.sealedPerm then .refused (.chipSealed .perm)
  else
    match permMatrix s.cfg s.logPerm with
    | .error d => .next (takeFault .host (.arithmeticDefect d) s)
    | .ok m => .next (respond .host (.matrix m) { s with tracePerm := some m, sealedPerm := true })

/-- GENTRACE (44_trace.md R261, R262). -/
def execGentrace (chip : Chip) (s : State) : Host.Outcome State Fault Refusal :=
  unlessFaulted s <|
    ifChip chip s (match chip with
      | .ed => gentraceEd s
      | .perm => gentracePerm s)

/-! ### EVAL -/

/-- The next row of window `i`: row `i + 1`, or on the last row the row itself, which no constraint then uses
(44_trace.md R267). -/
def nextRow (m : Matrix) (i : Nat) (cur : List Nat) : List Nat := (m[i + 1]?).getD cur

/-- The ED chip's verdict on window `i` of a matrix (44_trace.md R267, 42_edadd.md R192), `none` when the row is not of
the chip's width. -/
def edVerdict (c : Config) (cur : List Nat) : Option Bool :=
  (EdRow.ofCells c cur).map (evalEdRow c)

/-- The PERM chip's verdict on the window of rows `cur`, `next` at index `i` of `h` rows (44_trace.md R267). -/
def permVerdict (c : Config) (cur next : List Nat) (i h : Nat) : Option Bool :=
  match PermRow.ofCells c cur, PermRow.ofCells c next with
  | some a, some b => some (evalPermWindow c a b (decide (i = 0)) (decide (i + 1 < h)))
  | _, _ => none

/-- EVAL of one chip, from its matrix and a verdict on a window (44_trace.md R267). -/
def evalCommand (chip : Chip) (trace : Option Matrix) (verdict : List Nat → List Nat → Nat → Nat → Option Bool)
    (s : State) : Host.Outcome State Fault Refusal :=
  match trace with
  | none => .refused (.noTrace chip)
  | some m =>
    match m[s.operands.row]? with
    | none => .refused (.rowIndexOutOfRange s.operands.row)
    | some cur =>
      match verdict cur (nextRow m s.operands.row cur) s.operands.row m.length with
      | none => .refused (.rowWidthMismatch chip)
      | some b => .next (respond .host (.verdict b) s)

/-- EVAL at the row index of the operand port (44_trace.md R267); `false` is the ConstraintViolation verdict and sets
nothing in `FSTAT` (60_exceptions.md R293). -/
def execEval (chip : Chip) (s : State) : Host.Outcome State Fault Refusal :=
  unlessFaulted s <|
    ifChip chip s (match chip with
      | .ed => evalCommand .ed s.traceEd (fun cur _ _ _ => edVerdict s.cfg cur) s
      | .perm => evalCommand .perm s.tracePerm (permVerdict s.cfg) s)

end Sys2Proof.Machine
end

