-- ==== Sys2Proof/Machine/Dispatch.lean ====
section
/-! DEFINITION. The dispatch: one arm per command, each the direct call of its meaning. -/

namespace Sys2Proof.Machine

def exec (i : Instr) (s : State) : Host.Outcome State Fault Refusal :=
  match i with
  | .edadd => Sys2Proof.Machine.execEdadd s
  | .perm => Sys2Proof.Machine.execPerm s
  | .fpadd => Sys2Proof.Machine.execFpadd s
  | .fpsub => Sys2Proof.Machine.execFpsub s
  | .fpmul => Sys2Proof.Machine.execFpmul s
  | .fpip n => Sys2Proof.Machine.execFpip n s
  | .fpdenP => Sys2Proof.Machine.execFpdenP s
  | .fpdenM => Sys2Proof.Machine.execFpdenM s
  | .mrd => Sys2Proof.Machine.execMrd s
  | .mwr => Sys2Proof.Machine.execMwr s
  | .width c => Sys2Proof.Machine.execWidth c s
  | .gentrace c => Sys2Proof.Machine.execGentrace c s
  | .eval c => Sys2Proof.Machine.execEval c s

end Sys2Proof.Machine
end

