-- ==== Sys2Proof/Machine/Fetch.lean ====
section
/-! DEFINITION. What the surroundings do next and how a command word reaches the decoder (30_encoding.md R80, R82;
60_exceptions.md R303; 70_reset_and_hazards.md R330, R335, R342). -/

namespace Sys2Proof.Machine

/-- What the next step does with its input. -/
inductive Fetched where
  /-- No command: the engine holds its state, or the surroundings change what is theirs. -/
  | quiet (s : State)
  /-- A command word on a port, at the state with its operands on the operand port. -/
  | command (port : Port) (word : Word) (s : State)
deriving Repr

/-- One input taken: `s` is the state from which it has been removed. -/
def takeInput (s : State) : Input → Fetched
  | .guest => .command .guest (s.x.read s.cfg.regOpcode) s
  | .unit w ops => .command .unit w { s with operands := ops }
  | .host w ops => .command .host w { s with operands := ops }
  | .setReg id v => .quiet { s with x := s.x.write id v }
  | .setMem index v => .quiet { s with mem := s.mem.writeWord (4 * index.toNat) v }
  | .setClk v => .quiet { s with clk := v }
  | .reset => .quiet (resetEngine s)

/-- The next input; with none the engine holds its state unchanged (70_reset_and_hazards.md R342). -/
def fetch (s : State) : Fetched :=
  match s.inputs with
  | [] => .quiet s
  | i :: rest => takeInput { s with inputs := rest } i

/-- Present a bare command word on the port its `opc` belongs to, with the operands the operand port holds. A guest word
is put in `x[REG_OPCODE]` (30_encoding.md R80). -/
def presentWord (w : Word) (s : State) : State :=
  match homePort w with
  | .guest => { s with x := s.x.write s.cfg.regOpcode w, inputs := .guest :: s.inputs }
  | .unit => { s with inputs := .unit w s.operands :: s.inputs }
  | .host => { s with inputs := .host w s.operands :: s.inputs }

end Sys2Proof.Machine
end

