-- ==== Sys2Proof/Machine/Step.lean ====
section
/-! DEFINITION. One step: the next input, and, if it is a command, its decoding and its meaning. A command is atomic
(70_reset_and_hazards.md R333), so it is one step. -/

namespace Sys2Proof.Machine

/-- The step. An illegal word, or a legal one on the wrong port, is refused (30_encoding.md R85, R86). -/
def step (s : State) : Host.Outcome State Fault Refusal :=
  match fetch s with
  | .quiet t => .next t
  | .command port w t =>
    match decode port w with
    | .error e => .refused (.illegalCommand port w e)
    | .ok i => exec i t

/-- The state in which the next step is presented the word `w` (a command is one word of 32 bits). -/
def State.withFetchWord (s : State) (_nbits w : Nat) : State := presentWord (BitVec.ofNat 32 w) s

end Sys2Proof.Machine
end

