-- ==== Sys2Proof/Safety.lean ====
section
/-! DEFINITION. The terms the claims use: canonical operands, the identities and position formulas of the units as the
spec writes them, points in memory, honest events, the invariant of the machine, and what a good run is. -/

namespace Sys2Proof.Machine

/-! ### Field elements and units -/

/-- A canonical limb vector: `L` limbs, each in `[0, B)`, value `< p` (41_fp_units.md R130). -/
def CanonicalLimbs (fd : FieldDesc) (v : List Nat) : Prop :=
  v.length = fd.numLimbs ∧ (∀ x ∈ v, x < fd.base) ∧ val fd.base v < fd.p

/-- `L` limbs, each in `[0, B)`. -/
def LimbVector (fd : FieldDesc) (v : List Nat) : Prop := v.length = fd.numLimbs ∧ ∀ x ∈ v, x < fd.base

/-- A unit has as many operand pairs as its kind asks: one, or the `1 <= n <= IP_MAX` of an inner product. -/
def UnitOp.Fits (op : UnitOp) (ins : List LimbPair) : Prop :=
  ins.length = op.terms ∧ 1 ≤ op.terms ∧ op.terms ≤ Config.ipMax

/-- The left side of the integer identity of 41_fp_units.md R132, from operand values, result and quotient. -/
def UnitOp.identity (op : UnitOp) (p : Nat) (abs : List (Nat × Nat)) (c k : Nat) : Int :=
  let a : Int := (abs.headD (0, 0)).1
  let b : Int := (abs.headD (0, 0)).2
  match op with
  | .add => a + b - c - k * p
  | .sub => a - b - c + k * p
  | .mul => a * b - c - k * p
  | .ip _ => (abs.map (fun ab => (ab.1 : Int) * ab.2)).sum - c - k * p
  | .denP => c * b + c - a - k * p
  | .denM => c * b + a - c - k * p

/-- `pad(a)[j]` (00_scope.md R12). -/
def padAt (n : Nat) (a : List Nat) (j : Nat) : Int := if j < n then (a.getD j 0 : Int) else 0

/-- `conv(a, b)[j] = sum over (i, l) with i + l = j, 0 <= i, l < L, of a[i]·b[l]` (00_scope.md R12). -/
def convAt (n : Nat) (a b : List Nat) (j : Nat) : Int :=
  ((List.range n).map (fun i => if i ≤ j ∧ j - i < n then (a.getD i 0 : Int) * (b.getD (j - i) 0 : Int) else 0)).sum

/-- `s[j]` as the command rules write it (41_fp_units.md R135 to R140). -/
def UnitOp.positionAt (op : UnitOp) (fd : FieldDesc) (ins : List LimbPair) (res quot : List Nat) (j : Nat) : Int :=
  let n := fd.numLimbs
  let a := (firstPair ins).1
  let b := (firstPair ins).2
  let kp := convAt n quot (limbs fd.base n fd.p) j
  match op with
  | .add => padAt n a j + padAt n b j - padAt n res j - kp
  | .sub => padAt n a j - padAt n b j - padAt n res j + kp
  | .mul => convAt n a b j - padAt n res j - kp
  | .ip _ => (ins.map (fun ab => convAt n ab.1 ab.2 j)).sum - padAt n res j - kp
  | .denP => convAt n res b j + padAt n res j - padAt n a j - kp
  | .denM => convAt n res b j + padAt n a j - padAt n res j - kp

/-- `t[j-1]`, with `t[-1] = 0` (41_fp_units.md R133). -/
def carryBefore (t : List Int) (j : Nat) : Int := if j = 0 then 0 else t.getD (j - 1) 0

/-- The carry witnesses `t[0 .. 2L-3]` carry the positions `s` to `0` exactly: `s[j] + t[j-1] = B·t[j]` for
`j = 0 .. 2L-2`, with `t[-1] = 0` and `t[2L-2] = 0` (41_fp_units.md R133). -/
def CarriesExactly (fd : FieldDesc) (s : Nat → Int) (t : List Int) : Prop :=
  t.length = 2 * fd.numLimbs - 2 ∧
  ∀ j, j < 2 * fd.numLimbs - 1 → s j + carryBefore t j = fd.base * t.getD j 0

/-- What a completed unit returns: a canonical result, a quotient in `L` limbs, the integer identity of R132, and the
carry witnesses of R133. -/
def UnitAnswer (op : UnitOp) (fd : FieldDesc) (ins : List LimbPair) (t : UnitResult) : Prop :=
  CanonicalLimbs fd t.res ∧
  LimbVector fd t.quot ∧
  op.identity fd.p (ins.map (fun ab => (val fd.base ab.1, val fd.base ab.2))) (val fd.base t.res)
    (val fd.base t.quot) = 0 ∧
  CarriesExactly fd (op.positionAt fd ins t.res t.quot) t.carry

/-- The constraints (E1), (E2), (E3) of unit eval as 41_fp_units.md R143 writes them. -/
def UnitConstraints (q : Nat) (fd : FieldDesc) (op : UnitOp) (ins : List LimbPair) (u : UnitCells) : Prop :=
  (∀ x ∈ u.result, x < fd.base) ∧ (∀ x ∈ u.quot, x < fd.base) ∧
  (∀ v ∈ u.carry, (v + fd.tOff op.terms) % q < 2 * fd.tOff op.terms) ∧
  ∀ j, j < 2 * fd.numLimbs - 1 →
    (op.positionAt fd ins u.result u.quot j + carryBefore (ints u.carry) j - fd.base * (ints u.carry).getD j 0) % q = 0

/-- A unit group of a trace row has the sizes of 41_fp_units.md R141. -/
def UnitCells.Sized (fd : FieldDesc) (u : UnitCells) : Prop :=
  u.result.length = fd.numLimbs ∧ u.quot.length = fd.numLimbs ∧ u.carry.length = 2 * fd.numLimbs - 2

/-! ### Points -/

/-- The integer of the 8 words at a byte address: `sum word[j]·2^(32j)` (20_memory.md R52). -/
def fieldAt (m : Memory) (a : Nat) : Nat :=
  ((List.range 8).map (fun j => (m.readWord (a + 4 * j)).toNat * 2 ^ (32 * j))).sum

/-- The words of a region (20_memory.md R59). -/
def wordsAt (m : Memory) (ptr : Word) (n : Nat) : List Word :=
  (List.range n).map (fun i => m.readWord (ptr.toNat + 4 * i))

/-- `-x^2 + y^2 = 1 + d·x^2·y^2 (mod p)` (42_edadd.md R188). -/
def OnCurve (c : Config) (x y : Nat) : Prop :=
  (-(x : Int) ^ 2 + (y : Int) ^ 2 - (1 + c.edD * (x : Int) ^ 2 * (y : Int) ^ 2)) % c.fd.p = 0

/-- `d_f = d·x1·x2·y1·y2`, not reduced (42_edadd.md R183). -/
def edProduct (c : Config) (x1 y1 x2 y2 : Nat) : Int := c.edD * (x1 * x2 * (y1 * y2))

/-- (C1) to (C10) as 42_edadd.md R192 writes them. -/
def EdConstraints (c : Config) (r : EdRow) : Prop :=
  let unit := UnitConstraints c.q c.fd
  (∀ v ∈ [r.xp, r.yp, r.xq, r.yq, r.xn, r.yn], ∀ x ∈ v, x < c.fd.base) ∧
  unit (.ip 2) [(r.xp, r.yq), (r.xq, r.yp)] r.x3num ∧
  unit (.ip 2) [(r.yp, r.yq), (r.xp, r.xq)] r.y3num ∧
  unit .mul [(r.xp, r.yp)] r.g1 ∧
  unit .mul [(r.xq, r.yq)] r.g2 ∧
  unit .mul [(r.g1.result, r.g2.result)] r.f ∧
  unit .mul [(edDLimbs c, r.f.result)] r.df ∧
  unit .denP [(r.x3num.result, r.df.result)] r.x3 ∧
  unit .denM [(r.y3num.result, r.df.result)] r.y3 ∧
  ∀ l, l < c.fd.numLimbs → r.x3.result.getD l 0 = r.xn.getD l 0 ∧ r.y3.result.getD l 0 = r.yn.getD l 0

/-! ### The permutation -/

/-- The state after `r` rounds from `v` (43_perm.md R224). -/
def permStateAfter (c : Config) (v : List Nat) : Nat → List Nat
  | 0 => v
  | r + 1 => permRound c r (permStateAfter c v r)

/-- Equality in `Z_Q`. -/
def CellsEq (q : Nat) (x y : Int) : Prop := (x - y) % q = 0

/-- (P1) to (P6) as 43_perm.md R231 writes them. -/
def PermRowConstraints (c : Config) (cur : PermRow) : Prop :=
  let eq := CellsEq c.q
  let inp := fun i => (cur.inp.getD i 0 : Int)
  let out := fun i => (cur.out.getD i 0 : Int)
  let opd := fun i => (cur.finOpd.getD i 0 : Int)
  eq (cur.isExternal * ((cur.isExternal : Int) - 1)) 0 ∧
  eq (cur.isFinalize * ((cur.isFinalize : Int) - 1)) 0 ∧
  (∀ r, r < c.permRounds → eq (cur.sel r * (cur.sel r - 1)) 0) ∧
  eq (((List.range c.permRounds).map cur.sel).sum) cur.isExternal ∧
  eq cur.isFinalize (cur.sel (c.permRounds - 1)) ∧
  (∀ i, i < c.permN → eq (cur.isExternal * out i)
    (((List.range c.permRounds).map (fun r => cur.sel r * ((permRound c r cur.inp).getD i 0 : Int))).sum)) ∧
  (∀ i, i < c.permN → eq (cur.isFinalize * (inp i + opd i - out i)) 0) ∧
  (∀ i, i < c.permN → eq ((1 - (cur.isFinalize : Int)) * opd i) 0)

/-- (T1) to (T6) as 43_perm.md R232 writes them. -/
def PermTransitionConstraints (c : Config) (cur next : PermRow) : Prop :=
  let eq := CellsEq c.q
  (∀ r, r + 1 < c.permRounds → eq (cur.sel r * (next.sel (r + 1) - 1)) 0) ∧
  (∀ r, 1 ≤ r → r < c.permRounds → eq (next.sel r * (cur.sel (r - 1) - 1)) 0) ∧
  (∀ r, r + 1 < c.permRounds → eq (cur.sel r * ((next.statePtr : Int) - cur.statePtr)) 0) ∧
  (∀ r, r + 1 < c.permRounds → eq (cur.sel r * ((next.clk : Int) - cur.clk - 2 * c.permN)) 0) ∧
  (∀ r i, r + 1 < c.permRounds → i < c.permN →
    eq (cur.sel r * ((next.inp.getD i 0 : Int) - cur.out.getD i 0)) 0) ∧
  eq ((1 - (cur.isExternal : Int)) * next.isExternal) 0

/-- The first-row constraint as 43_perm.md R233 writes it. -/
def PermFirstRowConstraints (c : Config) (cur : PermRow) : Prop :=
  ∀ r, 1 ≤ r → r < c.permRounds → CellsEq c.q (cur.sel r) 0

/-! ### Honest events -/

/-- The address of word `i` of a region. -/
def regionAddr (ptr : Word) (i : Nat) : Word := ptr + BitVec.ofNat 32 (4 * i)

/-- Access `k` of an invocation carries clock `c0 + k` (20_memory.md R62). -/
def clockAt (c0 : Word) (k : Nat) : Word := c0 + BitVec.ofNat 32 k

/-- A region of `n` words at an aligned pointer, inside the address space (20_memory.md R55, R59). -/
def RegionFits (ptr : Word) (n : Nat) : Prop := ptr.toNat % 4 = 0 ∧ ptr.toNat + 4 * n ≤ 2 ^ 32

/-- An event such as a completed EDADD emits: the words, the schedule of records of 42_edadd.md R186, and written words
that are the sum of R183. -/
def EdAddEvent.Honest (c : Config) (e : EdAddEvent) : Prop :=
  c.hasEd = true ∧ RegionFits e.pPtr 16 ∧ RegionFits e.qPtr 16 ∧ e.clock.toNat + 48 < 2 ^ 32 ∧
  e.p.length = 16 ∧ e.q.length = 16 ∧
  e.pReadRecords = (List.range 16).map (fun i =>
    { address := regionAddr e.pPtr i, clock := clockAt e.clock i
      priorValue := e.p.getD i 0, newValue := e.p.getD i 0 }) ∧
  e.qReadRecords = (List.range 16).map (fun i =>
    { address := regionAddr e.qPtr i, clock := clockAt e.clock (16 + i)
      priorValue := e.q.getD i 0, newValue := e.q.getD i 0 }) ∧
  ∃ ch, edSum c e.p e.q = .ok ch ∧
    e.pWriteRecords = (List.range 16).map (fun i =>
      { address := regionAddr e.pPtr i, clock := clockAt e.clock (32 + i)
        priorValue := e.p.getD i 0, newValue := (edResultWords c ch).getD i 0 })

/-- The read records of a PERM from state `v` (43_perm.md R225). -/
def permReadRecords (c : Config) (ptr c0 : Word) (v : List Nat) : List (List MemoryRecord) :=
  (List.range c.permRounds).map (fun r => (List.range c.permN).map (fun i =>
    { address := regionAddr ptr i, clock := clockAt c0 (2 * c.permN * r + i)
      priorValue := BitVec.ofNat 32 ((permStateAfter c v r).getD i 0)
      newValue := BitVec.ofNat 32 ((permStateAfter c v r).getD i 0) }))

/-- The write records of a PERM from state `v` (43_perm.md R225). -/
def permWriteRecords (c : Config) (ptr c0 : Word) (v : List Nat) : List (List MemoryRecord) :=
  (List.range c.permRounds).map (fun r => (List.range c.permN).map (fun i =>
    { address := regionAddr ptr i, clock := clockAt c0 (2 * c.permN * r + c.permN + i)
      priorValue := BitVec.ofNat 32 ((permStateAfter c v r).getD i 0)
      newValue := BitVec.ofNat 32 ((permStateAfter c v (r + 1)).getD i 0) }))

/-- An event such as a completed PERM emits from some canonical state: the schedule of records of 43_perm.md R225. -/
def PermEvent.Honest (c : Config) (e : PermEvent) : Prop :=
  c.hasPerm = true ∧ RegionFits e.statePtr c.permN ∧ e.clock.toNat + 2 * c.permN * c.permRounds < 2 ^ 32 ∧
  ∃ v : List Nat, v.length = c.permN ∧ (∀ x ∈ v, x < c.q) ∧
    e.stateReads = permReadRecords c e.statePtr e.clock v ∧
    e.stateWrites = permWriteRecords c e.statePtr e.clock v

/-! ### The invariant and good runs -/

/-- The values `FSTAT` can have (60_exceptions.md R294). -/
def FStat.Legal (f : FStat) : Prop :=
  f = FStat.clear ∨ (∃ a : Word, a.toNat % 4 ≠ 0 ∧ f = FStat.ofFault (.alignmentError a)) ∨
    ∃ c, f = FStat.ofFault (.arithmeticDefect c)

/-- What holds in every state a run reaches, from a launch whose memory and registers are in canonical form. -/
structure State.Inv (s : State) : Prop where
  mem : s.mem.wf = true
  regs : s.x.wf = true
  fstat : s.fstat.Legal
  /-- Every record is of an aligned address (10_state.md R26). -/
  records : ∀ r ∈ s.mrb, r.address.toNat % 4 = 0
  logEd : ∀ e ∈ s.logEd, e.Honest s.cfg
  logPerm : ∀ e ∈ s.logPerm, e.Honest s.cfg
  /-- A log is sealed exactly when its matrix exists (10_state.md R31, R33), and the matrix is the one of the log. -/
  sealEd : s.sealedEd = true ↔ s.traceEd.isSome = true
  sealPerm : s.sealedPerm = true ↔ s.tracePerm.isSome = true
  traceEd : ∀ m, s.traceEd = some m → s.cfg.hasEd = true ∧ edMatrix s.cfg s.logEd = .ok m
  tracePerm : ∀ m, s.tracePerm = some m → s.cfg.hasPerm = true ∧ permMatrix s.cfg s.logPerm = .ok m

/-- A run has failed when its state has a fault (70_reset_and_hazards.md R340). -/
def State.Failed (s : State) : Prop := s.fstat.kind ≠ .none

/-- EVAL of a chip answers `true` at every row: the trace is accepted at this layer (44_trace.md R267). -/
def State.Accepted (s : State) (chip : Chip) : Prop :=
  ∃ m, (match chip with | .ed => s.traceEd | .perm => s.tracePerm) = some m ∧
    ∀ i, i < m.length → ∃ t, exec (.eval chip) { s with operands := { s.operands with row := i } } = .next t ∧
      t.result = some { port := .host, response := .verdict true }

end Sys2Proof.Machine
end

