-- ==== Sys2Proof/Certificates/Slice0/Obligations.lean ====
section
/-! DEFINITION. The statements for the provers, in the order of OBLIGATIONS.json. Each docstring names the rule of the
spec it formalises; the hypotheses that several share are named first. -/

open Sys2Proof Sys2Proof.Machine

namespace Sys2Proof.Claims

/-- A unit command can start: no fault yet. -/
def UnitReady (s : Machine.State) : Prop := s.fstat.kind = .none

/-- The first pair of the operand port is `(a, b)`, both canonical (41_fp_units.md R130). -/
def CanonicalPair (s : Machine.State) (a b : List Nat) : Prop :=
  operandPair s 0 = (a, b) ∧ CanonicalLimbs s.cfg.fd a ∧ CanonicalLimbs s.cfg.fd b

/-- The value of a limb vector under the state's configuration. -/
def value (s : Machine.State) (v : List Nat) : Nat := val s.cfg.fd.base v

/-- The state after a unit or host command that only returns something. -/
def answered (port : Port) (r : Response) (s : Machine.State) : Machine.State :=
  { s with result := some { port := port, response := r } }

/-- The state after an ArithmeticDefect, at the state `s` of the faulting point (60_exceptions.md R297, R298). -/
def defected (port : Port) (cause : DefectCause) (s : Machine.State) : Machine.State :=
  { s with
    fstat := { kind := .arithmeticDefect, cause := some cause, info := 0 }
    mrb := []
    result := some { port := port, response := .faulted (.arithmeticDefect cause) } }

/-- The state after an AlignmentError, at the state `s` of the faulting point. -/
def misaligned (port : Port) (addr : Word) (s : Machine.State) : Machine.State :=
  { s with
    fstat := { kind := .alignmentError, cause := none, info := addr }
    mrb := []
    result := some { port := port, response := .faulted (.alignmentError addr) } }

/-- The operand vectors of a unit command (30_encoding.md R83); `none` for the other commands. -/
def unitVectors (i : Instr) (s : Machine.State) : Option (List (List Nat)) :=
  match i with
  | .fpadd | .fpsub | .fpmul | .fpdenP | .fpdenM => some (vectorsOf [operandPair s 0])
  | .fpip n => some (vectorsOf (operandPairs s n))
  | _ => none

/-- EDADD can start: nothing of 42_edadd.md R180 refuses it, pointers apart. -/
def EdOpen (s : Machine.State) : Prop :=
  s.fstat.kind = .none ∧ s.cfg.hasEd = true ∧ s.sealedEd = false ∧ s.clk.toNat + 48 < 2 ^ 32

/-- EDADD can start and both regions are aligned and inside the address space. -/
def EdReady (s : Machine.State) : Prop := EdOpen s ∧ RegionFits (pointerA s) 16 ∧ RegionFits (pointerB s) 16

/-- An aligned pointer has its region inside the address space (20_memory.md R59). -/
def FitsIfAligned (ptr : Word) (n : Nat) : Prop := ptr.toNat % 4 = 0 → ptr.toNat + 4 * n ≤ 2 ^ 32

/-- The coordinates `x1, y1, x2, y2` that memory holds at the two pointers (20_memory.md R52, R53). -/
def coords (s : Machine.State) : Nat × Nat × Nat × Nat :=
  (fieldAt s.mem (pointerA s).toNat, fieldAt s.mem ((pointerA s).toNat + 32),
   fieldAt s.mem (pointerB s).toNat, fieldAt s.mem ((pointerB s).toNat + 32))

/-- All four coordinates are below `p`. -/
def CanonicalCoords (s : Machine.State) : Prop :=
  (coords s).1 < s.cfg.fd.p ∧ (coords s).2.1 < s.cfg.fd.p ∧ (coords s).2.2.1 < s.cfg.fd.p ∧ (coords s).2.2.2 < s.cfg.fd.p

/-- `d_f` of the coordinates in memory, not reduced. -/
def dfOf (s : Machine.State) : Int :=
  edProduct s.cfg (coords s).1 (coords s).2.1 (coords s).2.2.1 (coords s).2.2.2

/-- Neither denominator is `0` mod `p`. -/
def DenominatorsInvertible (s : Machine.State) : Prop :=
  (1 + dfOf s) % s.cfg.fd.p ≠ 0 ∧ (1 - dfOf s) % s.cfg.fd.p ≠ 0

/-- PERM can start, its pointer apart (43_perm.md R222). -/
def PermOpen (s : Machine.State) : Prop :=
  s.fstat.kind = .none ∧ s.cfg.hasPerm = true ∧ s.sealedPerm = false ∧
    s.clk.toNat + 2 * s.cfg.permN * s.cfg.permRounds < 2 ^ 32

/-- The words of the permutation state in memory, as numbers (43_perm.md R220). -/
def permWords (s : Machine.State) : List Nat := (wordsAt s.mem (pointerA s) s.cfg.permN).map BitVec.toNat

/-- PERM can start, its region fits and every word is canonical. -/
def PermReady (s : Machine.State) : Prop :=
  PermOpen s ∧ RegionFits (pointerA s) s.cfg.permN ∧ ∀ x ∈ permWords s, x < s.cfg.q

/-- An event whose values fit the cells they are stored in (44_trace.md R265). -/
def EdEventFits (c : Config) (e : EdAddEvent) : Prop :=
  e.clock.toNat < c.q ∧ e.pPtr.toNat < c.q ∧ e.qPtr.toNat < c.q

/-- As above for every round of a PermEvent; the clock of the last round is the largest (43_perm.md R229). -/
def PermEventFits (c : Config) (e : PermEvent) : Prop :=
  e.clock.toNat + 2 * c.permN * (c.permRounds - 1) < c.q ∧ e.statePtr.toNat < c.q

/-- Any two accesses to one address with none between: the later prior value is the earlier new value (20_memory.md
R63, read with R64's "immediately preceding"; log 23). -/
def LocallyConsistent (recs : List MemoryRecord) : Prop :=
  ∀ (i j : Nat) (a b : MemoryRecord), i < j → recs[i]? = some a → recs[j]? = some b → a.address = b.address →
    (∀ (k : Nat) (r : MemoryRecord), i < k → k < j → recs[k]? = some r → r.address ≠ a.address) →
    b.priorValue = a.newValue

/-- The next input presents the command word `w` on a port (30_encoding.md R80, R82). -/
def Presented (port : Port) (w : Word) (s : Machine.State) : Prop :=
  match port with
  | .guest => ∃ rest, s.inputs = .guest :: rest ∧ s.x.read s.cfg.regOpcode = w
  | .unit => ∃ ops rest, s.inputs = .unit w ops :: rest
  | .host => ∃ ops rest, s.inputs = .host w ops :: rest

/-- The state with row index `i` on the operand port. -/
def atRow (s : Machine.State) (i : Nat) : Machine.State := { s with operands := { s.operands with row := i } }

/-- The records of a PermEvent in the order they were made: per round, reads then writes. -/
def permRecords (e : PermEvent) : List MemoryRecord :=
  (List.zipWith (fun a b => a ++ b) e.stateReads e.stateWrites).flatten

/-- Whether an input presents a command to the engine. -/
def isCommand : Input → Bool
  | .guest | .unit _ _ | .host _ _ => true
  | .setReg _ _ | .setMem _ _ | .setClk _ | .reset => false

end Sys2Proof.Claims

open Sys2Proof.Claims

/-! ### Encoding -/

/-- 30_encoding.md R85: decoding has one answer, and on every port it is the inverse of the encoding of well-formed
commands, with every field at every value the encoding admits. -/
def Obligations.DecodeIsTheInverseOfEncode : Prop :=
  ∀ (port : Port) (w : Word) (i : Instr), decode port w = .ok i ↔ i.wf = true ∧ i.port = port ∧ encode i = w

/-- 30_encoding.md R84, R85: a word on a port decodes to a command of a row exactly when the row is the port's and the
word selects it by match, mask and extra condition; no word selects two rows; and the mask of every row covers `opc`. -/
def Obligations.DecodeAgreesWithTheOpcodeMap : Prop :=
  (∀ (port : Port) (w : Word) (m : String),
    (∃ i, decode port w = .ok i ∧ i.mnemonic = m) ↔
      ∃ r ∈ opcodeRows, r.mnemonic = m ∧ r.port = port ∧ r.selects w = true) ∧
  (∀ (w : Word), ∀ r₁ ∈ opcodeRows, ∀ r₂ ∈ opcodeRows, r₁.selects w = true → r₂.selects w = true → r₁ = r₂) ∧
  ∀ r ∈ opcodeRows, r.maskWord &&& 0xFF = 0xFF

/-- A few words of 30_encoding.md R84 decode to the command they stand for. -/
def Obligations.SampleWordsDecode : Prop :=
  decode .guest 0x00000001 = .ok .edadd ∧ decode .guest 0x00000002 = .ok .perm ∧
  decode .unit 0x00000210 = .ok .fpmul ∧ decode .unit 0x00020011 = .ok (.fpip 2) ∧
  decode .unit 0x00000112 = .ok .fpdenM ∧ decode .unit 0x00000021 = .ok .mwr ∧
  decode .host 0x00000131 = .ok (.gentrace .perm)

/-- 30_encoding.md R86: the words it lists are illegal on every port, a legal word is illegal on every port but its own,
and an illegal word presented on a port is refused. -/
def Obligations.ReservedEncodingsAreIllegal : Prop :=
  ∀ (port : Port) (w : Word),
    (fieldRsv w ≠ 0 → decode port w = .error .reservedBits) ∧
    (fieldRsv w = 0 → fieldOpc w ∉ [0x01, 0x02, 0x10, 0x11, 0x12, 0x20, 0x21, 0x30, 0x31, 0x32] →
      decode port w = .error .unknownOpcode) ∧
    (fieldOpc w ≠ 0x11 → fieldN w ≠ 0 → ∃ e, decode port w = .error e) ∧
    (fieldOpc w = 0x11 → fieldN w = 0 ∨ Config.ipMax < fieldN w → ∃ e, decode port w = .error e) ∧
    (fieldOpc w ∈ [0x01, 0x02, 0x11, 0x20, 0x21] → fieldFn w ≠ 0 → ∃ e, decode port w = .error e) ∧
    (fieldOpc w = 0x10 → 2 < fieldFn w → ∃ e, decode port w = .error e) ∧
    (fieldOpc w ∈ [0x12, 0x30, 0x31, 0x32] → 1 < fieldFn w → ∃ e, decode port w = .error e) ∧
    (∀ i other, decode port w = .ok i → other ≠ port → decode other w = .error .wrongPort) ∧
    ∀ (s : Machine.State) (e : Illegal), Presented port w s → decode port w = .error e → ∃ r, step s = .refused r

/-! ### The step -/

/-- A command on a port is decoded and run: the step is `exec` of the decoded command at the state from which the input
is taken and whose operand port holds the command's operands; an illegal word is refused (30_encoding.md R80, R85,
R86). -/
def Obligations.StepRunsTheDecodedCommand : Prop :=
  ∀ (s : Machine.State) (rest : List Input),
    (s.inputs = .guest :: rest →
      (∀ i, decode .guest (s.x.read s.cfg.regOpcode) = .ok i → step s = exec i { s with inputs := rest }) ∧
      ∀ e, decode .guest (s.x.read s.cfg.regOpcode) = .error e →
        step s = .refused (.illegalCommand .guest (s.x.read s.cfg.regOpcode) e)) ∧
    (∀ w ops, s.inputs = .unit w ops :: rest →
      (∀ i, decode .unit w = .ok i → step s = exec i { s with inputs := rest, operands := ops }) ∧
      ∀ e, decode .unit w = .error e → step s = .refused (.illegalCommand .unit w e)) ∧
    ∀ w ops, s.inputs = .host w ops :: rest →
      (∀ i, decode .host w = .ok i → step s = exec i { s with inputs := rest, operands := ops }) ∧
      ∀ e, decode .host w = .error e → step s = .refused (.illegalCommand .host w e)

/-- A well-formed command's word, presented to the engine, is run by the very next step (derived: 30_encoding.md R80,
R82): a guest word from `REG_OPCODE`, a unit or host word from its port. -/
def Obligations.PresentedWordRunsItsCommand : Prop :=
  ∀ (s : Machine.State) (i : Instr), i.wf = true →
    step (s.withFetchWord 32 (encode i).toNat) =
      exec i (if i.port = .guest then { s with x := s.x.write s.cfg.regOpcode (encode i) } else s)

/-- 70_reset_and_hazards.md R342: with no command the engine holds its state unchanged; and what the surroundings do
between commands changes what is theirs and nothing else (R335, log 18). -/
def Obligations.EngineHoldsItsStateBetweenCommands : Prop :=
  ∀ (s : Machine.State) (rest : List Input),
    (s.inputs = [] → step s = .next s) ∧
    (∀ id v, s.inputs = .setReg id v :: rest → ∃ t, step s = .next t ∧ t = { s with x := t.x, inputs := rest } ∧
      t.x.read id = v ∧ ∀ other, other ≠ id → t.x.read other = s.x.read other) ∧
    (∀ k v, s.inputs = .setMem k v :: rest → ∃ t, step s = .next t ∧ t = { s with mem := t.mem, inputs := rest } ∧
      t.mem.readWord (4 * k.toNat) = v ∧
      ∀ b, b < 4 * k.toNat ∨ 4 * k.toNat + 4 ≤ b → t.mem.readByte b = s.mem.readByte b) ∧
    ∀ v, s.inputs = .setClk v :: rest → step s = .next { s with clk := v, inputs := rest }

/-- 70_reset_and_hazards.md R330, 10_state.md R35: reset puts the engine-owned state at the reset values and leaves the
VM-owned state alone, from a launch as from any state. -/
def Obligations.ResetRestoresTheEngineOwnedState : Prop :=
  (∀ (s : Machine.State) (rest : List Input), s.inputs = .reset :: rest → ∃ t, step s = .next t ∧
    t.mrb = [] ∧ t.logEd = [] ∧ t.logPerm = [] ∧ t.sealedEd = false ∧ t.sealedPerm = false ∧
    t.fstat.codes = (0, 0, 0) ∧ t.traceEd = none ∧ t.tracePerm = none ∧
    t.x = s.x ∧ t.mem = s.mem ∧ t.clk = s.clk ∧ t.cfg = s.cfg) ∧
  ∀ (c : Config) (x₀ : Regs) (m₀ : Memory) (k₀ : Word), let t := Machine.State.launch c x₀ m₀ k₀
    t.mrb = [] ∧ t.logEd = [] ∧ t.logPerm = [] ∧ t.sealedEd = false ∧ t.sealedPerm = false ∧
    t.fstat.codes = (0, 0, 0) ∧ t.traceEd = none ∧ t.tracePerm = none ∧ t.x = x₀ ∧ t.mem = m₀ ∧ t.clk = k₀

/-- 70_reset_and_hazards.md R331: "The configuration is fixed before reset and cannot change afterwards". -/
def Obligations.ConfigurationNeverChanges : Prop :=
  ∀ (s t : Machine.State), step s = .next t → t.cfg = s.cfg

/-- The invariant holds at every launch with canonical memory and registers, and so at reset (the reset values of
registers, memory and clock are the model's choice, logs 3 to 5). -/
def Obligations.InvariantHoldsAtLaunch : Prop :=
  Machine.State.reset.Inv ∧
  ∀ (c : Config) (x₀ : Regs) (m₀ : Memory) (k₀ : Word), x₀.wf = true → m₀.wf = true →
    (Machine.State.launch c x₀ m₀ k₀).Inv

/-- Every step keeps the invariant: canonical memory and registers, a legal `FSTAT`, aligned records, honest events in
both logs, seals that say whether a matrix exists, and matrices that are those of the logs. -/
def Obligations.StepKeepsTheInvariant : Prop :=
  ∀ (s t : Machine.State), s.Inv → step s = .next t → t.Inv

/-! ### Whole-machine rules -/

/-- 60_exceptions.md R299: after an aborting fault every command on every port is refused until reset. -/
def Obligations.CommandsAfterAFaultAreRefused : Prop :=
  ∀ (s : Machine.State), s.fstat.kind ≠ .none →
    (∀ i, i.wf = true → exec i s = .refused .segmentFaulted) ∧
    (∀ input rest, s.inputs = input :: rest → isCommand input = true → ∃ r, step s = .refused r) ∧
    ∀ rest, s.inputs = .reset :: rest → ∃ t, step s = .next t ∧ t.fstat.kind = .none

/-- 60_exceptions.md R294, R298: the state after an aborting fault: `FSTAT` with its codes, `MRB` empty, the clock at
the faulting point, everything else unchanged, and (R297 (3)) the fault on the command's port. -/
def Obligations.FaultLeavesTheStateOfTheTable : Prop :=
  (∀ a, (FStat.ofFault (.alignmentError a)).codes = (1, 0, a.toNat)) ∧
  (∀ cause, (FStat.ofFault (.arithmeticDefect cause)).codes = (2, cause.code, 0)) ∧
  ∀ (i : Instr) (s t : Machine.State), exec i s = .next t → t.fstat.kind ≠ .none →
    (∃ f, t.fstat = FStat.ofFault f ∧ t.result = some { port := i.port, response := .faulted f }) ∧
    t.x = s.x ∧ t.mem = s.mem ∧ t.mrb = [] ∧ t.logEd = s.logEd ∧ t.logPerm = s.logPerm ∧
    t.sealedEd = s.sealedEd ∧ t.sealedPerm = s.sealedPerm ∧ t.traceEd = s.traceEd ∧ t.tracePerm = s.tracePerm ∧
    (i ≠ .edadd → i ≠ .perm → t.clk = s.clk) ∧
    (i = .edadd → t.clk =
      if (pointerA s).toNat % 4 ≠ 0 then s.clk else if (pointerB s).toNat % 4 ≠ 0 then s.clk + 16 else s.clk + 32) ∧
    (i = .perm → t.clk = if (pointerA s).toNat % 4 ≠ 0 then s.clk else s.clk + BitVec.ofNat 32 s.cfg.permN)

/-- 60_exceptions.md R295: which command can raise which fault, in states whose logs are honest. -/
def Obligations.FaultsByCommand : Prop :=
  ∀ (i : Instr) (s t : Machine.State), s.Inv → exec i s = .next t → t.fstat.kind ≠ .none →
    let alignment := ∃ a, t.fstat = FStat.ofFault (.alignmentError a)
    let cause := fun c => t.fstat = FStat.ofFault (.arithmeticDefect c)
    match i with
    | .mrd | .mwr => alignment
    | .fpadd | .fpsub | .fpmul | .fpip _ =>
      cause .limbCountMismatch ∨ cause .limbOutOfRange ∨ cause .nonCanonicalOperand
    | .fpdenP | .fpdenM =>
      cause .limbCountMismatch ∨ cause .limbOutOfRange ∨ cause .nonCanonicalOperand ∨ cause .noInverse
    | .edadd => alignment ∨ cause .nonCanonicalOperand ∨ cause .noInverse
    | .perm => alignment ∨ cause .nonCanonicalOperand
    | .gentrace _ => cause .cellOverflow
    | .width _ | .eval _ => False

/-- 10_state.md R20 ("written by"), R21: what each command leaves unchanged. No command writes a register, the
configuration, the operand port or the pending inputs; memory is written by MWR, EDADD and PERM only, the clock by EDADD
and PERM, each log by its chip, each seal and matrix by GENTRACE of its chip; and what completes without touching `MRB`
leaves it. -/
def Obligations.OnlyTheNamedCommandsWriteEachState : Prop :=
  ∀ (i : Instr) (s t : Machine.State), exec i s = .next t →
    t.x = s.x ∧ t.cfg = s.cfg ∧ t.operands = s.operands ∧ t.inputs = s.inputs ∧
    (i ≠ .mwr → i ≠ .edadd → i ≠ .perm → t.mem = s.mem) ∧
    (i ≠ .edadd → i ≠ .perm → t.clk = s.clk) ∧
    (i ≠ .edadd → t.logEd = s.logEd) ∧ (i ≠ .perm → t.logPerm = s.logPerm) ∧
    (i ≠ .gentrace .ed → t.sealedEd = s.sealedEd ∧ t.traceEd = s.traceEd) ∧
    (i ≠ .gentrace .perm → t.sealedPerm = s.sealedPerm ∧ t.tracePerm = s.tracePerm) ∧
    (t.fstat.kind = .none → i ≠ .mrd → i ≠ .mwr → i ≠ .edadd → i ≠ .perm → t.mrb = s.mrb) ∧
    (t.fstat.kind = .none → t.fstat = s.fstat)

/-- The frame of the three storing commands in memory: every byte outside the stored region reads as before. The regions
are the operand port's word (40_memrec.md R111), the P region (42_edadd.md R184) and the permutation state (43_perm.md
R222). -/
def Obligations.StoresStayInTheirRegion : Prop :=
  ∀ (s t : Machine.State) (b : Nat),
    (exec .mwr s = .next t → b < s.operands.addr.toNat ∨ s.operands.addr.toNat + 4 ≤ b →
      t.mem.readByte b = s.mem.readByte b) ∧
    (exec .edadd s = .next t → b < (pointerA s).toNat ∨ (pointerA s).toNat + 64 ≤ b →
      t.mem.readByte b = s.mem.readByte b) ∧
    (exec .perm s = .next t → b < (pointerA s).toNat ∨ (pointerA s).toNat + 4 * s.cfg.permN ≤ b →
      t.mem.readByte b = s.mem.readByte b)

/-- 60_exceptions.md R306: "Per completed command it advances by: EDADD 48; PERM 2·N·R; every other command 0", and it
never wraps. -/
def Obligations.ClockAdvancesPerCompletedCommand : Prop :=
  ∀ (i : Instr) (s t : Machine.State), exec i s = .next t → t.fstat.kind = .none →
    t.clk.toNat = s.clk.toNat +
      match i with
      | .edadd => 48
      | .perm => 2 * s.cfg.permN * s.cfg.permRounds
      | _ => 0

/-! ### The recorder -/

/-- 40_memrec.md R110: MRD on an aligned address returns the word and its record, appends the record to `MRB` and
changes nothing else, not even the clock (R113); on a misaligned one it raises AlignmentError(addr). -/
def Obligations.MrdReadsAndRecords : Prop :=
  encode .mrd = 0x00000020 ∧ ∀ (s : Machine.State), s.fstat.kind = .none →
    let v := s.mem.readWord s.operands.addr.toNat
    let r : MemoryRecord := { address := s.operands.addr, clock := s.clk, priorValue := v, newValue := v }
    (s.operands.addr.toNat % 4 = 0 → exec .mrd s = .next { answered .unit (.wordRead v r) s with mrb := s.mrb ++ [r] }) ∧
    (s.operands.addr.toNat % 4 ≠ 0 → exec .mrd s = .next (misaligned .unit s.operands.addr s))

/-- 40_memrec.md R111: MWR on an aligned address captures the prior word, stores the new one and nothing else, appends
the record and returns it, and leaves the clock; on a misaligned one it raises AlignmentError(addr). -/
def Obligations.MwrWritesAndRecords : Prop :=
  encode .mwr = 0x00000021 ∧ ∀ (s : Machine.State), s.fstat.kind = .none →
    let a := s.operands.addr.toNat
    let r : MemoryRecord :=
      { address := s.operands.addr, clock := s.clk, priorValue := s.mem.readWord a, newValue := s.operands.value }
    (a % 4 = 0 → ∃ t, exec .mwr s = .next t ∧
      t = { answered .unit (.wordWritten r) s with mrb := s.mrb ++ [r], mem := t.mem } ∧
      t.mem.readWord a = s.operands.value ∧
      ∀ b, b < a ∨ a + 4 ≤ b → t.mem.readByte b = s.mem.readByte b) ∧
    (a % 4 ≠ 0 → exec .mwr s = .next (misaligned .unit s.operands.addr s))

/-! ### The arithmetic units -/

/-- 41_fp_units.md R135: FPADD on canonical operands. -/
def Obligations.FpaddReturnsTheSum : Prop :=
  encode .fpadd = 0x00000010 ∧ ∀ (s : Machine.State) (a b : List Nat), UnitReady s → CanonicalPair s a b →
    ∃ t : UnitResult, exec .fpadd s = .next (answered .unit (.triple t) s) ∧
      value s t.res = (value s a + value s b) % s.cfg.fd.p ∧
      value s t.quot = (value s a + value s b) / s.cfg.fd.p ∧ value s t.quot ≤ 1 ∧
      UnitAnswer .add s.cfg.fd [(a, b)] t

/-- 41_fp_units.md R136: FPSUB on canonical operands. -/
def Obligations.FpsubReturnsTheDifference : Prop :=
  encode .fpsub = 0x00000110 ∧ ∀ (s : Machine.State) (a b : List Nat), UnitReady s → CanonicalPair s a b →
    ∃ t : UnitResult, exec .fpsub s = .next (answered .unit (.triple t) s) ∧
      (value s t.res : Int) = ((value s a : Int) - value s b) % s.cfg.fd.p ∧
      value s t.quot = (if value s b ≤ value s a then 0 else 1) ∧
      UnitAnswer .sub s.cfg.fd [(a, b)] t

/-- 41_fp_units.md R137: FPMUL on canonical operands. -/
def Obligations.FpmulReturnsTheProduct : Prop :=
  encode .fpmul = 0x00000210 ∧ ∀ (s : Machine.State) (a b : List Nat), UnitReady s → CanonicalPair s a b →
    ∃ t : UnitResult, exec .fpmul s = .next (answered .unit (.triple t) s) ∧
      value s t.res = value s a * value s b % s.cfg.fd.p ∧
      value s t.quot = value s a * value s b / s.cfg.fd.p ∧ value s t.quot ≤ s.cfg.fd.p - 2 ∧
      UnitAnswer .mul s.cfg.fd [(a, b)] t

/-- 41_fp_units.md R138: FPIP on `n` canonical pairs; `n = 1` gives what FPMUL gives; a count outside `1 .. IP_MAX` is
refused. -/
def Obligations.FpipReturnsTheInnerProduct : Prop :=
  (∀ (s : Machine.State) (n : Nat), UnitReady s → 1 ≤ n → n ≤ Config.ipMax →
    (∀ v ∈ vectorsOf (operandPairs s n), CanonicalLimbs s.cfg.fd v) →
    let total := ((operandPairs s n).map (fun ab => value s ab.1 * value s ab.2)).sum
    (encode (.fpip n)).toNat = 0x11 + n * 2 ^ 16 ∧
    ∃ t : UnitResult, exec (.fpip n) s = .next (answered .unit (.triple t) s) ∧
      value s t.res = total % s.cfg.fd.p ∧ value s t.quot = total / s.cfg.fd.p ∧ value s t.quot < n * s.cfg.fd.p ∧
      UnitAnswer (.ip n) s.cfg.fd (operandPairs s n) t ∧
      (n = 1 → exec .fpmul s = .next (answered .unit (.triple t) s))) ∧
  ∀ (s : Machine.State) (n : Nat), n = 0 ∨ Config.ipMax < n → exec (.fpip n) s = .refused (.illegalTermCount n)

/-- 41_fp_units.md R139: FPDEN.P on canonical operands; it raises NoInverse exactly when `b = p - 1`, whatever `a` is. -/
def Obligations.FpdenPReturnsTheQuotient : Prop :=
  encode .fpdenP = 0x00000012 ∧ ∀ (s : Machine.State) (a b : List Nat), UnitReady s → CanonicalPair s a b →
    (value s b ≠ s.cfg.fd.p - 1 → ∃ t : UnitResult, exec .fpdenP s = .next (answered .unit (.triple t) s) ∧
      value s t.res * (1 + value s b) % s.cfg.fd.p = value s a ∧ value s t.quot ≤ s.cfg.fd.p - 2 ∧
      UnitAnswer .denP s.cfg.fd [(a, b)] t) ∧
    (value s b = s.cfg.fd.p - 1 → exec .fpdenP s = .next (defected .unit .noInverse s))

/-- 41_fp_units.md R140: FPDEN.M on canonical operands; it raises NoInverse exactly when `b = 1`, whatever `a` is. -/
def Obligations.FpdenMReturnsTheQuotient : Prop :=
  encode .fpdenM = 0x00000112 ∧ ∀ (s : Machine.State) (a b : List Nat), UnitReady s → CanonicalPair s a b →
    (value s b ≠ 1 → ∃ t : UnitResult, exec .fpdenM s = .next (answered .unit (.triple t) s) ∧
      (value s t.res : Int) * (1 - value s b) % s.cfg.fd.p = value s a ∧ value s t.quot ≤ s.cfg.fd.p - 2 ∧
      UnitAnswer .denM s.cfg.fd [(a, b)] t) ∧
    (value s b = 1 → exec .fpdenM s = .next (defected .unit .noInverse s))

/-- 41_fp_units.md R131: the operand checks of the six unit commands, in order, before anything is computed. -/
def Obligations.UnitOperandChecksComeInOrder : Prop :=
  ∀ (s : Machine.State) (i : Instr) (vs : List (List Nat)), UnitReady s → i.wf = true → unitVectors i s = some vs →
    let fd := s.cfg.fd
    ((∃ v ∈ vs, v.length ≠ fd.numLimbs) → exec i s = .next (defected .unit .limbCountMismatch s)) ∧
    ((∀ v ∈ vs, v.length = fd.numLimbs) → (∃ v ∈ vs, ∃ x ∈ v, fd.base ≤ x) →
      exec i s = .next (defected .unit .limbOutOfRange s)) ∧
    ((∀ v ∈ vs, LimbVector fd v) → (∃ v ∈ vs, fd.p ≤ value s v) →
      exec i s = .next (defected .unit .nonCanonicalOperand s))

/-- 41_fp_units.md R134: the bounds of the positions, for all limbs in range, and of the carry witnesses populate
returns. -/
def Obligations.WitnessesStayInBounds : Prop :=
  ∀ (fd : FieldDesc) (op : UnitOp) (ins : List LimbPair), fd.unitOk = true → op.Fits ins →
    (∀ res quot, (∀ v ∈ vectorsOf ins, LimbVector fd v) → LimbVector fd res → LimbVector fd quot →
      ∀ j, j < 2 * fd.numLimbs - 1 → |op.positionAt fd ins res quot j| ≤ fd.sBound op.terms) ∧
    ∀ t, populate op fd ins = .ok t → ∀ x ∈ t.carry,
      |x| ≤ op.terms * fd.numLimbs * ((fd.base : Int) - 1) + 1 ∧ |x| < fd.tOff op.terms

/-- 41_fp_units.md R143: unit eval is the conjunction of (E1), (E2) and (E3) as the spec writes them, position by
position. -/
def Obligations.UnitEvalIsE1E2E3 : Prop :=
  ∀ (q : Nat) (fd : FieldDesc) (op : UnitOp) (ins : List LimbPair) (u : UnitCells),
    1 ≤ fd.numLimbs → op.Fits ins → (∀ v ∈ vectorsOf ins, v.length = fd.numLimbs) → u.Sized fd →
    (unitPasses q fd op ins u = true ↔ UnitConstraints q fd op ins u)

/-- 41_fp_units.md R141, R142: a carry witness stored mod `Q` reads back as itself when it is small. -/
def Obligations.CarryCellsReadBackSigned : Prop :=
  ∀ (q : Nat) (t : Int), 2 * |t| < q → carryCell q t < q ∧ signedCell q (carryCell q t) = t

/-- 41_fp_units.md R144: what populate returns passes unit eval. -/
def Obligations.PopulatePassesUnitEval : Prop :=
  ∀ (q : Nat) (fd : FieldDesc) (op : UnitOp) (ins : List LimbPair) (t : UnitResult), fd.unitOk = true → op.Fits ins →
    fd.sBound op.terms + fd.tOff op.terms * (fd.base + 1) < q →
    populate op fd ins = .ok t → unitPasses q fd op ins (t.toCells q) = true

/-- 41_fp_units.md R146: with `Q` above the bound, cells that pass unit eval meet the integer identity of R132. -/
def Obligations.UnitEvalForcesTheIntegerIdentity : Prop :=
  ∀ (q : Nat) (fd : FieldDesc) (op : UnitOp) (ins : List LimbPair) (u : UnitCells), fd.unitOk = true → op.Fits ins →
    fd.sBound op.terms + fd.tOff op.terms * (fd.base + 1) < q →
    (∀ v ∈ vectorsOf ins, LimbVector fd v) → u.Sized fd → unitPasses q fd op ins u = true →
    op.identity fd.p (ins.map (fun ab => (val fd.base ab.1, val fd.base ab.2))) (val fd.base u.result)
      (val fd.base u.quot) = 0

/-! ### EDADD -/

/-- 42_edadd.md R180 to R185: EDADD completes on canonical coordinates with invertible denominators; the sum by the
formulas of R183 stands over P, the clock has advanced by 48, one event is appended, and nothing else has changed. No
hypothesis keeps the regions apart (20_memory.md R60) or the points on the curve (R189). -/
def Obligations.EdaddWritesTheSumOverP : Prop :=
  ∀ (s : Machine.State), EdReady s → CanonicalCoords s → DenominatorsInvertible s →
    let p := s.cfg.fd.p
    let a := (pointerA s).toNat
    let (x1, y1, x2, y2) := coords s
    ∃ t e, exec .edadd s = .next t ∧
      t = { answered .guest .completed s with
            mem := t.mem, clk := s.clk + 48, mrb := [], logEd := s.logEd ++ [e] } ∧
      fieldAt t.mem a < p ∧ fieldAt t.mem (a + 32) < p ∧
      ((fieldAt t.mem a : Int) * (1 + dfOf s) - (x1 * y2 + x2 * y1)) % p = 0 ∧
      ((fieldAt t.mem (a + 32) : Int) * (1 - dfOf s) - (y1 * y2 + x1 * x2)) % p = 0 ∧
      ∀ b, b < a ∨ a + 64 ≤ b → t.mem.readByte b = s.mem.readByte b

/-- 42_edadd.md R186 (and R185, 20_memory.md R62): the event of a completed EDADD: pointers, words and the 48 records
with their addresses, clocks and values. -/
def Obligations.EdaddEmitsTheScheduleOfRecords : Prop :=
  ∀ (s t : Machine.State), exec .edadd s = .next t → t.fstat.kind = .none →
    ∃ e, t.logEd = s.logEd ++ [e] ∧ t.mrb = [] ∧ t.clk = s.clk + 48 ∧
      e.clock = s.clk ∧ e.pPtr = pointerA s ∧ e.qPtr = pointerB s ∧
      e.p = wordsAt s.mem (pointerA s) 16 ∧ e.q = wordsAt s.mem (pointerB s) 16 ∧
      e.pReadRecords = (List.range 16).map (fun i =>
        { address := regionAddr (pointerA s) i, clock := clockAt s.clk i
          priorValue := e.p.getD i 0, newValue := e.p.getD i 0 }) ∧
      e.qReadRecords = (List.range 16).map (fun i =>
        { address := regionAddr (pointerB s) i, clock := clockAt s.clk (16 + i)
          priorValue := e.q.getD i 0, newValue := e.q.getD i 0 }) ∧
      e.pWriteRecords = (List.range 16).map (fun i =>
        { address := regionAddr (pointerA s) i, clock := clockAt s.clk (32 + i)
          priorValue := e.p.getD i 0, newValue := t.mem.readWord ((pointerA s).toNat + 4 * i) })

/-- 42_edadd.md R187: the fault points of EDADD, in the order they can occur, and the state each leaves. -/
def Obligations.EdaddFaultPoints : Prop :=
  ∀ (s : Machine.State), EdOpen s → FitsIfAligned (pointerA s) 16 → FitsIfAligned (pointerB s) 16 →
    let okA := (pointerA s).toNat % 4 = 0
    let okB := (pointerB s).toNat % 4 = 0
    (¬ okA → exec .edadd s = .next (misaligned .guest (pointerA s) s)) ∧
    (okA → ¬ okB → exec .edadd s = .next (misaligned .guest (pointerB s) { s with clk := s.clk + 16 })) ∧
    (okA → okB → ¬ CanonicalCoords s →
      exec .edadd s = .next (defected .guest .nonCanonicalOperand { s with clk := s.clk + 32 })) ∧
    (okA → okB → CanonicalCoords s → ¬ DenominatorsInvertible s →
      exec .edadd s = .next (defected .guest .noInverse { s with clk := s.clk + 32 }))

/-- 42_edadd.md R180, 43_perm.md R222: exactly when a guest command is refused, before its first access, in an engine
with no fault. That a chip the engine does not have refuses is the model's choice (log 12). -/
def Obligations.GuestCommandsAreRefusedExactlyWhenTheSpecSays : Prop :=
  ∀ (s : Machine.State), s.fstat.kind = .none →
    ((∃ r, exec .edadd s = .refused r) ↔
      s.cfg.hasEd = false ∨ s.sealedEd = true ∨ 2 ^ 32 - 1 < s.clk.toNat + 48 ∨
      ((pointerA s).toNat % 4 = 0 ∧ 2 ^ 32 - 4 < (pointerA s).toNat + 60) ∨
      ((pointerB s).toNat % 4 = 0 ∧ 2 ^ 32 - 4 < (pointerB s).toNat + 60)) ∧
    ((∃ r, exec .perm s = .refused r) ↔
      s.cfg.hasPerm = false ∨ s.sealedPerm = true ∨ 2 ^ 32 - 1 < s.clk.toNat + 2 * s.cfg.permN * s.cfg.permRounds ∨
      ((pointerA s).toNat % 4 = 0 ∧ 2 ^ 32 - 4 < (pointerA s).toNat + 4 * (s.cfg.permN - 1)))

/-- 42_edadd.md R188: "execute(P, neutral_point) yields R = P bit-for-bit", and the event records `q` as the neutral
point's words. -/
def Obligations.EdaddWithTheNeutralPointKeepsP : Prop :=
  ∀ (s : Machine.State), EdReady s → fieldAt s.mem (pointerA s).toNat < s.cfg.fd.p →
    fieldAt s.mem ((pointerA s).toNat + 32) < s.cfg.fd.p →
    wordsAt s.mem (pointerB s) 16 = [0, 0, 0, 0, 0, 0, 0, 0, 1, 0, 0, 0, 0, 0, 0, 0] →
    ∃ t e, exec .edadd s = .next t ∧ t.fstat.kind = .none ∧ (∀ b, t.mem.readByte b = s.mem.readByte b) ∧
      t.logEd = s.logEd ++ [e] ∧ e.q = [0, 0, 0, 0, 0, 0, 0, 0, 1, 0, 0, 0, 0, 0, 0, 0]

/-- 42_edadd.md R188: for valid curve points the sum is on the curve. -/
def Obligations.EdaddStaysOnTheCurve : Prop :=
  ∀ (s : Machine.State), EdReady s → CanonicalCoords s → DenominatorsInvertible s →
    OnCurve s.cfg (coords s).1 (coords s).2.1 → OnCurve s.cfg (coords s).2.2.1 (coords s).2.2.2 →
    ∃ t, exec .edadd s = .next t ∧ t.fstat.kind = .none ∧
      OnCurve s.cfg (fieldAt t.mem (pointerA s).toNat) (fieldAt t.mem ((pointerA s).toNat + 32))

/-- 20_memory.md R63, R62: the records of one invocation of either chip are locally consistent, and record `k` carries
clock `c0 + k`. -/
def Obligations.InvocationRecordsAreLocallyConsistent : Prop :=
  (∀ (s t : Machine.State), exec .edadd s = .next t → t.fstat.kind = .none →
    ∃ e, t.logEd = s.logEd ++ [e] ∧
      let recs := e.pReadRecords ++ e.qReadRecords ++ e.pWriteRecords
      LocallyConsistent recs ∧ ∀ k r, recs[k]? = some r → r.clock.toNat = s.clk.toNat + k) ∧
  ∀ (s t : Machine.State), exec .perm s = .next t → t.fstat.kind = .none →
    ∃ e, t.logPerm = s.logPerm ++ [e] ∧
      LocallyConsistent (permRecords e) ∧ ∀ k r, (permRecords e)[k]? = some r → r.clock.toNat = s.clk.toNat + k

/-! ### PERM -/

/-- 43_perm.md R222, R224: PERM completes on canonical words; the state in memory is the output of the last round, the
clock has advanced by `2·N·R`, one event is appended, and nothing else has changed. -/
def Obligations.PermWritesTheLastRound : Prop :=
  ∀ (s : Machine.State), PermReady s →
    let n := s.cfg.permN
    let out := permStateAfter s.cfg (permWords s) s.cfg.permRounds
    ∃ t e, exec .perm s = .next t ∧
      t = { answered .guest .completed s with
            mem := t.mem
            clk := s.clk + BitVec.ofNat 32 (2 * n * s.cfg.permRounds)
            mrb := []
            logPerm := s.logPerm ++ [e] } ∧
      (∀ i, i < n → (t.mem.readWord ((pointerA s).toNat + 4 * i)).toNat = out.getD i 0) ∧
      ∀ b, b < (pointerA s).toNat ∨ (pointerA s).toNat + 4 * n ≤ b → t.mem.readByte b = s.mem.readByte b

/-- 43_perm.md R225, R222: the event of a completed PERM, record by record. -/
def Obligations.PermEmitsTheScheduleOfRecords : Prop :=
  ∀ (s t : Machine.State), exec .perm s = .next t → t.fstat.kind = .none →
    t.mrb = [] ∧ t.clk = s.clk + BitVec.ofNat 32 (2 * s.cfg.permN * s.cfg.permRounds) ∧
    t.logPerm = s.logPerm ++
      [{ clock := s.clk
         statePtr := pointerA s
         stateReads := permReadRecords s.cfg (pointerA s) s.clk (permWords s)
         stateWrites := permWriteRecords s.cfg (pointerA s) s.clk (permWords s) }]

/-- 43_perm.md R226: the fault points of PERM and the state each leaves. -/
def Obligations.PermFaultPoints : Prop :=
  ∀ (s : Machine.State), PermOpen s → FitsIfAligned (pointerA s) s.cfg.permN →
    ((pointerA s).toNat % 4 ≠ 0 → exec .perm s = .next (misaligned .guest (pointerA s) s)) ∧
    ((pointerA s).toNat % 4 = 0 → (∃ x ∈ permWords s, s.cfg.q ≤ x) →
      exec .perm s =
        .next (defected .guest .nonCanonicalOperand { s with clk := s.clk + BitVec.ofNat 32 s.cfg.permN }))

/-- 43_perm.md R227: PERM is a function of the pointer, the words there, the clock and the configuration: equal ones
give the same event, whatever else differs, `x[REG_B]` included. -/
def Obligations.PermIsDeterminedByItsInputs : Prop :=
  ∀ (s₁ s₂ t₁ t₂ : Machine.State), s₁.cfg = s₂.cfg → pointerA s₁ = pointerA s₂ → s₁.clk = s₂.clk →
    permWords s₁ = permWords s₂ → exec .perm s₁ = .next t₁ → exec .perm s₂ = .next t₂ →
    t₁.fstat.kind = t₂.fstat.kind ∧ (t₁.fstat.kind ≠ .none → t₁.fstat = t₂.fstat) ∧ t₁.clk = t₂.clk ∧
    (t₁.fstat.kind = .none → ∃ e, t₁.logPerm = s₁.logPerm ++ [e] ∧ t₂.logPerm = s₂.logPerm ++ [e])

/-- 43_perm.md R221: the round function gives `N` words of `[0, Q)`, by the default form when the configuration has
it. -/
def Obligations.PermRoundIsTotalIntoCells : Prop :=
  ∀ (c : Config) (r : Nat) (v : List Nat),
    (permRound c r v).length = c.permN ∧ (∀ x ∈ permRound c r v, x < c.q) ∧
    ∀ deg m rc, c.roundFn = .sboxLinear deg m rc → ∀ i, i < c.permN →
      (permRound c r v).getD i 0 =
        ((List.range c.permN).map (fun j =>
          (m.getD i []).getD j 0 * ((v.getD j 0 + (rc.getD r []).getD j 0) ^ deg % c.q))).sum % c.q

/-! ### Rows -/

/-- 20_memory.md R54: the conversions limb by limb and word by word, and that they are inverse. -/
def Obligations.WordsAndLimbsConvertBack : Prop :=
  ∀ (c : Config),
    (∀ ws : List Word, ws.length = 8 →
      (wordsToLimbs c ws).length = c.fd.numLimbs ∧
      (∀ j m, j < 8 → m < c.limbsPerWord → (wordsToLimbs c ws).getD (c.limbsPerWord * j + m) 0 =
        (ws.getD j 0).toNat / 2 ^ (c.fd.limbBits * m) % c.fd.base) ∧
      limbsToWords c 8 (wordsToLimbs c ws) = ws) ∧
    ∀ a : List Nat, LimbVector c.fd a →
      (∀ j, j < 8 → ((limbsToWords c 8 a).getD j 0).toNat =
        ((List.range c.limbsPerWord).map (fun m =>
          a.getD (c.limbsPerWord * j + m) 0 * 2 ^ (c.fd.limbBits * m))).sum) ∧
      wordsToLimbs c (limbsToWords c 8 a) = a

/-- 42_edadd.md R190, R191: a populated ED row has the chip's width, cells below `Q`, and at the offsets of R190 the
event's values and the units of the chain run again. -/
def Obligations.EdRowHoldsTheEventAtItsOffsets : Prop :=
  ∀ (c : Config) (e : EdAddEvent) (row : List Nat), e.p.length = 16 → e.q.length = 16 →
    e.pWriteRecords.length = 16 → edRow c e = .ok row →
    let new := e.pWriteRecords.map (·.newValue)
    row.length = c.edWidth ∧ (∀ x ∈ row, x < c.q) ∧
    ∃ ch r, edChain c (pointX c e.p) (pointY c e.p) (pointX c e.q) (pointY c e.q) = .ok ch ∧
      EdRow.ofCells c row = some r ∧
      r.clk = e.clock.toNat ∧ r.pPtr = e.pPtr.toNat ∧ r.qPtr = e.qPtr.toNat ∧
      r.xp = pointX c e.p ∧ r.yp = pointY c e.p ∧ r.xq = pointX c e.q ∧ r.yq = pointY c e.q ∧
      r.xn = pointX c new ∧ r.yn = pointY c new ∧
      r.x3num = ch.x3num.toCells c.q ∧ r.y3num = ch.y3num.toCells c.q ∧ r.g1 = ch.g1.toCells c.q ∧
      r.g2 = ch.g2.toCells c.q ∧ r.f = ch.f.toCells c.q ∧ r.df = ch.df.toCells c.q ∧
      r.x3 = ch.x3.toCells c.q ∧ r.y3 = ch.y3.toCells c.q

/-- 43_perm.md R228, R229: a populated PERM row has the chip's width, cells below `Q`, and the fields R229 gives. -/
def Obligations.PermRowHoldsTheRoundAtItsOffsets : Prop :=
  ∀ (c : Config) (e : PermEvent) (r : Nat) (row : List Nat), r < c.permRounds → permRow c e r = .ok row →
    let last := r + 1 = c.permRounds
    let inp := roundWord e.stateReads r
    let out := roundWord e.stateWrites r
    row.length = c.permWidth ∧ (∀ x ∈ row, x < c.q) ∧
    ∃ v, PermRow.ofCells c row = some v ∧
      v.clk = e.clock.toNat + 2 * c.permN * r ∧ v.statePtr = e.statePtr.toNat ∧ v.isExternal = 1 ∧
      (last → v.isFinalize = 1) ∧ (¬ last → v.isFinalize = 0) ∧
      v.roundSel = (List.range c.permRounds).map (fun k => if k = r then 1 else 0) ∧
      v.inp = (List.range c.permN).map inp ∧ v.out = (List.range c.permN).map out ∧
      ∀ i, i < c.permN → (last → (v.finOpd.getD i 0 : Int) = ((out i : Int) - inp i) % c.q) ∧
        (¬ last → v.finOpd.getD i 0 = 0)

/-- 42_edadd.md R194, 43_perm.md R234: the records a row stands for are the records of its event, or of its round. -/
def Obligations.RowsStandForTheRecords : Prop :=
  (∀ (c : Config) (e : EdAddEvent) (row : List Nat), e.Honest c → edRow c e = .ok row →
    ∃ r, EdRow.ofCells c row = some r ∧ r.records c = e.pReadRecords ++ e.qReadRecords ++ e.pWriteRecords) ∧
  ∀ (c : Config) (e : PermEvent) (k : Nat) (row : List Nat), e.Honest c → k < c.permRounds → permRow c e k = .ok row →
    ∃ r, PermRow.ofCells c row = some r ∧ r.records c = e.stateReads.getD k [] ++ e.stateWrites.getD k []

/-- 42_edadd.md R193: the all-zero row passes the ED chip's eval. -/
def Obligations.AllZeroEdRowPasses : Prop :=
  ∀ (c : Config), edVerdict c (List.replicate c.edWidth 0) = some true

/-- The soundness of the ED chip's constraints (derived: 42_edadd.md R192, 41_fp_units.md R146): on any row that passes,
the new P words satisfy the addition formulas mod `p` on the old P and Q words. -/
def Obligations.EdConstraintsForceTheSum : Prop :=
  ∀ (c : Config) (row : List Nat) (r : EdRow), c.hasEd = true → EdRow.ofCells c row = some r → evalEdRow c r = true →
    let v := val c.fd.base
    let df := edProduct c (v r.xp) (v r.yp) (v r.xq) (v r.yq)
    ((v r.xn : Int) * (1 + df) - (v r.xp * v r.yq + v r.xq * v r.yp)) % c.fd.p = 0 ∧
    ((v r.yn : Int) * (1 - df) - (v r.yp * v r.yq + v r.xp * v r.xq)) % c.fd.p = 0

/-! ### WIDTH, GENTRACE, EVAL -/

/-- 44_trace.md R260: WIDTH returns the chip's column count, from the configuration only, and changes nothing. -/
def Obligations.WidthReturnsTheColumnCount : Prop :=
  encode (.width .ed) = 0x00000030 ∧ encode (.width .perm) = 0x00000130 ∧
  ∀ (s : Machine.State), s.fstat.kind = .none →
    exec (.width .ed) s = .next (answered .host
      (.width (3 + 48 * (32 / s.cfg.fd.limbBits) + 8 * (4 * s.cfg.fd.numLimbs - 2))) s) ∧
    exec (.width .perm) s = .next (answered .host (.width (4 + s.cfg.permRounds + 3 * s.cfg.permN)) s)

/-- 44_trace.md R263: `pad_height(n)` is the smallest power of two that is at least `max(1, n)`. -/
def Obligations.PadHeightIsTheSmallestPowerOfTwo : Prop :=
  ∀ n, ∃ k, padHeight n = 2 ^ k ∧ max 1 n ≤ padHeight n ∧ ∀ j, max 1 n ≤ 2 ^ j → padHeight n ≤ 2 ^ j

/-- 44_trace.md R261: GENTRACE ED of a log of honest events that fit the cells: one row per event in log order, all-zero
rows up to the padded height, the seal set, the log kept and nothing else changed. -/
def Obligations.GentraceEdBuildsTheMatrix : Prop :=
  ∀ (s : Machine.State), s.fstat.kind = .none → s.cfg.hasEd = true → s.sealedEd = false →
    (∀ e ∈ s.logEd, e.Honest s.cfg ∧ EdEventFits s.cfg e) →
    ∃ m : Matrix, exec (.gentrace .ed) s =
        .next { answered .host (.matrix m) s with traceEd := some m, sealedEd := true } ∧
      m.length = padHeight s.logEd.length ∧
      (∀ (i : Nat) (e : EdAddEvent), s.logEd[i]? = some e →
        ∃ row : List Nat, edRow s.cfg e = .ok row ∧ m[i]? = some row) ∧
      ∀ i, s.logEd.length ≤ i → i < m.length → m[i]? = some (List.replicate s.cfg.edWidth 0)

/-- 44_trace.md R262: GENTRACE PERM: `R` consecutive rows per event, round 0 first, all-zero rows up to the padded
height of the row count. -/
def Obligations.GentracePermBuildsTheMatrix : Prop :=
  ∀ (s : Machine.State), s.fstat.kind = .none → s.cfg.hasPerm = true → s.sealedPerm = false →
    (∀ e ∈ s.logPerm, e.Honest s.cfg ∧ PermEventFits s.cfg e) →
    let rounds := s.cfg.permRounds
    ∃ m : Matrix, exec (.gentrace .perm) s =
        .next { answered .host (.matrix m) s with tracePerm := some m, sealedPerm := true } ∧
      m.length = padHeight (s.logPerm.length * rounds) ∧
      (∀ (k : Nat) (e : PermEvent) (r : Nat), s.logPerm[k]? = some e → r < rounds →
        ∃ row : List Nat, permRow s.cfg e r = .ok row ∧ m[k * rounds + r]? = some row) ∧
      ∀ i, s.logPerm.length * rounds ≤ i → i < m.length → m[i]? = some (List.replicate s.cfg.permWidth 0)

/-- 44_trace.md R265: a clock or pointer that does not fit a cell makes GENTRACE raise CellOverflow, never a reduced
value; no matrix and no seal (60_exceptions.md R298). -/
def Obligations.GentraceFaultsOnCellOverflow : Prop :=
  ∀ (s : Machine.State), s.fstat.kind = .none →
    (s.cfg.hasEd = true → s.sealedEd = false → (∀ e ∈ s.logEd, e.Honest s.cfg) →
      (∃ e ∈ s.logEd, ¬ EdEventFits s.cfg e) → exec (.gentrace .ed) s = .next (defected .host .cellOverflow s)) ∧
    (s.cfg.hasPerm = true → s.sealedPerm = false → (∀ e ∈ s.logPerm, e.Honest s.cfg) →
      (∃ e ∈ s.logPerm, ¬ PermEventFits s.cfg e) → exec (.gentrace .perm) s = .next (defected .host .cellOverflow s))

/-- 10_state.md R31, 44_trace.md R269: after GENTRACE of a chip its guest command and a second GENTRACE of it are
refused, the log is kept, and the other chip, WIDTH and EVAL are as available as before. -/
def Obligations.LogsAreConsumedOnce : Prop :=
  ∀ (s t : Machine.State),
    (exec (.gentrace .ed) s = .next t → t.fstat.kind = .none →
      exec .edadd t = .refused (.chipSealed .ed) ∧ exec (.gentrace .ed) t = .refused (.chipSealed .ed) ∧
      t.logEd = s.logEd ∧ t.sealedPerm = s.sealedPerm ∧ (∃ u, exec (.width .ed) t = .next u) ∧
      (∃ m, t.traceEd = some m ∧ ∀ i, i < m.length → ∃ u, exec (.eval .ed) (atRow t i) = .next u) ∧
      ((∃ u, exec .perm s = .next u) → ∃ u, exec .perm t = .next u) ∧
      ((∃ u, exec (.gentrace .perm) s = .next u) → ∃ u, exec (.gentrace .perm) t = .next u)) ∧
    (exec (.gentrace .perm) s = .next t → t.fstat.kind = .none →
      exec .perm t = .refused (.chipSealed .perm) ∧ exec (.gentrace .perm) t = .refused (.chipSealed .perm) ∧
      t.logPerm = s.logPerm ∧ t.sealedEd = s.sealedEd ∧ (∃ u, exec (.width .perm) t = .next u) ∧
      (∃ m, t.tracePerm = some m ∧ ∀ i, i < m.length → ∃ u, exec (.eval .perm) (atRow t i) = .next u) ∧
      ((∃ u, exec .edadd s = .next u) → ∃ u, exec .edadd t = .next u) ∧
      ((∃ u, exec (.gentrace .ed) s = .next u) → ∃ u, exec (.gentrace .ed) t = .next u))

/-- 44_trace.md R267, 42_edadd.md R192: EVAL ED on a row of the matrix returns whether (C1) to (C10) hold there, changes
no state and sets no fault (60_exceptions.md R293). -/
def Obligations.EvalEdReturnsTheConstraintVerdict : Prop :=
  ∀ (s : Machine.State) (m : Matrix) (cur : List Nat), s.fstat.kind = .none → s.cfg.hasEd = true →
    s.traceEd = some m → m[s.operands.row]? = some cur → cur.length = s.cfg.edWidth →
    ∃ b r, EdRow.ofCells s.cfg cur = some r ∧ exec (.eval .ed) s = .next (answered .host (.verdict b) s) ∧
      (b = true ↔ EdConstraints s.cfg r)

/-- 44_trace.md R267, 43_perm.md R231 to R233: EVAL PERM on a window of the matrix returns whether (P1) to (P6) hold,
(T1) to (T6) unless the row is the last, and the first-row constraint if it is row 0; it changes no state. -/
def Obligations.EvalPermReturnsTheConstraintVerdict : Prop :=
  ∀ (s : Machine.State) (m : Matrix) (cur next : List Nat), s.fstat.kind = .none → s.cfg.hasPerm = true →
    s.tracePerm = some m → m[s.operands.row]? = some cur →
    (s.operands.row + 1 < m.length → m[s.operands.row + 1]? = some next) →
    (¬ s.operands.row + 1 < m.length → next = cur) →
    cur.length = s.cfg.permWidth → next.length = s.cfg.permWidth →
    ∃ b r n, PermRow.ofCells s.cfg cur = some r ∧ PermRow.ofCells s.cfg next = some n ∧
      exec (.eval .perm) s = .next (answered .host (.verdict b) s) ∧
      (b = true ↔ PermRowConstraints s.cfg r ∧
        (s.operands.row + 1 < m.length → PermTransitionConstraints s.cfg r n) ∧
        (s.operands.row = 0 → PermFirstRowConstraints s.cfg r))

/-- 44_trace.md R267: EVAL of a chip with no matrix, or at an index that is not below the height, is refused; and (the
model's choice, log 12) so are GENTRACE and EVAL of a chip the engine does not have. -/
def Obligations.EvalIsRefusedWithoutARow : Prop :=
  ∀ (s : Machine.State), s.fstat.kind = .none →
    (s.cfg.hasEd = false →
      exec (.gentrace .ed) s = .refused (.chipAbsent .ed) ∧ exec (.eval .ed) s = .refused (.chipAbsent .ed)) ∧
    (s.cfg.hasPerm = false →
      exec (.gentrace .perm) s = .refused (.chipAbsent .perm) ∧ exec (.eval .perm) s = .refused (.chipAbsent .perm)) ∧
    (s.cfg.hasEd = true → s.traceEd = none → exec (.eval .ed) s = .refused (.noTrace .ed)) ∧
    (s.cfg.hasPerm = true → s.tracePerm = none → exec (.eval .perm) s = .refused (.noTrace .perm)) ∧
    (∀ m, s.cfg.hasEd = true → s.traceEd = some m → m.length ≤ s.operands.row →
      exec (.eval .ed) s = .refused (.rowIndexOutOfRange s.operands.row)) ∧
    ∀ m, s.cfg.hasPerm = true → s.tracePerm = some m → m.length ≤ s.operands.row →
      exec (.eval .perm) s = .refused (.rowIndexOutOfRange s.operands.row)

/-- 43_perm.md R235, 41_fp_units.md R144, 44_trace.md R267: from every state that meets the invariant, the traces of both
chips are accepted: every EVAL that answers, answers `true`. -/
def Obligations.HonestTracesAreAccepted : Prop :=
  ∀ (s t : Machine.State) (chip : Chip), s.Inv → exec (.eval chip) s = .next t →
    t.result = some { port := .host, response := .verdict true }

/-! ### The configuration -/

/-- 00_scope.md R10, 70_reset_and_hazards.md R331: the configuration of every engine, in every state, meets the clauses
(a) to (h); parameters that do not make no engine, and those that do make one. Which chips an engine has, so of which
(g) and (h) are asked, is a parameter (log 12). -/
def Obligations.EveryEngineHasAWellFormedConfiguration : Prop :=
  (∀ (s : Machine.State), let c := s.cfg
    c.fd.numLimbs * c.fd.limbBits = 256 ∧
    c.fd.limbBits ∣ 32 ∧ 1 ≤ c.fd.limbBits ∧ c.fd.limbBits ≤ 16 ∧
    c.fd.p.Prime ∧ c.fd.p % 2 = 1 ∧ 2 * c.fd.p ≤ 2 ^ 256 ∧
    c.edD < c.fd.p ∧
    c.q.Prime ∧
    1 ≤ c.permN ∧ 1 ≤ c.permRounds ∧
    (∀ r v, (permRound c r v).length = c.permN ∧ ∀ x ∈ permRound c r v, x < c.q) ∧
    (c.hasEd = true → let b := 2 ^ c.fd.limbBits
      (2 * c.fd.numLimbs * (b - 1) ^ 2 + (b - 1)) + 2 * c.fd.numLimbs * b * (b + 1) < c.q) ∧
    (c.hasPerm = true → c.q ≤ 2 ^ 32)) ∧
  ∀ (c : Params) (x₀ : Regs) (m₀ : Memory) (k₀ : Word),
    c.WellFormed ↔ ∃ cfg : Config, cfg.toParams = c ∧ (Machine.State.launch cfg x₀ m₀ k₀).cfg = cfg
end

