-- ==== Sys2Proof/Laws/State.lean ====
section
/-! SUPPORT. One lemma per field for each named update of the state, so that no later proof unfolds one. -/

namespace Sys2Proof.Machine

@[simp] theorem respond_cfg (port : Port) (r : Response) (s : State) : (respond port r s).cfg = s.cfg := rfl
@[simp] theorem respond_x (port : Port) (r : Response) (s : State) : (respond port r s).x = s.x := rfl
@[simp] theorem respond_mem (port : Port) (r : Response) (s : State) : (respond port r s).mem = s.mem := rfl
@[simp] theorem respond_clk (port : Port) (r : Response) (s : State) : (respond port r s).clk = s.clk := rfl
@[simp] theorem respond_mrb (port : Port) (r : Response) (s : State) : (respond port r s).mrb = s.mrb := rfl
@[simp] theorem respond_logEd (port : Port) (r : Response) (s : State) : (respond port r s).logEd = s.logEd := rfl
@[simp] theorem respond_logPerm (port : Port) (r : Response) (s : State) : (respond port r s).logPerm = s.logPerm := rfl
@[simp] theorem respond_sealedEd (port : Port) (r : Response) (s : State) : (respond port r s).sealedEd = s.sealedEd := rfl
@[simp] theorem respond_sealedPerm (port : Port) (r : Response) (s : State) : (respond port r s).sealedPerm = s.sealedPerm := rfl
@[simp] theorem respond_fstat (port : Port) (r : Response) (s : State) : (respond port r s).fstat = s.fstat := rfl
@[simp] theorem respond_traceEd (port : Port) (r : Response) (s : State) : (respond port r s).traceEd = s.traceEd := rfl
@[simp] theorem respond_tracePerm (port : Port) (r : Response) (s : State) : (respond port r s).tracePerm = s.tracePerm := rfl
@[simp] theorem respond_operands (port : Port) (r : Response) (s : State) : (respond port r s).operands = s.operands := rfl
@[simp] theorem respond_result (port : Port) (r : Response) (s : State) : (respond port r s).result = some { port := port, response := r } := rfl
@[simp] theorem respond_inputs (port : Port) (r : Response) (s : State) : (respond port r s).inputs = s.inputs := rfl

@[simp] theorem takeFault_cfg (port : Port) (f : Fault) (s : State) : (takeFault port f s).cfg = s.cfg := rfl
@[simp] theorem takeFault_x (port : Port) (f : Fault) (s : State) : (takeFault port f s).x = s.x := rfl
@[simp] theorem takeFault_mem (port : Port) (f : Fault) (s : State) : (takeFault port f s).mem = s.mem := rfl
@[simp] theorem takeFault_clk (port : Port) (f : Fault) (s : State) : (takeFault port f s).clk = s.clk := rfl
@[simp] theorem takeFault_mrb (port : Port) (f : Fault) (s : State) : (takeFault port f s).mrb = [] := rfl
@[simp] theorem takeFault_logEd (port : Port) (f : Fault) (s : State) : (takeFault port f s).logEd = s.logEd := rfl
@[simp] theorem takeFault_logPerm (port : Port) (f : Fault) (s : State) : (takeFault port f s).logPerm = s.logPerm := rfl
@[simp] theorem takeFault_sealedEd (port : Port) (f : Fault) (s : State) : (takeFault port f s).sealedEd = s.sealedEd := rfl
@[simp] theorem takeFault_sealedPerm (port : Port) (f : Fault) (s : State) : (takeFault port f s).sealedPerm = s.sealedPerm := rfl
@[simp] theorem takeFault_fstat (port : Port) (f : Fault) (s : State) : (takeFault port f s).fstat = FStat.ofFault f := rfl
@[simp] theorem takeFault_traceEd (port : Port) (f : Fault) (s : State) : (takeFault port f s).traceEd = s.traceEd := rfl
@[simp] theorem takeFault_tracePerm (port : Port) (f : Fault) (s : State) : (takeFault port f s).tracePerm = s.tracePerm := rfl
@[simp] theorem takeFault_operands (port : Port) (f : Fault) (s : State) : (takeFault port f s).operands = s.operands := rfl
@[simp] theorem takeFault_result (port : Port) (f : Fault) (s : State) : (takeFault port f s).result = some { port := port, response := .faulted f } := rfl
@[simp] theorem takeFault_inputs (port : Port) (f : Fault) (s : State) : (takeFault port f s).inputs = s.inputs := rfl

@[simp] theorem tick_cfg (s : State) : (tick s).cfg = s.cfg := rfl
@[simp] theorem tick_x (s : State) : (tick s).x = s.x := rfl
@[simp] theorem tick_mem (s : State) : (tick s).mem = s.mem := rfl
@[simp] theorem tick_clk (s : State) : (tick s).clk = s.clk + 1 := rfl
@[simp] theorem tick_mrb (s : State) : (tick s).mrb = s.mrb := rfl
@[simp] theorem tick_logEd (s : State) : (tick s).logEd = s.logEd := rfl
@[simp] theorem tick_logPerm (s : State) : (tick s).logPerm = s.logPerm := rfl
@[simp] theorem tick_sealedEd (s : State) : (tick s).sealedEd = s.sealedEd := rfl
@[simp] theorem tick_sealedPerm (s : State) : (tick s).sealedPerm = s.sealedPerm := rfl
@[simp] theorem tick_fstat (s : State) : (tick s).fstat = s.fstat := rfl
@[simp] theorem tick_traceEd (s : State) : (tick s).traceEd = s.traceEd := rfl
@[simp] theorem tick_tracePerm (s : State) : (tick s).tracePerm = s.tracePerm := rfl
@[simp] theorem tick_operands (s : State) : (tick s).operands = s.operands := rfl
@[simp] theorem tick_result (s : State) : (tick s).result = s.result := rfl
@[simp] theorem tick_inputs (s : State) : (tick s).inputs = s.inputs := rfl

@[simp] theorem resetEngine_cfg (s : State) : (resetEngine s).cfg = s.cfg := rfl
@[simp] theorem resetEngine_x (s : State) : (resetEngine s).x = s.x := rfl
@[simp] theorem resetEngine_mem (s : State) : (resetEngine s).mem = s.mem := rfl
@[simp] theorem resetEngine_clk (s : State) : (resetEngine s).clk = s.clk := rfl
@[simp] theorem resetEngine_mrb (s : State) : (resetEngine s).mrb = [] := rfl
@[simp] theorem resetEngine_logEd (s : State) : (resetEngine s).logEd = [] := rfl
@[simp] theorem resetEngine_logPerm (s : State) : (resetEngine s).logPerm = [] := rfl
@[simp] theorem resetEngine_sealedEd (s : State) : (resetEngine s).sealedEd = false := rfl
@[simp] theorem resetEngine_sealedPerm (s : State) : (resetEngine s).sealedPerm = false := rfl
@[simp] theorem resetEngine_fstat (s : State) : (resetEngine s).fstat = FStat.clear := rfl
@[simp] theorem resetEngine_traceEd (s : State) : (resetEngine s).traceEd = none := rfl
@[simp] theorem resetEngine_tracePerm (s : State) : (resetEngine s).tracePerm = none := rfl
@[simp] theorem resetEngine_operands (s : State) : (resetEngine s).operands = Operands.initial s.cfg := rfl
@[simp] theorem resetEngine_result (s : State) : (resetEngine s).result = none := rfl
@[simp] theorem resetEngine_inputs (s : State) : (resetEngine s).inputs = s.inputs := rfl

@[simp] theorem launch_cfg (c : Config) (x0 : Regs) (mem0 : Memory) (clk0 : Word) : (State.launch c x0 mem0 clk0).cfg = c := rfl
@[simp] theorem launch_x (c : Config) (x0 : Regs) (mem0 : Memory) (clk0 : Word) : (State.launch c x0 mem0 clk0).x = x0 := rfl
@[simp] theorem launch_mem (c : Config) (x0 : Regs) (mem0 : Memory) (clk0 : Word) : (State.launch c x0 mem0 clk0).mem = mem0 := rfl
@[simp] theorem launch_clk (c : Config) (x0 : Regs) (mem0 : Memory) (clk0 : Word) : (State.launch c x0 mem0 clk0).clk = clk0 := rfl
@[simp] theorem launch_mrb (c : Config) (x0 : Regs) (mem0 : Memory) (clk0 : Word) : (State.launch c x0 mem0 clk0).mrb = [] := rfl
@[simp] theorem launch_logEd (c : Config) (x0 : Regs) (mem0 : Memory) (clk0 : Word) : (State.launch c x0 mem0 clk0).logEd = [] := rfl
@[simp] theorem launch_logPerm (c : Config) (x0 : Regs) (mem0 : Memory) (clk0 : Word) : (State.launch c x0 mem0 clk0).logPerm = [] := rfl
@[simp] theorem launch_sealedEd (c : Config) (x0 : Regs) (mem0 : Memory) (clk0 : Word) : (State.launch c x0 mem0 clk0).sealedEd = false := rfl
@[simp] theorem launch_sealedPerm (c : Config) (x0 : Regs) (mem0 : Memory) (clk0 : Word) : (State.launch c x0 mem0 clk0).sealedPerm = false := rfl
@[simp] theorem launch_fstat (c : Config) (x0 : Regs) (mem0 : Memory) (clk0 : Word) : (State.launch c x0 mem0 clk0).fstat = FStat.clear := rfl
@[simp] theorem launch_traceEd (c : Config) (x0 : Regs) (mem0 : Memory) (clk0 : Word) : (State.launch c x0 mem0 clk0).traceEd = none := rfl
@[simp] theorem launch_tracePerm (c : Config) (x0 : Regs) (mem0 : Memory) (clk0 : Word) : (State.launch c x0 mem0 clk0).tracePerm = none := rfl
@[simp] theorem launch_operands (c : Config) (x0 : Regs) (mem0 : Memory) (clk0 : Word) : (State.launch c x0 mem0 clk0).operands = Operands.initial c := rfl
@[simp] theorem launch_result (c : Config) (x0 : Regs) (mem0 : Memory) (clk0 : Word) : (State.launch c x0 mem0 clk0).result = none := rfl
@[simp] theorem launch_inputs (c : Config) (x0 : Regs) (mem0 : Memory) (clk0 : Word) : (State.launch c x0 mem0 clk0).inputs = [] := rfl

@[simp] theorem FStat.ofFault_kind_ne_none (f : Fault) : (FStat.ofFault f).kind ≠ .none := by
  cases f <;> simp [FStat.ofFault]

end Sys2Proof.Machine
end

