-- ==== Sys2Proof/Laws/Memory.lean ====
section
/-! SUPPORT. The laws of the sparse maps, and of memory and registers built on them: what a read gives after a write,
and that every write keeps the canonical form. -/

namespace Sys2Proof.Machine

section Maps

variable {α : Type} (d : α)

theorem lookup_insertEntry_same (a : Nat) (v : α) (m : List (Nat × α)) (h : ∀ e ∈ m, e.1 ≠ a) :
    lookup d (insertEntry a v m) a = v := by
  induction m with
  | nil => simp [insertEntry, lookup]
  | cons e rest ih =>
    obtain ⟨k, w⟩ := e
    have hk : k ≠ a := h (k, w) (by simp)
    unfold insertEntry
    split
    · simp [lookup]
    · simp [lookup, hk, ih (fun e he => h e (by simp [he]))]

theorem lookup_insertEntry_other (a b : Nat) (v : α) (m : List (Nat × α)) (h : b ≠ a) :
    lookup d (insertEntry a v m) b = lookup d m b := by
  induction m with
  | nil => simp [insertEntry, lookup, h.symm]
  | cons e rest ih =>
    obtain ⟨k, w⟩ := e
    unfold insertEntry
    split
    · simp [lookup, h.symm]
    · simp [lookup, ih]

theorem lookup_without_other (a b : Nat) (m : List (Nat × α)) (h : b ≠ a) :
    lookup d (m.filter (fun e => decide (e.1 ≠ a))) b = lookup d m b := by
  induction m with
  | nil => rfl
  | cons e rest ih =>
    obtain ⟨k, w⟩ := e
    by_cases hk : k = a
    · subst hk; simpa [List.filter_cons, lookup, h.symm] using ih
    · simp only [ne_eq, decide_not, hk, List.filter_cons_of_pos, lookup,
        Bool.not_false, decide_false]
      simp only [ne_eq, decide_not] at ih
      rw [ih]

theorem lookup_absent (a : Nat) (m : List (Nat × α)) (h : ∀ e ∈ m, e.1 ≠ a) : lookup d m a = d := by
  induction m with
  | nil => rfl
  | cons e rest ih =>
    have := h e (by simp)
    simp [lookup, this, ih (fun e he => h e (by simp [he]))]

variable [DecidableEq α]

/-- A write is seen at its key. -/
theorem lookup_update_same (m : List (Nat × α)) (a : Nat) (v : α) : lookup d (update d m a v) a = v := by
  have hne : ∀ e ∈ m.filter (fun e => decide (e.1 ≠ a)), e.1 ≠ a := by
    intro e he; simpa using (List.mem_filter.mp he).2
  unfold update
  split
  · rename_i h; rw [lookup_absent d a _ hne, h]
  · exact lookup_insertEntry_same d a v _ hne

/-- A write leaves every other key alone. -/
theorem lookup_update_other (m : List (Nat × α)) (a b : Nat) (v : α) (h : b ≠ a) :
    lookup d (update d m a v) b = lookup d m b := by
  unfold update
  split
  · exact lookup_without_other d a b m h
  · rw [lookup_insertEntry_other d a b v _ h, lookup_without_other d a b m h]

theorem mem_insertEntry (a : Nat) (v : α) (m : List (Nat × α)) (e : Nat × α) :
    e ∈ insertEntry a v m ↔ e = (a, v) ∨ e ∈ m := by
  induction m with
  | nil => simp [insertEntry]
  | cons f rest ih =>
    unfold insertEntry
    split
    · simp
    · simp only [List.mem_cons, ih]; tauto

theorem pairwise_insertEntry (a : Nat) (v : α) (m : List (Nat × α)) (h : m.Pairwise (fun e f => e.1 < f.1))
    (hne : ∀ e ∈ m, e.1 ≠ a) : (insertEntry a v m).Pairwise (fun e f => e.1 < f.1) := by
  induction m with
  | nil => simp [insertEntry]
  | cons f rest ih =>
    obtain ⟨k, w⟩ := f
    have hk : k ≠ a := hne (k, w) (by simp)
    rw [List.pairwise_cons] at h
    unfold insertEntry
    split
    · rename_i hlt
      refine List.pairwise_cons.mpr ⟨?_, List.pairwise_cons.mpr h⟩
      intro e he
      rcases List.mem_cons.mp he with rfl | he
      · exact hlt
      · exact lt_trans hlt (h.1 e he)
    · rename_i hlt
      refine List.pairwise_cons.mpr ⟨?_, ih h.2 (fun e he => hne e (by simp [he]))⟩
      intro e he
      rcases (mem_insertEntry a v rest e).mp he with rfl | he
      · simp only; omega
      · exact h.1 e he

theorem pairwise_update (m : List (Nat × α)) (a : Nat) (v : α) (h : m.Pairwise (fun e f => e.1 < f.1)) :
    (update d m a v).Pairwise (fun e f => e.1 < f.1) := by
  have hf := h.filter (fun e => decide (e.1 ≠ a))
  unfold update
  split
  · exact hf
  · exact pairwise_insertEntry a v _ hf (fun e he => by simpa using (List.mem_filter.mp he).2)

/-- Every entry of an updated map is the new one, with a value worth listing, or an old one. -/
theorem mem_update (m : List (Nat × α)) (a : Nat) (v : α) (e : Nat × α) (h : e ∈ update d m a v) :
    (e = (a, v) ∧ v ≠ d) ∨ e ∈ m := by
  unfold update at h
  split at h
  · exact .inr (List.mem_filter.mp h).1
  · rename_i hv
    rcases (mem_insertEntry a v _ e).mp h with rfl | h
    · exact .inl ⟨rfl, hv⟩
    · exact .inr (List.mem_filter.mp h).1

theorem canonical_iff (bound : Nat) (m : List (Nat × α)) :
    canonical d bound m = true ↔ m.Pairwise (fun e f => e.1 < f.1) ∧ ∀ e ∈ m, e.1 < bound ∧ e.2 ≠ d := by
  simp [canonical]

/-- A write at a key below the bound keeps the canonical form. -/
theorem canonical_update (bound : Nat) (m : List (Nat × α)) (a : Nat) (v : α) (h : canonical d bound m = true)
    (ha : a < bound) : canonical d bound (update d m a v) = true := by
  rw [canonical_iff] at h ⊢
  refine ⟨pairwise_update d m a v h.1, fun e he => ?_⟩
  rcases mem_update d m a v e he with ⟨rfl, hv⟩ | he
  · exact ⟨ha, hv⟩
  · exact h.2 e he

/-- Two maps in canonical form that read alike are the same list. -/
theorem canonical_ext (bound : Nat) (m n : List (Nat × α)) (hm : canonical d bound m = true)
    (hn : canonical d bound n = true) (h : ∀ a, lookup d m a = lookup d n a) : m = n := by
  rw [canonical_iff] at hm hn
  obtain ⟨pm, vm⟩ := hm
  obtain ⟨pn, vn⟩ := hn
  induction m generalizing n with
  | nil =>
    cases n with
    | nil => rfl
    | cons f rest =>
      exfalso
      have := h f.1
      simp only [lookup, if_true] at this
      exact (vn f (by simp)).2 this.symm
  | cons e m ih =>
    cases n with
    | nil =>
      exfalso
      have := h e.1
      simp only [lookup, if_true] at this
      exact (vm e (by simp)).2 this
    | cons f n =>
      rw [List.pairwise_cons] at pm pn
      have low : ∀ (e : Nat × α) (l : List (Nat × α)), (∀ g ∈ l, e.1 < g.1) → ∀ a, a ≤ e.1 → lookup d l a = d :=
        fun e l hl a ha => lookup_absent d a l (fun g hg => by have := hl g hg; omega)
      have he := h e.1
      have hf := h f.1
      simp only [lookup, if_true] at he hf
      have key : e.1 = f.1 := by
        rcases Nat.lt_trichotomy e.1 f.1 with hlt | heq | hgt
        · rw [if_neg (by omega), low f n pn.1 e.1 (by omega)] at he
          exact absurd he (vm e (by simp)).2
        · exact heq
        · rw [if_neg (by omega), low e m pm.1 f.1 (by omega)] at hf
          exact absurd hf.symm (vn f (by simp)).2
      rw [if_pos key.symm] at he
      have hef : e = f := Prod.ext key he
      subst hef
      rw [ih n (fun a => ?_) pm.2 (fun g hg => vm g (by simp [hg])) pn.2 (fun g hg => vn g (by simp [hg]))]
      by_cases ha : a ≤ e.1
      · rw [low e m pm.1 a ha, low e n pn.1 a ha]
      · have := h a
        simpa [lookup, show e.1 ≠ a by omega] using this

end Maps

namespace Regs

@[simp] theorem read_write_same (x : Regs) (id : Nat) (v : Word) : (x.write id v).read id = v :=
  lookup_update_same 0 x id v

theorem read_write_other (x : Regs) (id other : Nat) (v : Word) (h : other ≠ id) :
    (x.write id v).read other = x.read other := lookup_update_other 0 x id other v h

theorem wf_iff (x : Regs) : x.wf = true ↔ x.Pairwise (fun e f => e.1 < f.1) ∧ ∀ e ∈ x, e.2 ≠ 0 := by
  simp [wf]

theorem wf_write (x : Regs) (id : Nat) (v : Word) (h : x.wf = true) : (x.write id v).wf = true := by
  rw [wf_iff] at h ⊢
  refine ⟨pairwise_update 0 x id v h.1, fun e he => ?_⟩
  rcases mem_update 0 x id v e he with ⟨rfl, hv⟩ | he
  · exact hv
  · exact h.2 e he

end Regs

namespace Memory

@[simp] theorem readByte_writeByte_same (m : Memory) (a : Nat) (b : Byte) : (m.writeByte a b).readByte a = b :=
  lookup_update_same _ m a b

theorem readByte_writeByte_other (m : Memory) (a c : Nat) (b : Byte) (h : c ≠ a) :
    (m.writeByte a b).readByte c = m.readByte c := lookup_update_other _ m a c b h

theorem wf_writeByte (m : Memory) (a : Nat) (b : Byte) (h : m.wf = true) (ha : a < 2 ^ 32) :
    (m.writeByte a b).wf = true := canonical_update _ _ m a b h ha

/-- A word write changes its four bytes only. -/
theorem readByte_writeWord_outside (m : Memory) (a b : Nat) (v : Word) (h : b < a ∨ a + 4 ≤ b) :
    (m.writeWord a v).readByte b = m.readByte b := by
  unfold writeWord
  rw [readByte_writeByte_other _ _ _ _ (by omega), readByte_writeByte_other _ _ _ _ (by omega),
    readByte_writeByte_other _ _ _ _ (by omega), readByte_writeByte_other _ _ _ _ (by omega)]

/-- A word reads back as written. -/
@[simp] theorem readWord_writeWord_same (m : Memory) (a : Nat) (v : Word) : (m.writeWord a v).readWord a = v := by
  have h0 : (m.writeWord a v).readByte a = v.extractLsb' 0 8 := by
    unfold writeWord
    rw [readByte_writeByte_other _ _ _ _ (by omega), readByte_writeByte_other _ _ _ _ (by omega),
      readByte_writeByte_other _ _ _ _ (by omega), readByte_writeByte_same]
  have h1 : (m.writeWord a v).readByte (a + 1) = v.extractLsb' 8 8 := by
    unfold writeWord
    rw [readByte_writeByte_other _ _ _ _ (by omega), readByte_writeByte_other _ _ _ _ (by omega),
      readByte_writeByte_same]
  have h2 : (m.writeWord a v).readByte (a + 2) = v.extractLsb' 16 8 := by
    unfold writeWord
    rw [readByte_writeByte_other _ _ _ _ (by omega), readByte_writeByte_same]
  have h3 : (m.writeWord a v).readByte (a + 3) = v.extractLsb' 24 8 := by
    unfold writeWord
    rw [readByte_writeByte_same]
  unfold readWord
  rw [h0, h1, h2, h3]
  ext i hi
  simp only [BitVec.getElem_append, BitVec.getElem_extractLsb', Nat.zero_add]
  split
  · rw [BitVec.getLsbD_eq_getElem hi]
  · split
    · simp only [show 8 + (i - 8) = i by omega, BitVec.getLsbD_eq_getElem hi]
    · split
      · simp only [show 16 + (i - 8 - 8) = i by omega, BitVec.getLsbD_eq_getElem hi]
      · simp only [show 24 + (i - 8 - 8 - 8) = i by omega, BitVec.getLsbD_eq_getElem hi]

/-- A word write leaves every word that shares no byte with it alone. -/
theorem readWord_writeWord_disjoint (m : Memory) (a b : Nat) (v : Word) (h : b + 4 ≤ a ∨ a + 4 ≤ b) :
    (m.writeWord a v).readWord b = m.readWord b := by
  unfold readWord
  rw [readByte_writeWord_outside _ _ _ _ (by omega), readByte_writeWord_outside _ _ _ _ (by omega),
    readByte_writeWord_outside _ _ _ _ (by omega), readByte_writeWord_outside _ _ _ _ (by omega)]

/-- A word write inside the address space keeps the canonical form. -/
theorem wf_writeWord (m : Memory) (a : Nat) (v : Word) (h : m.wf = true) (ha : a + 3 < 2 ^ 32) :
    (m.writeWord a v).wf = true :=
  wf_writeByte _ _ _ (wf_writeByte _ _ _ (wf_writeByte _ _ _ (wf_writeByte _ _ _ h (by omega)) (by omega))
    (by omega)) ha

/-- Two memories in canonical form that read alike are the same. -/
theorem ext_of_wf (m n : Memory) (hm : m.wf = true) (hn : n.wf = true) (h : ∀ a, m.readByte a = n.readByte a) :
    m = n := canonical_ext _ _ m n hm hn h

end Memory

end Sys2Proof.Machine
end

