-- ==== Sys2Proof/Laws/Access.lean ====
section
/-! SUPPORT. What the recorded accesses do, said once: a single read or write, a run of reads, a run of writes, and the
end of a command. -/

namespace Sys2Proof.Machine

/-! ### Aligned addresses -/

theorem aligned_iff (a : Word) : aligned a = true ↔ a.toNat % 4 = 0 := by simp [aligned]

/-- Word `i` of a run of accesses: `base + 4·i` as a 32-bit address. -/
def wordAddr (base : Word) (i : Nat) : Word := base + BitVec.ofNat 32 (4 * i)

@[simp] theorem wordAddr_zero (a : Word) : wordAddr a 0 = a := by simp [wordAddr]

/-- `c + 1` ticks on to `c + (n + 1)`. -/
theorem add_one_add_ofNat (c : Word) (n : Nat) : c + 1 + BitVec.ofNat 32 n = c + BitVec.ofNat 32 (n + 1) := by
  rw [BitVec.add_assoc, BitVec.add_comm 1, BitVec.ofNat_add]
  rfl

theorem wordAddr_succ (a : Word) (i : Nat) : wordAddr (a + 4) i = wordAddr a (i + 1) := by
  unfold wordAddr
  rw [show 4 * (i + 1) = 4 * i + 4 by omega, BitVec.add_assoc, BitVec.add_comm 4, BitVec.ofNat_add]
  rfl

theorem toNat_wordAddr (a : Word) (i : Nat) (h : a.toNat + 4 * i < 2 ^ 32) :
    (wordAddr a i).toNat = a.toNat + 4 * i := by
  simp only [wordAddr, BitVec.toNat_add, BitVec.toNat_ofNat]
  omega

theorem aligned_add_four (a : Word) : aligned (a + 4) = aligned a := by
  rw [Bool.eq_iff_iff, aligned_iff, aligned_iff, BitVec.toNat_add]
  have : (4 : Word).toNat = 4 := rfl
  omega

/-! ### One access -/

/-- The record of a read of `addr`. -/
def readRecord (m : Memory) (addr clock : Word) : MemoryRecord :=
  { address := addr, clock := clock, priorValue := m.readWord addr.toNat, newValue := m.readWord addr.toNat }

/-- The record of a write of `v` at `addr`. -/
def writeRecord (m : Memory) (addr clock v : Word) : MemoryRecord :=
  { address := addr, clock := clock, priorValue := m.readWord addr.toNat, newValue := v }

theorem mrRead_aligned (a : Word) (s : State) (h : aligned a = true) :
    mrRead a s = .ok (readRecord s.mem a s.clk) { s with mrb := s.mrb ++ [readRecord s.mem a s.clk] } := by
  simp [mrRead, h, readRecord]

theorem mrRead_misaligned (a : Word) (s : State) (h : aligned a = false) :
    mrRead a s = .fault (.alignmentError a) s := by
  simp [mrRead, h]

theorem mrWrite_aligned (a v : Word) (s : State) (h : aligned a = true) :
    mrWrite a v s = .ok (writeRecord s.mem a s.clk v)
      { s with mem := s.mem.writeWord a.toNat v, mrb := s.mrb ++ [writeRecord s.mem a s.clk v] } := by
  simp [mrWrite, h, writeRecord]

theorem mrWrite_misaligned (a v : Word) (s : State) (h : aligned a = false) :
    mrWrite a v s = .fault (.alignmentError a) s := by
  simp [mrWrite, h]

/-! ### A run of reads -/

/-- The records of `n` reads from `addr`, the first at `clock`. -/
def readRecords (m : Memory) : Nat → Word → Word → List MemoryRecord
  | 0, _, _ => []
  | n + 1, addr, clock => readRecord m addr clock :: readRecords m n (addr + 4) (clock + 1)

@[simp] theorem readRecords_length (m : Memory) (n : Nat) (a c : Word) : (readRecords m n a c).length = n := by
  induction n generalizing a c with
  | zero => rfl
  | succ n ih => simp [readRecords, ih]

/-- Record `i` of a run of reads. -/
theorem readRecords_getElem? (m : Memory) (n : Nat) (a c : Word) (i : Nat) (h : i < n) :
    (readRecords m n a c)[i]? = some (readRecord m (wordAddr a i) (c + BitVec.ofNat 32 i)) := by
  induction n generalizing a c i with
  | zero => omega
  | succ n ih =>
    cases i with
    | zero => simp [readRecords]
    | succ i =>
      simp only [readRecords, List.getElem?_cons_succ, ih _ _ i (by omega), wordAddr_succ, add_one_add_ofNat]

/-- `n` recorded reads from an aligned address: the records, and the state with them in `MRB` and `n` more ticks. -/
theorem readWords_aligned (n : Nat) (a : Word) (s : State) (h : aligned a = true) :
    readWords n a s = .ok (readRecords s.mem n a s.clk)
      { s with mrb := s.mrb ++ readRecords s.mem n a s.clk, clk := s.clk + BitVec.ofNat 32 n } := by
  induction n generalizing a s with
  | zero => simp [readWords, readRecords]
  | succ n ih =>
    simp only [readWords, mrRead_aligned a s h, ih (a + 4) _ ((aligned_add_four a).trans h), readRecords, tick,
      add_one_add_ofNat, List.append_assoc, List.singleton_append]

/-- A run of reads from a misaligned address faults at its first access. -/
theorem readWords_misaligned (n : Nat) (a : Word) (s : State) (h : aligned a = false) :
    readWords (n + 1) a s = .fault (.alignmentError a) s := by
  simp [readWords, mrRead_misaligned a s h]

/-! ### A run of writes -/

/-- Memory after the words are stored in ascending order from `addr`. -/
def storeWords : List Word → Word → Memory → Memory
  | [], _, m => m
  | w :: ws, addr, m => storeWords ws (addr + 4) (m.writeWord addr.toNat w)

/-- The records of those writes, the first at `clock`. -/
def writeRecords : List Word → Word → Word → Memory → List MemoryRecord
  | [], _, _, _ => []
  | w :: ws, addr, clock, m =>
    writeRecord m addr clock w :: writeRecords ws (addr + 4) (clock + 1) (m.writeWord addr.toNat w)

@[simp] theorem writeRecords_length (ws : List Word) (a c : Word) (m : Memory) :
    (writeRecords ws a c m).length = ws.length := by
  induction ws generalizing a c m with
  | nil => rfl
  | cons w ws ih => simp [writeRecords, ih]

/-- Recorded writes from an aligned address: the records, the stored words, and a tick for each. -/
theorem writeWords_aligned (ws : List Word) (a : Word) (s : State) (h : aligned a = true) :
    writeWords ws a s = .ok (writeRecords ws a s.clk s.mem)
      { s with
        mem := storeWords ws a s.mem
        mrb := s.mrb ++ writeRecords ws a s.clk s.mem
        clk := s.clk + BitVec.ofNat 32 ws.length } := by
  induction ws generalizing a s with
  | nil => simp [writeWords, writeRecords, storeWords]
  | cons w ws ih =>
    simp only [writeWords, mrWrite_aligned a w s h, ih (a + 4) _ ((aligned_add_four a).trans h), writeRecords,
      storeWords, tick, add_one_add_ofNat, List.append_assoc, List.singleton_append, List.length_cons]

/-- The address after the first word of a run that stays inside the address space. -/
theorem toNat_add_four (a : Word) (h : a.toNat + 4 < 2 ^ 32) : (a + 4).toNat = a.toNat + 4 := by
  rw [BitVec.toNat_add]
  have : (4 : Word).toNat = 4 := rfl
  omega

/-- Stored words change no byte outside their run. -/
theorem storeWords_readByte_outside (ws : List Word) (a : Word) (m : Memory) (b : Nat)
    (hfit : a.toNat + 4 * ws.length ≤ 2 ^ 32) (h : b < a.toNat ∨ a.toNat + 4 * ws.length ≤ b) :
    (storeWords ws a m).readByte b = m.readByte b := by
  induction ws generalizing a m with
  | nil => rfl
  | cons w ws ih =>
    simp only [List.length_cons] at hfit h
    rw [storeWords]
    cases ws with
    | nil =>
      simp only [storeWords]
      exact Memory.readByte_writeWord_outside _ _ _ _ (by simp only [List.length_nil] at h; omega)
    | cons w' ws =>
      simp only [List.length_cons] at hfit h
      have ha := toNat_add_four a (by omega)
      rw [ih (a + 4) _ (by simp only [List.length_cons]; omega) (by simp only [List.length_cons]; omega)]
      exact Memory.readByte_writeWord_outside _ _ _ _ (by omega)

/-- A word that shares no byte with the run reads as before. -/
theorem storeWords_readWord_outside (ws : List Word) (a : Word) (m : Memory) (b : Nat)
    (hfit : a.toNat + 4 * ws.length ≤ 2 ^ 32) (h : b + 4 ≤ a.toNat ∨ a.toNat + 4 * ws.length ≤ b) :
    (storeWords ws a m).readWord b = m.readWord b := by
  unfold Memory.readWord
  rw [storeWords_readByte_outside ws a m _ hfit (by omega), storeWords_readByte_outside ws a m _ hfit (by omega),
    storeWords_readByte_outside ws a m _ hfit (by omega), storeWords_readByte_outside ws a m _ hfit (by omega)]

/-- Word `i` of the run reads back as stored. -/
theorem storeWords_readWord_inside (ws : List Word) (a : Word) (m : Memory) (i : Nat)
    (hfit : a.toNat + 4 * ws.length ≤ 2 ^ 32) (h : i < ws.length) :
    (storeWords ws a m).readWord (a.toNat + 4 * i) = ws.getD i 0 := by
  induction ws generalizing a m i with
  | nil => simp at h
  | cons w ws ih =>
    simp only [List.length_cons] at hfit h
    rw [storeWords]
    cases i with
    | zero =>
      cases ws with
      | nil => simp [storeWords]
      | cons w' ws =>
        simp only [List.length_cons] at hfit h
        have ha := toNat_add_four a (by omega)
        rw [Nat.mul_zero, Nat.add_zero, storeWords_readWord_outside _ _ _ _ (by simp only [List.length_cons]; omega)
          (by omega)]
        simp
    | succ i =>
      have ha := toNat_add_four a (by omega)
      have := ih (a + 4) (m.writeWord a.toNat w) i (by omega) (by omega)
      rw [ha] at this
      rw [show a.toNat + 4 * (i + 1) = a.toNat + 4 + 4 * i by omega, this]
      simp

/-- Stored words keep the canonical form of memory. -/
theorem storeWords_wf (ws : List Word) (a : Word) (m : Memory) (hm : m.wf = true)
    (hfit : a.toNat + 4 * ws.length ≤ 2 ^ 32) : (storeWords ws a m).wf = true := by
  induction ws generalizing a m with
  | nil => exact hm
  | cons w ws ih =>
    simp only [List.length_cons] at hfit
    rw [storeWords]
    have hw := Memory.wf_writeWord m a.toNat w hm (by omega)
    cases ws with
    | nil => exact hw
    | cons w' ws =>
      simp only [List.length_cons] at hfit
      have ha := toNat_add_four a (by omega)
      exact ih (a + 4) _ hw (by simp only [List.length_cons]; omega)

/-- Record `i` of a run of writes: the prior value is what memory held before the run. -/
theorem writeRecords_getElem? (ws : List Word) (a c : Word) (m : Memory) (i : Nat)
    (hfit : a.toNat + 4 * ws.length ≤ 2 ^ 32) (h : i < ws.length) :
    (writeRecords ws a c m)[i]? =
      some (writeRecord m (wordAddr a i) (c + BitVec.ofNat 32 i) (ws.getD i 0)) := by
  induction ws generalizing a c m i with
  | nil => simp at h
  | cons w ws ih =>
    simp only [List.length_cons] at hfit h
    cases i with
    | zero => simp [writeRecords]
    | succ i =>
      have ha := toNat_add_four a (by omega)
      have hadr : (wordAddr a (i + 1)).toNat = a.toNat + 4 * (i + 1) := toNat_wordAddr a (i + 1) (by omega)
      simp only [writeRecords, List.getElem?_cons_succ, ih (a + 4) (c + 1) _ i (by omega) (by omega), wordAddr_succ,
        add_one_add_ofNat, writeRecord, hadr, List.getD_cons_succ]
      rw [Memory.readWord_writeWord_disjoint _ _ _ _ (by omega)]

/-! ### The end of a command -/

/-- Everything `unlessFaulted` can answer. -/
theorem unlessFaulted_next {s t : State} {k : Host.Outcome State Fault Refusal} (h : unlessFaulted s k = .next t) :
    s.fstat.kind = .none ∧ k = .next t := by
  unfold unlessFaulted at h
  split at h
  · exact ⟨‹_›, h⟩
  · cases h

/-- Everything `conclude` can answer. -/
theorem conclude_next {port : Port} {a : Attempt Response} {t : State} (h : conclude port a = .next t) :
    (∃ r s, a = .ok r s ∧ t = respond port r s) ∨ (∃ f s, a = .fault f s ∧ t = takeFault port f s) := by
  cases a with
  | ok r s => exact .inl ⟨r, s, rfl, by simpa [conclude] using h.symm⟩
  | fault f s => exact .inr ⟨f, s, rfl, by simpa [conclude] using h.symm⟩

end Sys2Proof.Machine
end

