-- ==== Sys2Proof/Laws/Limbs.lean ====
section
/-! SUPPORT. Limb vectors as integers: `val` and `limbs` are inverse, vector sums and products have the expected value,
and a carry chain of a vector of value zero is exact. -/

namespace Sys2Proof.Machine

@[simp] theorem limbs_length (base n v : Nat) : (limbs base n v).length = n := by
  induction n generalizing v with
  | zero => rfl
  | succ n ih => simp [limbs, ih]

theorem limbs_lt (base n v : Nat) (hb : 0 < base) : ∀ x ∈ limbs base n v, x < base := by
  induction n generalizing v with
  | zero => simp [limbs]
  | succ n ih =>
    intro x hx
    rcases List.mem_cons.mp hx with rfl | hx
    · exact Nat.mod_lt _ hb
    · exact ih _ x hx

/-- `val(limbs(v)) = v` for `0 <= v < B^n` (00_scope.md R12). -/
theorem val_limbs (base n v : Nat) (h : v < base ^ n) : val base (limbs base n v) = v := by
  induction n generalizing v with
  | zero => simp only [pow_zero] at h; simp [limbs, val]; omega
  | succ n ih =>
    have hb : 0 < base := by
      rcases Nat.eq_zero_or_pos base with rfl | hb
      · simp at h
      · exact hb
    have : v / base < base ^ n := Nat.div_lt_of_lt_mul (by rw [← pow_succ']; exact h)
    rw [limbs, val, ih _ this]
    exact Nat.mod_add_div v base

theorem val_lt (base : Nat) (a : List Nat) (h : ∀ x ∈ a, x < base) : val base a < base ^ a.length := by
  induction a with
  | nil => simp [val]
  | cons x xs ih =>
    have hx : x < base := h x (by simp)
    have := ih (fun y hy => h y (by simp [hy]))
    have : base * (val base xs + 1) ≤ base * base ^ xs.length := Nat.mul_le_mul_left _ this
    rw [val, List.length_cons, pow_succ']
    linarith

/-- `limbs(val(a)) = a` for a vector of limbs below the base. -/
theorem limbs_val (base : Nat) (a : List Nat) (h : ∀ x ∈ a, x < base) : limbs base a.length (val base a) = a := by
  induction a with
  | nil => rfl
  | cons x xs ih =>
    have hx : x < base := h x (by simp)
    have hb : 0 < base := by omega
    rw [List.length_cons, val, limbs, Nat.add_mul_mod_self_left, Nat.mod_eq_of_lt hx, Nat.add_mul_div_left _ _ hb,
      Nat.div_eq_of_lt hx, Nat.zero_add, ih (fun y hy => h y (by simp [hy]))]

/-! ### Vectors -/

@[simp] theorem valInt_addV (base : Int) (xs ys : List Int) :
    valInt base (addV xs ys) = valInt base xs + valInt base ys := by
  induction xs generalizing ys with
  | nil => simp [addV, valInt]
  | cons x xs ih =>
    cases ys with
    | nil => simp [addV, valInt]
    | cons y ys => simp only [addV, valInt, ih]; ring

@[simp] theorem valInt_negV (base : Int) (xs : List Int) : valInt base (negV xs) = - valInt base xs := by
  induction xs with
  | nil => simp [negV, valInt]
  | cons x xs ih =>
    simp only [negV, List.map_cons, valInt] at ih ⊢
    rw [ih]; ring

@[simp] theorem valInt_subV (base : Int) (xs ys : List Int) :
    valInt base (subV xs ys) = valInt base xs - valInt base ys := by
  simp [subV, sub_eq_add_neg]

theorem valInt_scale (base c : Int) (xs : List Int) : valInt base (xs.map (fun y => c * y)) = c * valInt base xs := by
  induction xs with
  | nil => simp [valInt]
  | cons x xs ih => simp only [List.map_cons, valInt, ih]; ring

@[simp] theorem valInt_mulV (base : Int) (xs ys : List Int) :
    valInt base (mulV xs ys) = valInt base xs * valInt base ys := by
  induction xs with
  | nil => simp [mulV, valInt]
  | cons x xs ih => simp only [mulV, valInt_addV, valInt_scale, valInt, ih]; ring

theorem valInt_append_zeros (base : Int) (xs : List Int) (n : Nat) :
    valInt base (xs ++ List.replicate n 0) = valInt base xs := by
  induction xs with
  | nil =>
    induction n with
    | zero => rfl
    | succ n ih => simp only [List.nil_append] at ih; simp [List.replicate_succ, valInt, ih]
  | cons x xs ih => simp [valInt, ih]

@[simp] theorem valInt_ints (base : Nat) (a : List Nat) : valInt base (ints a) = val base a := by
  induction a with
  | nil => rfl
  | cons x xs ih =>
    simp only [ints, List.map_cons, valInt, val] at ih ⊢
    rw [ih]; push_cast; rfl

@[simp] theorem valInt_pad (base n : Nat) (a : List Nat) : valInt base (pad n a) = val base a := by
  rw [pad, valInt_append_zeros, valInt_ints]

@[simp] theorem valInt_conv (base : Nat) (a b : List Nat) :
    valInt base (conv a b) = (val base a : Int) * val base b := by
  simp [conv]

@[simp] theorem addV_length (xs ys : List Int) : (addV xs ys).length = max xs.length ys.length := by
  induction xs generalizing ys with
  | nil => simp [addV]
  | cons x xs ih =>
    cases ys with
    | nil => simp [addV]
    | cons y ys => simp [addV, ih]

@[simp] theorem negV_length (xs : List Int) : (negV xs).length = xs.length := by simp [negV]

@[simp] theorem subV_length (xs ys : List Int) : (subV xs ys).length = max xs.length ys.length := by simp [subV]

@[simp] theorem ints_length (a : List Nat) : (ints a).length = a.length := by simp [ints]

@[simp] theorem pad_length (n : Nat) (a : List Nat) : (pad n a).length = a.length + (n - 1) := by simp [pad]

theorem mulV_length (xs ys : List Int) (hx : xs ≠ []) (hy : ys ≠ []) :
    (mulV xs ys).length = xs.length + ys.length - 1 := by
  have hy' : 1 ≤ ys.length := List.length_pos_iff.mpr hy
  induction xs with
  | nil => exact absurd rfl hx
  | cons x xs ih =>
    cases xs with
    | nil => simp [mulV]; omega
    | cons x' xs =>
      rw [mulV, addV_length, List.length_map, List.length_cons, ih (by simp)]
      simp only [List.length_cons]
      omega

/-! ### The carry chain -/

@[simp] theorem carryChain_length (base t : Int) (s : List Int) : (carryChain base t s).length = s.length := by
  induction s generalizing t with
  | nil => rfl
  | cons x xs ih => simp [carryChain, ih]

/-- If `t + sum s[j]·B^j = 0`, every division of the chain is exact: `s[j] + t[j-1] = B·t[j]` (41_fp_units.md R133). -/
theorem carryChain_exact (base t : Int) (s : List Int) (hb : 0 < base) (h : t + valInt base s = 0) (j : Nat)
    (hj : j < s.length) :
    s.getD j 0 + (t :: carryChain base t s).getD j 0 = base * (carryChain base t s).getD j 0 := by
  induction s generalizing t j with
  | nil => simp at hj
  | cons x xs ih =>
    have hdvd : base ∣ x + t := ⟨- valInt base xs, by simp only [valInt] at h; linarith⟩
    have hexact : base * ((x + t) / base) = x + t := Int.mul_ediv_cancel' hdvd
    have hrest : (x + t) / base + valInt base xs = 0 := by
      have : base * ((x + t) / base + valInt base xs) = 0 := by
        rw [mul_add, hexact]; simp only [valInt] at h; linarith
      exact (mul_eq_zero.mp this).resolve_left hb.ne'
    cases j with
    | zero => simp [carryChain, hexact]
    | succ j => simpa [carryChain] using ih _ hrest j (by simpa using hj)

/-- ... and the last carry is 0. -/
theorem carryChain_getLastD (base t : Int) (s : List Int) (hb : 0 < base) (h : t + valInt base s = 0) :
    (carryChain base t s).getLastD t = 0 := by
  induction s generalizing t with
  | nil => simpa [carryChain, valInt] using h
  | cons x xs ih =>
    have hdvd : base ∣ x + t := ⟨- valInt base xs, by simp only [valInt] at h; linarith⟩
    have hexact : base * ((x + t) / base) = x + t := Int.mul_ediv_cancel' hdvd
    have hrest : (x + t) / base + valInt base xs = 0 := by
      have : base * ((x + t) / base + valInt base xs) = 0 := by
        rw [mul_add, hexact]; simp only [valInt] at h; linarith
      exact (mul_eq_zero.mp this).resolve_left hb.ne'
    rw [carryChain, List.getLastD_cons]
    exact ih _ hrest

/-! ### Powers and inverses -/

/-- What `inverse` answers: a value below `p` that inverts `den`. -/
theorem inverse_some {p den z : Nat} (h : inverse p den = some z) : den * z % p = 1 := by
  simp only [inverse] at h
  split at h
  · rename_i h1; cases h; exact h1
  · cases h

/-- With `p` prime every `den` that `p` does not divide has an inverse (41_fp_units.md R147). -/
theorem inverse_of_prime {p den : Nat} (hp : p.Prime) (h2 : 2 < p) (hd : ¬ p ∣ den) :
    ∃ z, inverse p den = some z ∧ z < p ∧ den * z % p = 1 := by
  have hlog : p - 2 < 2 ^ (Nat.log2 p + 1) := by
    have := (Nat.log2_lt (n := p) (k := Nat.log2 p + 1) (by omega)).mp (by omega)
    omega
  have hz := powMod_eq p (Nat.log2 p + 1) den (p - 2) hlog
  have hone : den * (den ^ (p - 2) % p) % p = 1 := by
    rw [Nat.mul_mod, Nat.mod_mod, ← Nat.mul_mod, ← pow_succ', show p - 2 + 1 = p - 1 by omega]
    have hc : Nat.Coprime den p := (Nat.coprime_comm.mp ((Nat.Prime.coprime_iff_not_dvd hp).mpr hd))
    have := Nat.ModEq.pow_totient hc
    rw [Nat.totient_prime hp] at this
    rw [this, Nat.mod_eq_of_lt (by omega)]
  refine ⟨den ^ (p - 2) % p, ?_, Nat.mod_lt _ (by omega), hone⟩
  simp only [inverse, hz, hone, if_true]

/-- A denominator of `0` has none. -/
theorem inverse_zero (p : Nat) : inverse p 0 = none := by
  simp [inverse]

end Sys2Proof.Machine
end

