-- ==== Sys2Proof/Laws/PerInstr.lean ====
section
/-! SUPPORT. The family `HomePort`: a well-formed command's word belongs to the command's own port. -/

namespace Sys2Proof.Laws.HomePort

/-- The word of a well-formed command is presented on the port the command's format names (30_encoding.md R82, R84). -/
def Statement (i : Instr) : Prop := i.wf = true → homePort (encode i) = i.port

theorem edadd : Statement .edadd := fun _ => by decide
theorem perm : Statement .perm := fun _ => by decide
theorem fpadd : Statement .fpadd := fun _ => by decide
theorem fpsub : Statement .fpsub := fun _ => by decide
theorem fpmul : Statement .fpmul := fun _ => by decide

theorem fpip (n : Nat) : Statement (.fpip n) := by
  intro h
  have hn : 1 ≤ n ∧ n ≤ Config.ipMax := by simpa [Instr.wf] using h
  obtain ⟨h1, h2⟩ := hn
  have : n = 1 ∨ n = 2 := by unfold Config.ipMax at h2; omega
  rcases this with rfl | rfl <;> decide

theorem fpdenP : Statement .fpdenP := fun _ => by decide
theorem fpdenM : Statement .fpdenM := fun _ => by decide
theorem mrd : Statement .mrd := fun _ => by decide
theorem mwr : Statement .mwr := fun _ => by decide
theorem width (c : Chip) : Statement (.width c) := fun _ => by cases c <;> decide
theorem gentrace (c : Chip) : Statement (.gentrace c) := fun _ => by cases c <;> decide
theorem eval (c : Chip) : Statement (.eval c) := fun _ => by cases c <;> decide

end Sys2Proof.Laws.HomePort
end

