-- ==== Sys2Proof/Laws/Units.lean ====
section
/-! SUPPORT. What the arithmetic units do, said once: when the operand checks pass, what populate answers, that the
position vector is the spec's position by position, and that result and quotient meet the integer identity. -/

namespace Sys2Proof.Machine

/-! ### Operand checks -/

/-- The operand checks pass exactly on canonical vectors (41_fp_units.md R131). -/
theorem operandDefect_none_iff (fd : FieldDesc) (vs : List (List Nat)) :
    operandDefect fd vs = none ↔ ∀ v ∈ vs, CanonicalLimbs fd v := by
  unfold operandDefect CanonicalLimbs
  constructor
  · intro h
    split at h
    · cases h
    · split at h
      · cases h
      · split at h
        · cases h
        · rename_i h1 h2 h3
          simp only [List.any_eq_true, decide_eq_true_eq, not_exists, not_and, not_not, not_le] at h1 h2 h3
          exact fun v hv => ⟨h1 v hv, fun x hx => h2 v hv x hx, h3 v hv⟩
  · intro h
    rw [if_neg, if_neg, if_neg]
    all_goals simp only [List.any_eq_true, decide_eq_true_eq, not_exists, not_and, not_not, not_le]
    · exact fun v hv => (h v hv).2.2
    · exact fun v hv => (h v hv).2.1
    · exact fun v hv => (h v hv).1

/-- What populate answers on operands that pass the checks. -/
theorem populate_ok_iff (op : UnitOp) (fd : FieldDesc) (ins : List LimbPair) (t : UnitResult) :
    populate op fd ins = .ok t ↔
      (∀ v ∈ vectorsOf ins, CanonicalLimbs fd v) ∧
      ∃ c k, op.solve fd.p (ins.map (fun ab => (val fd.base ab.1, val fd.base ab.2))) = some (c, k) ∧
        t = { res := limbs fd.base fd.numLimbs c
              quot := limbs fd.base fd.numLimbs k
              carry := carryWitnesses fd.base
                (op.positions fd ins (limbs fd.base fd.numLimbs c) (limbs fd.base fd.numLimbs k)) } := by
  rw [← operandDefect_none_iff]
  unfold populate
  cases operandDefect fd (vectorsOf ins) with
  | some d => simp
  | none =>
    cases hs : op.solve fd.p (ins.map (fun ab => (val fd.base ab.1, val fd.base ab.2))) with
    | none => simp
    | some ck =>
      obtain ⟨c, k⟩ := ck
      simp only [Except.ok.injEq, true_and, Option.some.injEq, Prod.mk.injEq]
      constructor
      · intro h; exact ⟨c, k, ⟨rfl, rfl⟩, h.symm⟩
      · rintro ⟨c', k', ⟨rfl, rfl⟩, h⟩; exact h.symm

/-! ### The position vector -/

/-- The value of the position vector is the identity of 41_fp_units.md R132. -/
theorem positions_value (op : UnitOp) (fd : FieldDesc) (ins : List LimbPair) (res quot : List Nat)
    (hp : fd.p < fd.base ^ fd.numLimbs) :
    valInt fd.base (op.positions fd ins res quot) =
      op.identity fd.p (ins.map (fun ab => (val fd.base ab.1, val fd.base ab.2))) (val fd.base res)
        (val fd.base quot) := by
  have hpl := val_limbs fd.base fd.numLimbs fd.p hp
  have hhead : (ins.map (fun ab => (val fd.base ab.1, val fd.base ab.2))).headD (0, 0) =
      (val fd.base (firstPair ins).1, val fd.base (firstPair ins).2) := by
    cases ins <;> simp [firstPair, val]
  have hfold : valInt fd.base (ins.foldr (fun ab acc => addV (conv ab.1 ab.2) acc) []) =
      ((ins.map (fun ab => (val fd.base ab.1, val fd.base ab.2))).map (fun ab => (ab.1 : Int) * ab.2)).sum := by
    clear hhead
    induction ins with
    | nil => simp [valInt]
    | cons ab rest ih => simpa using ih
  cases op <;>
    simp only [UnitOp.positions, UnitOp.identity, valInt_addV, valInt_subV, valInt_pad, valInt_conv, hpl, hhead, hfold]

theorem getD_addV (xs ys : List Int) (j : Nat) : (addV xs ys).getD j 0 = xs.getD j 0 + ys.getD j 0 := by
  induction xs generalizing ys j with
  | nil => simp [addV]
  | cons x xs ih =>
    cases ys with
    | nil => simp [addV]
    | cons y ys => cases j <;> simp_all [addV]

theorem getD_negV (xs : List Int) (j : Nat) : (negV xs).getD j 0 = - xs.getD j 0 := by
  induction xs generalizing j with
  | nil => simp [negV]
  | cons x xs ih => cases j <;> simp_all [negV]

theorem getD_subV (xs ys : List Int) (j : Nat) : (subV xs ys).getD j 0 = xs.getD j 0 - ys.getD j 0 := by
  rw [subV, getD_addV, getD_negV, sub_eq_add_neg]

theorem getD_ints (a : List Nat) (j : Nat) : (ints a).getD j 0 = (a.getD j 0 : Int) := by
  induction a generalizing j with
  | nil => simp [ints]
  | cons x xs ih => cases j <;> simp_all [ints]

theorem getD_pad (n : Nat) (a : List Nat) (h : a.length = n) (j : Nat) : (pad n a).getD j 0 = padAt n a j := by
  unfold pad padAt
  split
  · rw [List.getD_append _ _ _ _ (by simpa [h]), getD_ints]
  · rw [List.getD_append_right _ _ _ _ (by simp [h]; omega)]
    simp [List.getD_eq_getElem?_getD, List.getElem?_replicate]
    split <;> simp

theorem getD_scale (x : Int) (ys : List Int) (k : Nat) : (ys.map (fun y => x * y)).getD k 0 = x * ys.getD k 0 := by
  induction ys generalizing k with
  | nil => simp
  | cons y ys ih => cases k <;> simp_all

theorem getD_mulV (xs ys : List Int) (j : Nat) :
    (mulV xs ys).getD j 0 =
      ((List.range xs.length).map (fun i => if i ≤ j then xs.getD i 0 * ys.getD (j - i) 0 else 0)).sum := by
  induction xs generalizing j with
  | nil => simp [mulV]
  | cons x xs ih =>
    rw [mulV, getD_addV, getD_scale, List.length_cons, List.range_succ_eq_map, List.map_cons, List.sum_cons,
      List.map_map]
    have htail : (0 :: mulV xs ys).getD j 0 = ((List.range xs.length).map
        ((fun i => if i ≤ j then (x :: xs).getD i 0 * ys.getD (j - i) 0 else 0) ∘ Nat.succ)).sum := by
      cases j with
      | zero => simp [Function.comp_def]
      | succ j =>
        rw [List.getD_cons_succ, ih]
        simp [Function.comp_def]
    rw [htail]
    simp

theorem getD_conv (n : Nat) (a b : List Nat) (ha : a.length = n) (hb : b.length = n) (j : Nat) :
    (conv a b).getD j 0 = convAt n a b j := by
  rw [conv, getD_mulV, ints_length, ha, convAt]
  congr 1
  refine List.map_congr_left (fun i _ => ?_)
  rw [getD_ints, getD_ints]
  by_cases hij : i ≤ j
  · by_cases hlt : j - i < n
    · simp [hij, hlt]
    · have : b.getD (j - i) 0 = 0 := by
        rw [List.getD_eq_getElem?_getD, List.getElem?_eq_none (by omega)]; rfl
      rw [if_pos hij, if_neg (by tauto), this]; simp
  · simp [hij]

/-- Position `j` of the vector is the spec's `s[j]` (41_fp_units.md R135 to R140). -/
theorem getD_positions (op : UnitOp) (fd : FieldDesc) (ins : List LimbPair) (res quot : List Nat)
    (hins : ∀ v ∈ vectorsOf ins, v.length = fd.numLimbs) (hne : ins ≠ []) (hres : res.length = fd.numLimbs)
    (hquot : quot.length = fd.numLimbs) (j : Nat) :
    (op.positions fd ins res quot).getD j 0 = op.positionAt fd ins res quot j := by
  obtain ⟨ab, rest, rfl⟩ := List.exists_cons_of_ne_nil hne
  have ha : ab.1.length = fd.numLimbs := hins _ (by simp [vectorsOf])
  have hb : ab.2.length = fd.numLimbs := hins _ (by simp [vectorsOf])
  have hkp := getD_conv fd.numLimbs quot (limbs fd.base fd.numLimbs fd.p) hquot (by simp) j
  have hfold : ∀ l : List LimbPair, (∀ v ∈ vectorsOf l, v.length = fd.numLimbs) →
      (l.foldr (fun ab acc => addV (conv ab.1 ab.2) acc) []).getD j 0 =
        (l.map (fun ab => convAt fd.numLimbs ab.1 ab.2 j)).sum := by
    intro l hl
    induction l with
    | nil => simp
    | cons x xs ih =>
      rw [List.foldr_cons, getD_addV, ih (fun v hv => hl v (by simp_all [vectorsOf])), List.map_cons, List.sum_cons,
        getD_conv fd.numLimbs _ _ (hl _ (by simp [vectorsOf])) (hl _ (by simp [vectorsOf]))]
  have hf : firstPair (ab :: rest) = ab := rfl
  cases op <;>
    simp only [UnitOp.positions, UnitOp.positionAt, getD_addV, getD_subV, hkp, hf, getD_pad _ _ ha, getD_pad _ _ hb,
      getD_pad _ _ hres, getD_conv _ _ _ ha hb, getD_conv _ _ _ hres hb, hfold _ hins]

theorem conv_length (n : Nat) (a b : List Nat) (hn : 1 ≤ n) (ha : a.length = n) (hb : b.length = n) :
    (conv a b).length = 2 * n - 1 := by
  have : ∀ l : List Nat, l.length = n → ints l ≠ [] := by
    intro l hl h
    have := congrArg List.length h
    simp only [ints_length, List.length_nil] at this
    omega
  rw [conv, mulV_length _ _ (this a ha) (this b hb), ints_length, ints_length, ha, hb]
  omega

/-- The vector has the `2L - 1` positions of 41_fp_units.md R133. -/
theorem positions_length (op : UnitOp) (fd : FieldDesc) (ins : List LimbPair) (res quot : List Nat)
    (hn : 1 ≤ fd.numLimbs) (hins : ∀ v ∈ vectorsOf ins, v.length = fd.numLimbs) (hne : ins ≠ [])
    (hres : res.length = fd.numLimbs) (hquot : quot.length = fd.numLimbs) :
    (op.positions fd ins res quot).length = 2 * fd.numLimbs - 1 := by
  obtain ⟨ab, rest, rfl⟩ := List.exists_cons_of_ne_nil hne
  have ha : ab.1.length = fd.numLimbs := hins _ (by simp [vectorsOf])
  have hb : ab.2.length = fd.numLimbs := hins _ (by simp [vectorsOf])
  have hkp := conv_length fd.numLimbs quot (limbs fd.base fd.numLimbs fd.p) hn hquot (by simp)
  have hfold : ∀ l : List LimbPair, (∀ v ∈ vectorsOf l, v.length = fd.numLimbs) →
      (l.foldr (fun ab acc => addV (conv ab.1 ab.2) acc) []).length ≤ 2 * fd.numLimbs - 1 := by
    intro l hl
    induction l with
    | nil => simp
    | cons x xs ih =>
      rw [List.foldr_cons, addV_length, conv_length fd.numLimbs _ _ hn (hl _ (by simp [vectorsOf]))
        (hl _ (by simp [vectorsOf]))]
      exact max_le (le_refl _) (ih (fun v hv => hl v (by simp_all [vectorsOf])))
  have hf : firstPair (ab :: rest) = ab := rfl
  have hfl := hfold _ hins
  cases op <;>
    simp only [UnitOp.positions, addV_length, subV_length, pad_length, hf, ha, hb, hres, hkp,
      conv_length _ _ _ hn ha hb, conv_length _ _ _ hn hres hb] <;> omega

/-! ### Result and quotient -/

theorem solveAdd_identity (p a b : Nat) (hp : 0 < p) (ha : a < p) (hb : b < p) :
    (solveAdd p a b).1 < p ∧ (a + b : Int) - (solveAdd p a b).1 - (solveAdd p a b).2 * p = 0 ∧ (solveAdd p a b).2 ≤ 1 := by
  have hk : (a + b - (a + b) % p) / p = (a + b) / p := by
    rw [show a + b - (a + b) % p = p * ((a + b) / p) by have := Nat.mod_add_div (a + b) p; omega]
    exact Nat.mul_div_cancel_left _ hp
  simp only [solveAdd, hk]
  refine ⟨Nat.mod_lt _ hp, ?_, ?_⟩
  · have := Nat.mod_add_div (a + b) p
    zify at this
    push_cast
    linarith
  · have : (a + b) / p < 2 := Nat.div_lt_of_lt_mul (by omega)
    omega

theorem solveMul_identity (p a b : Nat) (hp : 0 < p) (ha : a < p) (hb : b < p) :
    (solveMul p a b).1 < p ∧ (a * b : Int) - (solveMul p a b).1 - (solveMul p a b).2 * p = 0 ∧ (solveMul p a b).2 < p := by
  refine ⟨Nat.mod_lt _ hp, ?_, ?_⟩
  · simp only [solveMul]
    have := Nat.mod_add_div (a * b) p
    zify at this
    push_cast
    linarith
  · exact Nat.div_lt_of_lt_mul (Nat.mul_lt_mul'' ha hb)

theorem solveSub_identity (p a b : Nat) (hp : 0 < p) (ha : a < p) (hb : b < p) :
    (solveSub p a b).1 < p ∧ (a : Int) - b - (solveSub p a b).1 + (solveSub p a b).2 * p = 0 ∧ (solveSub p a b).2 ≤ 1 := by
  have hp' : (0 : Int) < p := by exact_mod_cast hp
  have hc0 := Int.emod_nonneg ((a : Int) - b) hp'.ne'
  have hc1 := Int.emod_lt_of_pos ((a : Int) - b) hp'
  have hdiv := Int.emod_add_mul_ediv ((a : Int) - b) p
  have hk : (((a : Int) - b) % p - a + b) / p = - (((a : Int) - b) / p) := by
    rw [show ((a : Int) - b) % p - a + b = p * (- (((a : Int) - b) / p)) by linarith]
    exact Int.mul_ediv_cancel_left _ hp'.ne'
  have hlow : -1 ≤ ((a : Int) - b) / p := by
    rw [Int.le_ediv_iff_mul_le hp']; linarith [(by exact_mod_cast hb : (b : Int) < p)]
  have hhigh : ((a : Int) - b) / p ≤ 0 := by
    have : ((a : Int) - b) / p < 1 := by
      rw [Int.ediv_lt_iff_lt_mul hp']; linarith [(by exact_mod_cast ha : (a : Int) < p)]
    omega
  simp only [solveSub, hk]
  have e1 : ((((a : Int) - b) % p).toNat : Int) = ((a : Int) - b) % p := Int.toNat_of_nonneg hc0
  have e2 : ((-(((a : Int) - b) / p)).toNat : Int) = -(((a : Int) - b) / p) := Int.toNat_of_nonneg (by omega)
  refine ⟨by zify; rw [e1]; exact hc1, ?_, by omega⟩
  rw [e1, e2]; linarith

theorem solveIp_identity (p : Nat) (abs : List (Nat × Nat)) (hp : 0 < p)
    (h : ∀ ab ∈ abs, ab.1 < p ∧ ab.2 < p) (hne : abs ≠ []) :
    (solveIp p abs).1 < p ∧
      (abs.map (fun ab => (ab.1 : Int) * ab.2)).sum - (solveIp p abs).1 - (solveIp p abs).2 * p = 0 ∧
      (solveIp p abs).2 < abs.length * p := by
  have hsum : (abs.map (fun ab => (ab.1 : Int) * ab.2)).sum = ((abs.map (fun ab => ab.1 * ab.2)).sum : Nat) := by
    clear h hne
    induction abs with
    | nil => rfl
    | cons x xs ih => simp [ih]
  have hlt : ∀ l : List (Nat × Nat), l ≠ [] → (∀ ab ∈ l, ab.1 < p ∧ ab.2 < p) →
      (l.map (fun ab => ab.1 * ab.2)).sum < p * (l.length * p) := by
    intro l
    induction l with
    | nil => simp
    | cons x xs ih =>
      intro _ hl
      have hx : x.1 * x.2 < p * p := Nat.mul_lt_mul'' (hl x (by simp)).1 (hl x (by simp)).2
      simp only [List.map_cons, List.sum_cons, List.length_cons]
      rcases eq_or_ne xs [] with rfl | hne
      · simpa using hx
      · have := ih hne (fun ab hab => hl ab (by simp [hab]))
        nlinarith
  refine ⟨Nat.mod_lt _ hp, ?_, Nat.div_lt_of_lt_mul (hlt abs hne h)⟩
  simp only [solveIp]
  rw [hsum]
  have := Nat.mod_add_div ((abs.map (fun ab => ab.1 * ab.2)).sum) p
  zify at this
  push_cast
  linarith

/-- The quotient of an exact nonnegative multiple of `p` above `-p`. -/
theorem exact_quotient (p : Nat) (x : Int) (hp : 0 < p) (hdvd : (p : Int) ∣ x) (hx : -(p : Int) < x) :
    ((x / p).toNat : Int) * p = x := by
  have hp' : (0 : Int) < p := by exact_mod_cast hp
  obtain ⟨y, rfl⟩ := hdvd
  rw [Int.mul_ediv_cancel_left _ hp'.ne']
  have : 0 ≤ y := by
    by_contra hneg
    have : y ≤ -1 := by omega
    nlinarith
  rw [Int.toNat_of_nonneg this]; ring

theorem solveDenP_identity (p a b c k : Nat) (hp : 0 < p) (ha : a < p) (hb : b < p) (h : solveDenP p a b = some (c, k)) :
    c < p ∧ (c : Int) * b + c - a - k * p = 0 ∧ k < p := by
  have hp' : (0 : Int) < p := by exact_mod_cast hp
  unfold solveDenP at h
  cases hz : inverse p ((1 + b) % p) with
  | none => simp [hz] at h
  | some z =>
    simp only [hz, Option.some.injEq, Prod.mk.injEq] at h
    have hinv := inverse_some hz
    have hcp : a * z % p < p := Nat.mod_lt _ hp
    obtain ⟨rfl, rfl⟩ := h
    have hmod : a * z % p * (1 + b) ≡ a [MOD p] := by
      have h1 : (1 + b) * z ≡ 1 [MOD p] := by
        have : (1 + b) % p * z % p = 1 % p := by
          rw [hinv]; rcases Nat.lt_or_ge 1 p with h | h
          · exact (Nat.mod_eq_of_lt h).symm
          · obtain rfl : p = 1 := by omega
            omega
        simpa [Nat.ModEq, Nat.mod_mul_mod] using this
      calc a * z % p * (1 + b) ≡ a * z * (1 + b) [MOD p] := (Nat.mod_modEq _ _).mul_right _
        _ = a * ((1 + b) * z) := by ring
        _ ≡ a * 1 [MOD p] := h1.mul_left _
        _ = a := by ring
    have hdvd : (p : Int) ∣ ((a * z % p : Nat) : Int) * b + (a * z % p : Nat) - a := by
      have := (Nat.modEq_iff_dvd.mp hmod.symm)
      push_cast at this ⊢
      convert this using 1; ring
    have hq := exact_quotient p _ hp hdvd (by
      have : (0 : Int) ≤ ((a * z % p : Nat) : Int) * b + (a * z % p : Nat) := by positivity
      have : (a : Int) < p := by exact_mod_cast ha
      linarith)
    refine ⟨hcp, by rw [hq]; ring, ?_⟩
    have hub : ((a * z % p : Nat) : Int) * b + (a * z % p : Nat) - a < p * p := by
      have h1 : ((a * z % p : Nat) : Int) ≤ p - 1 := by have : (a * z % p : Nat) + 1 ≤ p := hcp; zify at this ⊢; linarith
      have h2 : (b : Int) ≤ p - 1 := by have : b + 1 ≤ p := hb; zify at this; linarith
      have h3 : (0 : Int) ≤ ((a * z % p : Nat) : Int) := by positivity
      have h4 : (0 : Int) ≤ a := by positivity
      nlinarith
    rw [← hq] at hub
    have := lt_of_mul_lt_mul_right hub hp'.le
    exact_mod_cast this

theorem solveDenM_identity (p a b c k : Nat) (hp : 0 < p) (ha : a < p) (hb : b < p) (h : solveDenM p a b = some (c, k)) :
    c < p ∧ (c : Int) * b + a - c - k * p = 0 ∧ k < p := by
  have hp' : (0 : Int) < p := by exact_mod_cast hp
  unfold solveDenM at h
  cases hz : inverse p ((1 - (b : Int)) % p).toNat with
  | none => simp [hz] at h
  | some z =>
    simp only [hz, Option.some.injEq, Prod.mk.injEq] at h
    have hinv := inverse_some hz
    have hcp : a * z % p < p := Nat.mod_lt _ hp
    obtain ⟨rfl, rfl⟩ := h
    have hden : ((((1 - (b : Int)) % p).toNat : Nat) : Int) = (1 - (b : Int)) % p :=
      Int.toNat_of_nonneg (Int.emod_nonneg _ hp'.ne')
    have h1 : (1 - (b : Int)) * z ≡ 1 [ZMOD p] := by
      have e : (((((1 - (b : Int)) % p).toNat * z % p : Nat)) : Int) = 1 := by exact_mod_cast hinv
      rw [Int.natCast_mod, Nat.cast_mul, hden] at e
      have : ((1 - (b : Int)) % p * z) ≡ 1 [ZMOD p] := by
        calc ((1 - (b : Int)) % p * z) ≡ ((1 - (b : Int)) % p * z) % p [ZMOD p] := (Int.mod_modEq _ _).symm
          _ = 1 := e
      exact ((Int.mod_modEq _ _).mul_right _).symm.trans this
    have hr : ((a * z % p : Nat) : Int) ≡ (a : Int) * z [ZMOD p] := by
      push_cast; exact Int.mod_modEq _ _
    have hmod : ((a * z % p : Nat) : Int) * (1 - b) ≡ a [ZMOD p] := by
      calc ((a * z % p : Nat) : Int) * (1 - b) ≡ (a : Int) * z * (1 - b) [ZMOD p] := hr.mul_right _
        _ = (a : Int) * ((1 - b) * z) := by ring
        _ ≡ (a : Int) * 1 [ZMOD p] := h1.mul_left _
        _ = a := by ring
    have hdvd : (p : Int) ∣ ((a * z % p : Nat) : Int) * b + a - (a * z % p : Nat) := by
      have := Int.modEq_iff_dvd.mp hmod
      convert this using 1; ring
    have hcp' : ((a * z % p : Nat) : Int) < p := by exact_mod_cast hcp
    have hq := exact_quotient p _ hp hdvd (by
      have : (0 : Int) ≤ ((a * z % p : Nat) : Int) * b := by positivity
      have : (0 : Int) ≤ a := by positivity
      linarith)
    refine ⟨hcp, by rw [hq]; ring, ?_⟩
    have hub : ((a * z % p : Nat) : Int) * b + a - (a * z % p : Nat) < p * p := by
      have h2 : (b : Int) < p := by exact_mod_cast hb
      have h3 : (0 : Int) ≤ ((a * z % p : Nat) : Int) := by positivity
      have h4 : (a : Int) < p := by exact_mod_cast ha
      have h5 : (0 : Int) ≤ b := by positivity
      nlinarith
    rw [← hq] at hub
    have := lt_of_mul_lt_mul_right hub hp'.le
    exact_mod_cast this

/-- Result and quotient of any unit on canonical operands: the result is below `p`, the identity of 41_fp_units.md R132
holds, and the quotient is below `IP_MAX·p`, so it fits `L` limbs. -/
theorem solve_identity (op : UnitOp) (p : Nat) (abs : List (Nat × Nat)) (c k : Nat) (hp : 1 < p)
    (h : ∀ ab ∈ abs, ab.1 < p ∧ ab.2 < p) (hlen : abs.length = op.terms) (h1 : 1 ≤ op.terms)
    (h2 : op.terms ≤ Config.ipMax) (hs : op.solve p abs = some (c, k)) :
    c < p ∧ op.identity p abs c k = 0 ∧ k < Config.ipMax * p := by
  have hne : abs ≠ [] := by rintro rfl; simp at hlen; omega
  obtain ⟨⟨a, b⟩, rest, rfl⟩ := List.exists_cons_of_ne_nil hne
  have hab := h (a, b) (by simp)
  simp only at hab
  have hmax : Config.ipMax = 2 := rfl
  cases op with
  | add =>
    have := solveAdd_identity p a b (by omega) hab.1 hab.2
    simp only [UnitOp.solve, List.headD_cons, Option.some.injEq] at hs
    rw [hs] at this
    exact ⟨this.1, by simpa [UnitOp.identity] using this.2.1, by have := this.2.2; simp only at this; rw [hmax]; omega⟩
  | sub =>
    have := solveSub_identity p a b (by omega) hab.1 hab.2
    simp only [UnitOp.solve, List.headD_cons, Option.some.injEq] at hs
    rw [hs] at this
    exact ⟨this.1, by simpa [UnitOp.identity] using this.2.1, by have := this.2.2; simp only at this; rw [hmax]; omega⟩
  | mul =>
    have := solveMul_identity p a b (by omega) hab.1 hab.2
    simp only [UnitOp.solve, List.headD_cons, Option.some.injEq] at hs
    rw [hs] at this
    exact ⟨this.1, by simpa [UnitOp.identity] using this.2.1, by have := this.2.2; simp only at this; rw [hmax]; omega⟩
  | ip n =>
    have := solveIp_identity p ((a, b) :: rest) (by omega) h hne
    simp only [UnitOp.solve, Option.some.injEq] at hs
    rw [hs, hlen] at this
    exact ⟨this.1, by simpa [UnitOp.identity] using this.2.1, lt_of_lt_of_le this.2.2 (Nat.mul_le_mul_right _ h2)⟩
  | denP =>
    have := solveDenP_identity p a b c k (by omega) hab.1 hab.2 (by simpa [UnitOp.solve] using hs)
    exact ⟨this.1, by simpa [UnitOp.identity] using this.2.1, by have := this.2.2; rw [hmax]; omega⟩
  | denM =>
    have := solveDenM_identity p a b c k (by omega) hab.1 hab.2 (by simpa [UnitOp.solve] using hs)
    exact ⟨this.1, by simpa [UnitOp.identity] using this.2.1, by have := this.2.2; rw [hmax]; omega⟩

/-! ### Populate -/

theorem unitOk_iff (fd : FieldDesc) : fd.unitOk = true ↔ 1 ≤ fd.numLimbs ∧ 1 ≤ fd.limbBits ∧ fd.p % 2 = 1 ∧
    3 ≤ fd.p ∧ Config.ipMax * fd.p ≤ fd.base ^ fd.numLimbs := by simp [FieldDesc.unitOk]

/-- The descriptor of a configuration drives the units. -/
theorem unitOk_config (c : Config) : c.fd.unitOk = true := by
  obtain ⟨ha, ⟨-, hw, -⟩, hp, hodd, hb, -, -, -, -, -, -⟩ := c.wellFormed
  have h2 := hp.two_le
  refine (unitOk_iff _).mpr ⟨?_, hw, hodd, by omega, ?_⟩
  · by_contra h
    obtain h0 : c.fd.numLimbs = 0 := by omega
    simp [h0] at ha
  · rw [FieldDesc.base, ← pow_mul, Nat.mul_comm c.fd.limbBits, ha]
    exact hb

/-- Whatever a unit returns is a canonical result, a quotient in range, the identity and exact carries. -/
theorem populate_answer (fd : FieldDesc) (op : UnitOp) (ins : List LimbPair) (t : UnitResult) (hc : fd.unitOk = true)
    (hfit : op.Fits ins) (h : populate op fd ins = .ok t) : UnitAnswer op fd ins t := by
  obtain ⟨hL, hw, -, hp3, hbound⟩ := (unitOk_iff fd).mp hc
  obtain ⟨hlen, h1, h2⟩ := hfit
  obtain ⟨hcan, r, k, hs, rfl⟩ := (populate_ok_iff op fd ins t).mp h
  have hmax : Config.ipMax = 2 := rfl
  have hbase : 0 < fd.base := by unfold FieldDesc.base; positivity
  have hpB : fd.p < fd.base ^ fd.numLimbs := by rw [hmax] at hbound; omega
  have hne : ins ≠ [] := by rintro rfl; simp at hlen; omega
  have hvals : ∀ ab ∈ ins.map (fun ab => (val fd.base ab.1, val fd.base ab.2)), ab.1 < fd.p ∧ ab.2 < fd.p := by
    intro ab hab
    obtain ⟨x, hx, rfl⟩ := List.mem_map.mp hab
    exact ⟨(hcan _ (List.mem_flatMap.mpr ⟨x, hx, by simp⟩)).2.2, (hcan _ (List.mem_flatMap.mpr ⟨x, hx, by simp⟩)).2.2⟩
  obtain ⟨hr, hid, hk⟩ := solve_identity op fd.p _ r k (by omega) hvals (by simpa using hlen) h1 h2 hs
  have hvr : val fd.base (limbs fd.base fd.numLimbs r) = r := val_limbs _ _ _ (by omega)
  have hvk : val fd.base (limbs fd.base fd.numLimbs k) = k := val_limbs _ _ _ (by omega)
  refine ⟨⟨by simp, limbs_lt _ _ _ hbase, by rw [hvr]; exact hr⟩, ⟨by simp, limbs_lt _ _ _ hbase⟩,
    by rw [hvr, hvk]; exact hid, ?_⟩
  have hlens : ∀ v ∈ vectorsOf ins, v.length = fd.numLimbs := fun v hv => (hcan v hv).1
  have hposlen := positions_length op fd ins (limbs fd.base fd.numLimbs r) (limbs fd.base fd.numLimbs k) hL
    hlens hne (by simp) (by simp)
  have hget := getD_positions op fd ins (limbs fd.base fd.numLimbs r) (limbs fd.base fd.numLimbs k) hlens hne
    (by simp) (by simp)
  have hzero := positions_value op fd ins (limbs fd.base fd.numLimbs r) (limbs fd.base fd.numLimbs k) hpB
  rw [hvr, hvk, hid] at hzero
  generalize op.positions fd ins (limbs fd.base fd.numLimbs r) (limbs fd.base fd.numLimbs k) = s at *
  have hb' : (0 : Int) < fd.base := by exact_mod_cast hbase
  have hexact := carryChain_exact (fd.base : Int) 0 s hb' (by rw [hzero]; rfl)
  have hlast := carryChain_getLastD (fd.base : Int) 0 s hb' (by rw [hzero]; rfl)
  have hclen := carryChain_length (fd.base : Int) 0 s
  unfold carryWitnesses
  generalize carryChain (fd.base : Int) 0 s = ts at *
  have hdrop : ∀ j, j < 2 * fd.numLimbs - 1 → ts.dropLast.getD j 0 = ts.getD j 0 := by
    intro j hj
    rw [List.getD_eq_getElem?_getD, List.getD_eq_getElem?_getD, List.getElem?_dropLast]
    split
    · rfl
    · rename_i hge
      have hj' : j = ts.length - 1 := by omega
      rw [List.getLastD_eq_getLast?, List.getLast?_eq_getElem?] at hlast
      rw [hj', hlast]; rfl
  refine ⟨by simp only [List.length_dropLast]; omega, fun j hj => ?_⟩
  have := hexact j (by omega)
  rw [hget j] at this
  rw [hdrop j hj, ← this]
  congr 1
  unfold carryBefore
  split
  · rename_i hj0; subst hj0; rfl
  · rename_i hj0
    rw [hdrop (j - 1) (by omega)]
    obtain ⟨j', rfl⟩ := Nat.exists_eq_succ_of_ne_zero hj0
    simp

end Sys2Proof.Machine
end

