-- ==== Sys2Proof/Tests/Slice0.lean ====
section
/-! SUPPORT. The model's own tests. `test_…` theorems compare one step or one decoding with a vector of
95_test_vectors.md or an example of a rule, named in the comment. `witness_…` theorems show, for an obligation with
hypotheses, states and operands that meet all of them together. -/

open Sys2Proof Sys2Proof.Machine Sys2Proof.Claims

namespace Sys2Proof.Tests

-- One theorem after another: each `decide` evaluates a step, and a run of them at once fills the memory of a small machine.
set_option Elab.async false

/-! ### Configurations and start states of 95_test_vectors.md -/

theorem prime_13 : Nat.Prime 13 := by norm_num

/-- The parameters of `CFG_TOY13`. -/
def toyParams : Params := { Params.atReset with fd := { p := 13, numLimbs := 32, limbBits := 8 }, edD := 2 }

/-- `CFG_TOY13`. -/
def toy : Config :=
  { toyParams with
    wellFormed :=
      { limbLength := by decide
        limbBits := by decide
        primeP := prime_13
        oddP := by decide
        boundP := by decide +kernel
        curveConstant := by decide
        primeQ := prime_mersenne31
        permutation := by decide
        roundFnShaped := by decide
        noWrap := fun _ => by decide +kernel
        wordsFit := fun _ => by decide +kernel } }

/-- The parameters of `CFG_PERM_TOY`, which has the PERM chip only. -/
def permToyParams : Params := { Params.atReset with q := 101, hasEd := false }

/-- `CFG_PERM_TOY`. -/
def permToy : Config :=
  { permToyParams with
    wellFormed :=
      { limbLength := by decide
        limbBits := by decide
        primeP := prime_25519
        oddP := by decide +kernel
        boundP := by decide +kernel
        curveConstant := by decide +kernel
        primeQ := (by norm_num : Nat.Prime 101)
        permutation := by decide
        roundFnShaped := by decide
        noWrap := fun h => absurd h (by decide)
        wordsFit := fun _ => by decide +kernel } }

/-- `FP_MINI`, which drives the units only, as functions: no engine has it, for it has not 256 bits. -/
def mini : FieldDesc := { p := 13, numLimbs := 2, limbBits := 3 }

/-- A number in 32 limbs of 8 bits. -/
def limb32 (v : Nat) : List Nat := limbs 256 32 v

/-- An engine with `x[REG_A] = a`, `x[REG_B] = b`, the memory words of `m` and a clock. -/
def start (c : Config) (a b : Word) (m : List (Nat × Word)) (clk : Word) : Machine.State :=
  Machine.State.launch c ((Regs.write [] 1 a).write 2 b) (m.foldl (fun m e => m.writeWord e.1 e.2) []) clk

/-- The start state of V20: P = (2, 9), Q = (3, 11). -/
def edStart : Machine.State := start toy 0x1000 0x2000 [(0x1000, 2), (0x1020, 9), (0x2000, 3), (0x2020, 11)] 100

/-- The start state of V25. -/
def permStart : Machine.State := start permToy 0x40 0 [(0x40, 5), (0x44, 7)] 8

/-- An engine on `c` with the pairs of these numbers on the operand port. -/
def pairs (c : Config) (ps : List (Nat × Nat)) : Machine.State :=
  let s := start c 0 0 [] 0
  { s with operands := { s.operands with pairs := ps.map (fun ab => (limb32 ab.1, limb32 ab.2)) } }

/-- The same state with an address and a word on the operand port. -/
def access (addr value : Word) (s : Machine.State) : Machine.State :=
  { s with operands := { s.operands with addr := addr, value := value } }

/-- Whether an outcome is a next state of which `p` holds. -/
def nextWith (o : Host.Outcome Machine.State Fault Refusal) (p : Machine.State → Bool) : Bool :=
  match o with
  | .next t => p t
  | .fault _ => false
  | .refused _ => false

theorem exists_next {o : Host.Outcome Machine.State Fault Refusal} {p : Machine.State → Bool}
    (h : nextWith o p = true) : ∃ t, o = .next t ∧ p t = true := by
  cases o with
  | next t => exact ⟨t, rfl, h⟩
  | fault f => simp [nextWith] at h
  | refused r => simp [nextWith] at h

/-- Whether an outcome is the refusal `r`. -/
def refusedWith (o : Host.Outcome Machine.State Fault Refusal) (r : Refusal) : Bool :=
  match o with
  | .next _ => false
  | .fault _ => false
  | .refused q => decide (q = r)

/-- A step completed: a next state with no fault. -/
def completes (o : Host.Outcome Machine.State Fault Refusal) : Bool :=
  nextWith o (fun t => decide (t.fstat.kind = .none))

/-- A step took the fault `f` at clock `clk`. -/
def takes (o : Host.Outcome Machine.State Fault Refusal) (f : Fault) (clk : Word) : Bool :=
  nextWith o (fun t => decide (t.fstat = FStat.ofFault f ∧ t.clk = clk))

theorem exists_completed {o : Host.Outcome Machine.State Fault Refusal} (h : completes o = true) :
    ∃ t, o = .next t ∧ t.fstat.kind = .none := by simpa using exists_next h

theorem exists_faulted {o : Host.Outcome Machine.State Fault Refusal} {f : Fault} {clk : Word}
    (h : takes o f clk = true) : ∃ t, o = .next t ∧ t.fstat.kind ≠ .none := by
  obtain ⟨t, ht, h2⟩ := exists_next h
  have h3 : t.fstat = FStat.ofFault f ∧ t.clk = clk := by simpa using h2
  exact ⟨t, ht, by rw [h3.1]; cases f <;> simp [FStat.ofFault]⟩

/-- The state after a step, or the state before it when there is none. -/
def after (o : Host.Outcome Machine.State Fault Refusal) (s : Machine.State) : Machine.State :=
  match o with
  | .next t => t
  | .fault _ => s
  | .refused _ => s

/-! ### WellFormed: each check refuses an ill-formed term -/

theorem test_wf_fpip_zero : (Instr.fpip 0).wf = false := by decide
theorem test_wf_fpip_three : (Instr.fpip 3).wf = false := by decide
theorem test_wf_fpip_two : (Instr.fpip 2).wf = true := by decide
/-- The parameters at reset on another descriptor. -/
def onField (fd : FieldDesc) : Params := { Params.atReset with fd := fd }

/-- 00_scope.md R10(a): `FP_MINI` has not 256 bits. -/
theorem test_illFormed_a : ¬ (onField mini).WellFormed := fun h => absurd h.limbLength (by decide)
/-- R10(b): limbs of 32 bits, and limbs of no bits. -/
theorem test_illFormed_b : ¬ (onField { mini with numLimbs := 8, limbBits := 32 }).WellFormed ∧
    ¬ (onField { mini with limbBits := 0 }).WellFormed :=
  ⟨fun h => absurd h.limbBits (by decide), fun h => absurd h.limbBits (by decide)⟩
/-- R10(c): a composite modulus, an even one, and one above `2^255`. -/
theorem test_illFormed_c : ¬ (onField { toy.fd with p := 15 }).WellFormed ∧ ¬ (onField { toy.fd with p := 2 }).WellFormed ∧
    ¬ (onField { toy.fd with p := 2 ^ 255 + 95 }).WellFormed :=
  ⟨fun h => absurd h.primeP (by norm_num [onField]), fun h => absurd h.oddP (by decide),
    fun h => absurd h.boundP (by decide +kernel)⟩
/-- R10(d): `d = p`. -/
theorem test_illFormed_d : ¬ { toyParams with edD := 13 }.WellFormed := fun h => absurd h.curveConstant (by decide)
/-- R10(e): a composite `Q`. -/
theorem test_illFormed_e : ¬ { toyParams with q := 2 ^ 31 }.WellFormed := fun h => absurd h.primeQ (by norm_num)
/-- R10(f): no words, no rounds, and a matrix that is not `N x N`. -/
theorem test_illFormed_f : ¬ { toyParams with permN := 0 }.WellFormed ∧ ¬ { toyParams with permRounds := 0 }.WellFormed ∧
    ¬ { toyParams with permN := 3 }.WellFormed :=
  ⟨fun h => absurd h.permutation (by decide), fun h => absurd h.permutation (by decide),
    fun h => absurd h.roundFnShaped (by decide)⟩
/-- R10(g) and V34: `Q > 8372543` is asked of an engine with the ED chip. -/
theorem test_illFormed_g : ¬ { toyParams with q := 8372543 }.WellFormed ∧ ¬ { permToyParams with hasEd := true }.WellFormed :=
  ⟨fun h => absurd (h.noWrap rfl) (by decide +kernel), fun h => absurd (h.noWrap rfl) (by decide +kernel)⟩
/-- R10(h). -/
theorem test_illFormed_h : ¬ { toyParams with q := 2 ^ 32 + 1 }.WellFormed :=
  fun h => absurd (h.wordsFit rfl) (by decide +kernel)
/-- What the units need of a descriptor: not an even modulus, nor one with `2·37 > 64`. -/
theorem test_unitOk : mini.unitOk = true ∧ { mini with p := 12 }.unitOk = false ∧ { mini with p := 37 }.unitOk = false := by
  decide
/-- `CFG_PERM_TOY` has no ED chip. -/
theorem test_chip_absent : refusedWith (exec .edadd (start permToy 0x1000 0x2000 [] 0)) (.chipAbsent .ed) = true ∧
    refusedWith (exec (.gentrace .ed) (start permToy 0 0 [] 0)) (.chipAbsent .ed) = true ∧
    refusedWith (exec (.eval .ed) (start permToy 0 0 [] 0)) (.chipAbsent .ed) = true := by decide +kernel

/-! ### Decode: the words of V10, bit by bit from 30_encoding.md R80 and R84 -/

theorem test_decode_guest : decode .guest 0x00000001 = .ok .edadd ∧ decode .guest 0x00000002 = .ok .perm := by decide
theorem test_decode_fpop : decode .unit 0x00000010 = .ok .fpadd ∧ decode .unit 0x00000110 = .ok .fpsub ∧
    decode .unit 0x00000210 = .ok .fpmul := by decide
theorem test_decode_fpip : decode .unit 0x00010011 = .ok (.fpip 1) ∧ decode .unit 0x00020011 = .ok (.fpip 2) := by decide
theorem test_decode_fpden : decode .unit 0x00000012 = .ok .fpdenP ∧ decode .unit 0x00000112 = .ok .fpdenM := by decide
theorem test_decode_recorder : decode .unit 0x00000020 = .ok .mrd ∧ decode .unit 0x00000021 = .ok .mwr := by decide
theorem test_decode_width : decode .host 0x00000030 = .ok (.width .ed) ∧
    decode .host 0x00000130 = .ok (.width .perm) := by decide
theorem test_decode_gentrace : decode .host 0x00000031 = .ok (.gentrace .ed) ∧
    decode .host 0x00000131 = .ok (.gentrace .perm) := by decide
theorem test_decode_eval : decode .host 0x00000032 = .ok (.eval .ed) ∧
    decode .host 0x00000132 = .ok (.eval .perm) := by decide
theorem test_decode_illegal :
    decode .guest 0x00000000 = .error .unknownOpcode ∧ decode .unit 0x00000310 = .error .badFunction ∧
    decode .unit 0x00000011 = .error .badTermCount ∧ decode .unit 0x00030011 = .error .badTermCount ∧
    decode .unit 0x00010010 = .error .badTermCount ∧ decode .guest 0x01000001 = .error .reservedBits ∧
    decode .guest 0x00000101 = .error .badFunction ∧ decode .host 0x00000230 = .error .badFunction ∧
    decode .host 0x00000001 = .error .wrongPort ∧ decode .guest 0x00000031 = .error .wrongPort := by decide
theorem test_opcode_rows_disjoint : opcodeRows.Pairwise (fun r t => r.matchWord ≠ t.matchWord) := by decide

/-- Reset's memory and registers are in canonical form. -/
theorem test_reset_wf : State.reset.mem.wf = true ∧ State.reset.x.wf = true := by decide

/-! ### The recorder (V11) -/

/-- The start state of V11. -/
def recorderStart : Machine.State := start toy 0 0 [(0x1000, 2), (0x1004, 0xFFFFFFFF)] 100

theorem test_mrd : nextWith (exec .mrd (access 0x1004 0 recorderStart)) (fun t => decide
    (t.result = some ⟨.unit, .wordRead 0xFFFFFFFF ⟨0x1004, 100, 0xFFFFFFFF, 0xFFFFFFFF⟩⟩ ∧ t.clk = 100 ∧
      t.mrb = [⟨0x1004, 100, 0xFFFFFFFF, 0xFFFFFFFF⟩])) = true := by decide +kernel
theorem test_mrd_misaligned : takes (exec .mrd (access 0x1002 0 recorderStart)) (.alignmentError 0x1002) 100 = true := by
  decide +kernel
theorem test_mwr : nextWith (exec .mwr (access 0x1000 6 recorderStart)) (fun t => decide
    (t.result = some ⟨.unit, .wordWritten ⟨0x1000, 100, 2, 6⟩⟩ ∧ t.mem.readWord 0x1000 = 6 ∧
      t.mem.readWord 0x1004 = 0xFFFFFFFF)) = true := by decide +kernel
theorem test_mwr_misaligned : takes (exec .mwr (access 0x1001 9 recorderStart)) (.alignmentError 0x1001) 100 = true := by
  decide +kernel

/-! ### The units: the functions on FP_MINI (V12 to V19), the commands on CFG_ED25519 (V33) and CFG_TOY13 (P4) -/

theorem test_fpadd_mini : populate .add mini [([6, 0], [7, 0])] = .ok ⟨[0, 0], [1, 0], [1, 0]⟩ ∧
    populate .add mini [([4, 1], [4, 1])] = .ok ⟨[3, 1], [1, 0], [0, 0]⟩ := by decide
theorem test_fpsub_mini : populate .sub mini [([7, 0], [3, 1])] = .ok ⟨[1, 1], [1, 0], [1, 0]⟩ ∧
    populate .sub mini [([3, 1], [7, 0])] = .ok ⟨[4, 0], [0, 0], [-1, 0]⟩ := by decide
theorem test_fpmul_mini : populate .mul mini [([7, 0], [3, 1])] = .ok ⟨[4, 1], [5, 0], [-1, 0]⟩ ∧
    populate .mul mini [([4, 1], [4, 1])] = .ok ⟨[1, 0], [3, 1], [0, 0]⟩ := by decide
theorem test_fpip_mini : populate (.ip 2) mini [([7, 0], [3, 1]), ([3, 1], [7, 0])] = .ok ⟨[3, 1], [3, 1], [3, 1]⟩ ∧
    populate (.ip 1) mini [([5, 0], [0, 1])] = .ok ⟨[1, 0], [3, 0], [-2, 0]⟩ := by decide
theorem test_fpden_mini : populate .denP mini [([7, 0], [3, 0])] = .ok ⟨[5, 0], [1, 0], [1, 0]⟩ ∧
    populate .denP mini [([7, 0], [4, 1])] = .error .noInverse ∧
    populate .denM mini [([1, 0], [4, 1])] = .ok ⟨[7, 0], [6, 0], [-1, 0]⟩ ∧
    populate .denM mini [([7, 0], [1, 0])] = .error .noInverse := by decide
/-- V18: the order of the operand checks. -/
theorem test_operand_checks_mini : populate .add mini [([7], [3, 1])] = .error .limbCountMismatch ∧
    populate .add mini [([8, 0], [3, 1])] = .error .limbOutOfRange ∧
    populate .add mini [([5, 1], [0, 0])] = .error .nonCanonicalOperand ∧
    populate .add mini [([8], [3, 1])] = .error .limbCountMismatch := by decide
/-- V19: the honest group passes, and each failing variant fails. -/
theorem test_unit_eval :
    let passes := unitPasses (2 ^ 31 - 1) mini .mul [([7, 0], [3, 1])]
    passes ⟨[4, 1], [5, 0], [2147483646, 0]⟩ = true ∧ passes ⟨[5, 1], [5, 0], [2147483646, 0]⟩ = false ∧
    passes ⟨[4, 1], [5, 0], [1, 0]⟩ = false ∧ passes ⟨[4, 1], [8, 0], [2147483646, 0]⟩ = false ∧
    passes ⟨[4, 1], [5, 0], [1073741823, 0]⟩ = false := by decide +kernel

/-- Whether a step returned result `c` and quotient `k`, with 62 carries that begin with `t`. -/
def returns (o : Host.Outcome Machine.State Fault Refusal) (c k : Nat) (t : List Int) : Bool :=
  nextWith o (fun s =>
    match s.result with
    | some ⟨.unit, .triple u⟩ => decide (u.res = limb32 c ∧ u.quot = limb32 k ∧ u.carry.take t.length = t ∧
        u.carry.length = 62)
    | _ => false)

/-- The default modulus. -/
def p25519 : Nat := 2 ^ 255 - 19

theorem test_fpadd : returns (exec .fpadd (pairs Config.atReset [(p25519 - 1, p25519 - 1)])) (p25519 - 2) 1
    (List.replicate 62 0) = true := by decide +kernel
theorem test_fpsub : returns (exec .fpsub (pairs Config.atReset [(0, 1)])) (p25519 - 1) 1 (List.replicate 62 0) = true := by
  decide +kernel
theorem test_fpmul : returns (exec .fpmul (pairs Config.atReset [(2 ^ 128, 2 ^ 128)])) 38 2 [-2, -2, -2, -2] = true := by
  decide +kernel
/-- P4. -/
theorem test_fpip : returns (exec (.fpip 2) (pairs toy [(2, 11), (3, 9)])) 10 3 [] = true := by decide +kernel
theorem test_fpdenP : returns (exec .fpdenP (pairs Config.atReset [(1, 1)]))
    0x3ffffffffffffffffffffffffffffffffffffffffffffffffffffffffffffff7 1 [1, 1, 1, 1] = true := by decide +kernel
theorem test_fpdenP_noInverse : takes (exec .fpdenP (pairs Config.atReset [(7, p25519 - 1)]))
    (.arithmeticDefect .noInverse) 0 = true := by decide +kernel
theorem test_fpdenM : returns (exec .fpdenM (pairs Config.atReset [(1, 2)])) (p25519 - 1) 1 (List.replicate 62 0) = true := by
  decide +kernel
theorem test_fpdenM_noInverse : takes (exec .fpdenM (pairs Config.atReset [(7, 1)]))
    (.arithmeticDefect .noInverse) 0 = true := by decide +kernel
/-- 41_fp_units.md R131: the largest canonical value plus one is turned down. -/
theorem test_fpadd_nonCanonical : takes (exec .fpadd (pairs Config.atReset [(0, p25519)]))
    (.arithmeticDefect .nonCanonicalOperand) 0 = true := by decide +kernel
/-- R141's example: `-1` is the cell `2147483646` when `Q = 2^31 - 1`. -/
theorem test_carry_cell : carryCell (2 ^ 31 - 1) (-1) = 2147483646 ∧ signedCell (2 ^ 31 - 1) 2147483646 = -1 := by decide

/-! ### EDADD on CFG_TOY13 (V20, V23, V28) -/

theorem test_edadd : nextWith (exec .edadd edStart) (fun t => decide
    (t.mem.readWord 0x1000 = 6 ∧ t.mem.readWord 0x1020 = 3 ∧ t.mem.readWord 0x2000 = 3 ∧ t.clk = 148 ∧
      (t.logEd.map (fun e => (e.pReadRecords ++ e.qReadRecords ++ e.pWriteRecords)[40]?)) =
        [some ⟨0x1020, 140, 9, 3⟩])) = true := by decide +kernel
theorem test_edadd_faults :
    takes (exec .edadd { edStart with x := [(1, 0x1000), (2, 0x2001)] }) (.alignmentError 0x2001) 116 = true ∧
    takes (exec .edadd { edStart with mem := edStart.mem.writeWord 0x103C 0x80000000 })
      (.arithmeticDefect .nonCanonicalOperand) 132 = true ∧
    refusedWith (exec .edadd { edStart with clk := 0xFFFFFFD0 }) .clockOverflow = true ∧
    refusedWith (exec .edadd { edStart with x := [(1, 0xFFFFFFC4), (2, 0x2000)] }) (.regionPastTop 0xFFFFFFC4) = true ∧
    takes (exec .edadd { edStart with x := [(1, 0xFFFFFFC6), (2, 0x2000)] }) (.alignmentError 0xFFFFFFC6) 100 = true := by
  decide +kernel

/-! ### PERM on CFG_PERM_TOY (V25, V26) -/

theorem test_perm : nextWith (exec .perm permStart) (fun t => decide
    (t.mem.readWord 0x40 = 42 ∧ t.mem.readWord 0x44 = 10 ∧ t.clk = 16 ∧
      t.logPerm.map (·.stateWrites) = [[[⟨0x40, 10, 5, 50⟩, ⟨0x44, 11, 7, 80⟩], [⟨0x40, 14, 50, 42⟩, ⟨0x44, 15, 80, 10⟩]]])) =
    true := by decide +kernel
theorem test_perm_faults :
    takes (exec .perm { permStart with x := [(1, 0x42)] }) (.alignmentError 0x42) 8 = true ∧
    takes (exec .perm { permStart with mem := permStart.mem.writeWord 0x44 101 })
      (.arithmeticDefect .nonCanonicalOperand) 10 = true ∧
    refusedWith (exec .perm { permStart with clk := 0xFFFFFFF8 }) .clockOverflow = true ∧
    refusedWith (exec .perm { permStart with x := [(1, 0xFFFFFFFC)] }) (.regionPastTop 0xFFFFFFFC) = true := by
  decide +kernel

/-! ### WIDTH, GENTRACE, EVAL (V27 to V29, V35) -/

theorem test_width : nextWith (exec (.width .ed) State.reset) (fun t => decide (t.result = some ⟨.host, .width 1203⟩)) =
    true ∧ nextWith (exec (.width .perm) permStart) (fun t => decide (t.result = some ⟨.host, .width 12⟩)) = true := by
  decide +kernel
theorem test_pad_height : [0, 1, 2, 3, 4, 5, 6].map padHeight = [1, 1, 2, 4, 4, 8, 8] := by decide +kernel

/-- V25 after one PERM, and after GENTRACE PERM. -/
def permDone : Machine.State := after (exec .perm permStart) permStart
def permTraced : Machine.State := after (exec (.gentrace .perm) permDone) permDone

theorem test_gentrace_perm : permTraced.tracePerm =
    some [[8, 64, 1, 0, 1, 0, 5, 7, 50, 80, 0, 0], [12, 64, 1, 1, 0, 1, 50, 80, 42, 10, 93, 31]] ∧
    permTraced.sealedPerm = true := by decide +kernel
/-- V35: a clock that fits no cell. -/
theorem test_gentrace_overflow :
    takes (exec (.gentrace .perm) (after (exec .perm { permStart with clk := 200 }) permStart))
      (.arithmeticDefect .cellOverflow) 208 = true := by decide +kernel

/-- Whether EVAL PERM on row `i` of a matrix answers the verdict `b`. -/
def evalPermIs (m : Matrix) (i : Nat) (b : Bool) : Bool :=
  nextWith (exec (.eval .perm) (atRow { permTraced with tracePerm := some m } i))
    (fun t => decide (t.result = some ⟨.host, .verdict b⟩))

/-- R235: the honest rows pass, and three changes of them fail. -/
theorem test_eval_perm :
    let row0 := [8, 64, 1, 0, 1, 0, 5, 7, 50, 80, 0, 0]
    let row1 := [12, 64, 1, 1, 0, 1, 50, 80, 42, 10, 93, 31]
    evalPermIs [row0, row1] 0 true = true ∧ evalPermIs [row0, row1] 1 true = true ∧
    evalPermIs [row0, row1.set 6 51] 0 false = true ∧ evalPermIs [row0, row1.set 10 94] 1 false = true ∧
    evalPermIs [row0.set 2 0, row1] 0 false = true := by decide +kernel

/-- V20 after EDADD, and after GENTRACE ED. -/
def edDone : Machine.State := after (exec .edadd edStart) edStart
def edTraced : Machine.State := after (exec (.gentrace .ed) edDone) edDone

/-- The row of V28: its 25 non-zero cells, by offset. -/
def v28Row : List Nat :=
  ([(0, 100), (1, 4096), (2, 8192), (3, 2), (7, 6), (67, 9), (71, 3), (131, 3), (163, 11)] ++
    List.zip [195, 321, 447, 573, 699, 825, 951, 1077] [10, 1, 5, 7, 9, 5, 6, 3] ++
    List.zip [227, 353, 479, 605, 731, 857, 983, 1109] [3, 8, 1, 2, 2, 1, 2, 1]).foldl
      (fun (row : List Nat) (e : Nat × Nat) => row.set e.1 e.2) (List.replicate 1203 0)

theorem test_gentrace_ed : edTraced.traceEd = some [v28Row] ∧ edTraced.sealedEd = true := by decide +kernel

/-- `EVAL ED, 0` on it: true. -/
theorem test_eval_ed : edVerdict toy v28Row = some true := by decide +kernel
/-- With one added to cell 7 (`p_access[0].new[0]`, constraint C10) or to cell 259 (a carry, C2): false. -/
theorem test_eval_ed_changed : edVerdict toy (v28Row.set 7 7) = some false ∧
    edVerdict toy (v28Row.set 259 1) = some false := by decide +kernel

/-! ### Witnesses: states and operands that meet the hypotheses of the obligations -/

/-- Encoding: the words at the edges of each clause of 30_encoding.md R86. -/
theorem witness_ReservedEncodingsAreIllegal :
    fieldRsv 0x01000001 ≠ 0 ∧ fieldOpc 0x00000013 ∉ [0x01, 0x02, 0x10, 0x11, 0x12, 0x20, 0x21, 0x30, 0x31, 0x32] ∧
    fieldOpc 0x00010010 ≠ 0x11 ∧ fieldN 0x00010010 ≠ 0 ∧ fieldOpc 0x00000011 = 0x11 ∧ fieldN 0x00000011 = 0 ∧
    Config.ipMax < fieldN 0x00030011 ∧ fieldFn 0x00000101 ≠ 0 ∧ 2 < fieldFn 0x00000310 ∧ 1 < fieldFn 0x00000212 ∧
    1 < fieldFn 0x00000230 ∧ decode .guest 0x00000001 = .ok .edadd ∧ Port.host ≠ Port.guest ∧
    Presented .unit 0x00000011 { State.reset with inputs := [.unit 0x00000011 State.reset.operands] } := by
  refine ⟨by decide, by decide, by decide, by decide, by decide, by decide, by decide, by decide, by decide, by decide,
    by decide, by decide, by decide, _, _, rfl⟩

theorem witness_StepRunsTheDecodedCommand :
    ({ edStart with inputs := [.guest] } : Machine.State).inputs = [.guest] ∧
    decode .guest (Regs.read [(0, 1)] edStart.cfg.regOpcode) = .ok .edadd ∧
    decode .guest (edStart.x.read edStart.cfg.regOpcode) = .error .unknownOpcode ∧
    decode .unit 0x00000210 = .ok .fpmul ∧ decode .unit 0 = .error .unknownOpcode ∧
    decode .host 0x00000132 = .ok (.eval .perm) ∧ decode .host 0 = .error .unknownOpcode := by decide +kernel

theorem witness_PresentedWordRunsItsCommand : (Instr.fpip 1).wf = true ∧ (Instr.fpip 2).wf = true ∧
    Instr.edadd.wf = true := by decide

theorem witness_EngineHoldsItsStateBetweenCommands : edStart.inputs = [] ∧
    ∀ i ∈ [Input.setReg 1 0x2000, .setMem 0 7, .setMem (-1) 7, .setClk 5, .reset],
      ({ edStart with inputs := [i] } : Machine.State).inputs = i :: [] := by
  exact ⟨rfl, fun _ _ => rfl⟩

theorem witness_ResetRestoresTheEngineOwnedState :
    ({ edStart with inputs := [.reset], sealedEd := true } : Machine.State).inputs = .reset :: [] := rfl

theorem witness_ConfigurationNeverChanges : ∃ t, step edStart = .next t := ⟨edStart, rfl⟩

theorem witness_InvariantHoldsAtLaunch : edStart.x.wf = true ∧ edStart.mem.wf = true := by decide +kernel

/-- A state with nothing in its logs meets the invariant when its memory and registers are canonical. -/
theorem inv_edStart : edStart.Inv where
  mem := by decide +kernel
  regs := by decide +kernel
  fstat := .inl rfl
  records := fun _ h => absurd h (by exact List.not_mem_nil)
  logEd := fun _ h => absurd h (by exact List.not_mem_nil)
  logPerm := fun _ h => absurd h (by exact List.not_mem_nil)
  sealEd := by decide
  sealPerm := by decide
  traceEd := fun _ h => nomatch h
  tracePerm := fun _ h => nomatch h

/-- The event of `permDone`. -/
def permEvent : PermEvent where
  clock := 8
  statePtr := 0x40
  stateReads := permReadRecords permToy 0x40 8 [5, 7]
  stateWrites := permWriteRecords permToy 0x40 8 [5, 7]

theorem permTraced_logPerm : permTraced.logPerm = [permEvent] := by decide +kernel
theorem permTraced_cfg : permTraced.cfg = permToy := by decide +kernel

theorem permEvent_honest : permEvent.Honest permToy :=
  ⟨by decide, ⟨by decide, by decide⟩, by decide, [5, 7], by decide, by decide, rfl, rfl⟩

theorem permEvent_fits : PermEventFits permToy permEvent := ⟨by decide, by decide⟩

theorem ok_of_toOption {e : Except DefectCause Matrix} {m : Matrix} (h : e.toOption = some m) : e = .ok m := by
  cases e with
  | ok n => simpa [Except.toOption] using h
  | error d => simp [Except.toOption] at h

/-- A state that GENTRACE PERM has left meets the invariant. -/
theorem inv_permTraced : permTraced.Inv where
  mem := by decide +kernel
  regs := by decide +kernel
  fstat := .inl (by decide +kernel)
  records := by
    have : permTraced.mrb = [] := by decide +kernel
    simp [this]
  logEd := by
    have : permTraced.logEd = [] := by decide +kernel
    simp [this]
  logPerm := by
    rw [permTraced_logPerm, permTraced_cfg]
    simpa using permEvent_honest
  sealEd := by decide +kernel
  sealPerm := by decide +kernel
  traceEd := by
    have : permTraced.traceEd = none := by decide +kernel
    simp [this]
  tracePerm := by
    have h1 : permTraced.cfg.hasPerm = true := by decide +kernel
    have h2 : (permMatrix permTraced.cfg permTraced.logPerm).toOption = permTraced.tracePerm := by decide +kernel
    exact fun m hm => ⟨h1, ok_of_toOption (h2.trans hm)⟩

theorem witness_StepKeepsTheInvariant : permTraced.Inv ∧ ∃ t, step permTraced = .next t := by
  refine ⟨inv_permTraced, permTraced, ?_⟩
  have : permTraced.inputs = [] := by decide +kernel
  simp [step, fetch, this]

/-- `edStart` after a misaligned EDADD. -/
def edFaulted : Machine.State := { edStart with fstat := FStat.ofFault (.alignmentError 0x2001) }

theorem witness_CommandsAfterAFaultAreRefused : edFaulted.fstat.kind ≠ .none ∧ (Instr.width .ed).wf = true ∧
    isCommand .guest = true ∧ ({ edFaulted with inputs := [.reset] } : Machine.State).inputs = [.reset] := by decide

/-- Every kind of fault, and each clock the statement gives. -/
theorem witness_FaultLeavesTheStateOfTheTable :
    (∃ t, exec .edadd { edStart with x := [(1, 0x1002), (2, 0x2000)] } = .next t ∧ t.fstat.kind ≠ .none) ∧
    (∃ t, exec .edadd { edStart with x := [(1, 0x1000), (2, 0x2001)] } = .next t ∧ t.fstat.kind ≠ .none) ∧
    (∃ t, exec .edadd { edStart with mem := edStart.mem.writeWord 0x1000 13 } = .next t ∧ t.fstat.kind ≠ .none) ∧
    (∃ t, exec .perm { permStart with x := [(1, 0x42)] } = .next t ∧ t.fstat.kind ≠ .none) ∧
    (∃ t, exec .perm { permStart with mem := permStart.mem.writeWord 0x44 101 } = .next t ∧ t.fstat.kind ≠ .none) ∧
    ∃ t, exec .fpdenP (pairs toy [(7, 12)]) = .next t ∧ t.fstat.kind ≠ .none := by
  refine ⟨exists_faulted (f := .alignmentError 0x1002) (clk := 100) ?_,
    exists_faulted (f := .alignmentError 0x2001) (clk := 116) ?_,
    exists_faulted (f := .arithmeticDefect .nonCanonicalOperand) (clk := 132) ?_,
    exists_faulted (f := .alignmentError 0x42) (clk := 8) ?_,
    exists_faulted (f := .arithmeticDefect .nonCanonicalOperand) (clk := 10) ?_,
    exists_faulted (f := .arithmeticDefect .noInverse) (clk := 0) ?_⟩ <;> decide +kernel

theorem witness_FaultsByCommand : edStart.Inv ∧
    (∃ t, exec .mrd { edStart with operands := { edStart.operands with addr := 2 } } = .next t ∧ t.fstat.kind ≠ .none) ∧
    ∃ t, exec .fpadd { edStart with operands := { edStart.operands with pairs := [] } } = .next t ∧
      t.fstat.kind ≠ .none := by
  refine ⟨inv_edStart, exists_faulted (f := .alignmentError 2) (clk := 100) ?_,
    exists_faulted (f := .arithmeticDefect .limbCountMismatch) (clk := 100) ?_⟩ <;> decide +kernel

/-- Every command completes somewhere (also for ClockAdvancesPerCompletedCommand and the schedules of records). -/
theorem witness_OnlyTheNamedCommandsWriteEachState :
    (∃ t, exec .edadd edStart = .next t ∧ t.fstat.kind = .none) ∧
    (∃ t, exec .perm permStart = .next t ∧ t.fstat.kind = .none) ∧
    (∀ i ∈ [Instr.fpadd, .fpsub, .fpmul, .fpip 1, .fpip 2, .fpdenP, .fpdenM, .mrd, .mwr, .width .ed, .width .perm],
      ∃ t, exec i (pairs toy [(7, 3), (3, 7)]) = .next t ∧ t.fstat.kind = .none) ∧
    (∃ t, exec (.gentrace .perm) permDone = .next t ∧ t.fstat.kind = .none) ∧
    ∃ t, exec (.eval .perm) permTraced = .next t ∧ t.fstat.kind = .none := by
  refine ⟨exists_completed (by decide +kernel), exists_completed (by decide +kernel), ?_,
    exists_completed (by decide +kernel), exists_completed (by decide +kernel)⟩
  have h : ([Instr.fpadd, .fpsub, .fpmul, .fpip 1, .fpip 2, .fpdenP, .fpdenM, .mrd, .mwr, .width .ed, .width .perm].all
      (fun i => completes (exec i (pairs toy [(7, 3), (3, 7)])))) = true := by decide +kernel
  intro i hi
  exact exists_completed (List.all_eq_true.mp h i hi)

theorem witness_ClockAdvancesPerCompletedCommand :
    ∃ t, exec .edadd { edStart with clk := 0xFFFFFFCF } = .next t ∧ t.fstat.kind = .none :=
  exists_completed (by decide +kernel)

/-- The highest P region, and addresses just below and just above each stored region. -/
theorem witness_StoresStayInTheirRegion :
    (∃ t, exec .mwr (access 0x1000 6 recorderStart) = .next t ∧ (0xFFF < 0x1000 ∨ 0x1000 + 4 ≤ 0xFFF)) ∧
    (∃ t, exec .edadd { edStart with x := [(1, 0xFFFFFFC0), (2, 0x2000)] } = .next t ∧
      0xFFFFFFBF < (pointerA { edStart with x := [(1, 0xFFFFFFC0), (2, 0x2000)] }).toNat) ∧
    ∃ t, exec .perm permStart = .next t ∧ (pointerA permStart).toNat + 4 * permStart.cfg.permN ≤ 0x48 := by
  obtain ⟨t, ht, -⟩ := exists_completed (o := exec .mwr (access 0x1000 6 recorderStart)) (by decide +kernel)
  obtain ⟨u, hu, -⟩ := exists_completed (o := exec .edadd { edStart with x := [(1, 0xFFFFFFC0), (2, 0x2000)] })
    (by decide +kernel)
  obtain ⟨v, hv, -⟩ := exists_completed (o := exec .perm permStart) (by decide +kernel)
  exact ⟨⟨t, ht, by decide⟩, ⟨u, hu, by decide +kernel⟩, ⟨v, hv, by decide +kernel⟩⟩

/-- Lowest and highest addresses. -/
theorem witness_MrdReadsAndRecords : recorderStart.fstat.kind = .none ∧
    (access 0 6 recorderStart).operands.addr.toNat % 4 = 0 ∧
    (access 0xFFFFFFFC 6 recorderStart).operands.addr.toNat % 4 = 0 ∧
    (access 1 6 recorderStart).operands.addr.toNat % 4 ≠ 0 ∧
    (access 0xFFFFFFFF 6 recorderStart).operands.addr.toNat % 4 ≠ 0 := by decide +kernel

theorem witness_MwrWritesAndRecords : recorderStart.fstat.kind = .none ∧
    (access 0xFFFFFFFC 6 recorderStart).operands.addr.toNat % 4 = 0 ∧
    (access 0xFFFFFFFE 6 recorderStart).operands.addr.toNat % 4 ≠ 0 := by decide +kernel

/-! The units: operands of `CFG_TOY13`, canonical at the edges `0` and `p - 1`. -/

theorem canonical_toy : ∀ v ∈ [0, 1, 7, 11, 12], CanonicalLimbs toy.fd (limb32 v) := by
  unfold CanonicalLimbs
  decide +kernel

theorem canonicalPair_of {a b : Nat} (ha : a ∈ [0, 1, 7, 11, 12]) (hb : b ∈ [0, 1, 7, 11, 12]) :
    CanonicalPair (pairs toy [(a, b)]) (limb32 a) (limb32 b) :=
  ⟨rfl, canonical_toy a ha, canonical_toy b hb⟩

theorem witness_FpaddReturnsTheSum : UnitReady (pairs toy [(12, 12)]) ∧
    CanonicalPair (pairs toy [(12, 12)]) (limb32 12) (limb32 12) := ⟨rfl, canonicalPair_of (by decide) (by decide)⟩

theorem witness_FpsubReturnsTheDifference : UnitReady (pairs toy [(0, 12)]) ∧
    CanonicalPair (pairs toy [(0, 12)]) (limb32 0) (limb32 12) := ⟨rfl, canonicalPair_of (by decide) (by decide)⟩

theorem witness_FpmulReturnsTheProduct : UnitReady (pairs toy [(7, 11)]) ∧
    CanonicalPair (pairs toy [(7, 11)]) (limb32 7) (limb32 11) := ⟨rfl, canonicalPair_of (by decide) (by decide)⟩

theorem witness_FpipReturnsTheInnerProduct : ∀ n ∈ [1, 2],
    let s := pairs toy [(7, 11), (11, 7)]
    UnitReady s ∧ 1 ≤ n ∧ n ≤ Config.ipMax ∧ ∀ v ∈ vectorsOf (operandPairs s n), CanonicalLimbs s.cfg.fd v := by
  unfold UnitReady CanonicalLimbs
  decide +kernel

/-- The largest `b` whose `1 + b` is invertible, and the one above it. -/
theorem witness_FpdenPReturnsTheQuotient :
    (let s := pairs toy [(7, 11)]
     UnitReady s ∧ CanonicalPair s (limb32 7) (limb32 11) ∧ value s (limb32 11) ≠ s.cfg.fd.p - 1) ∧
    let s := pairs toy [(0, 12)]
    UnitReady s ∧ CanonicalPair s (limb32 0) (limb32 12) ∧ value s (limb32 12) = s.cfg.fd.p - 1 :=
  ⟨⟨rfl, canonicalPair_of (by decide) (by decide), by decide +kernel⟩,
    rfl, canonicalPair_of (by decide) (by decide), by decide +kernel⟩

theorem witness_FpdenMReturnsTheQuotient :
    (let s := pairs toy [(7, 0)]
     UnitReady s ∧ CanonicalPair s (limb32 7) (limb32 0) ∧ value s (limb32 0) ≠ 1) ∧
    let s := pairs toy [(0, 1)]
    UnitReady s ∧ CanonicalPair s (limb32 0) (limb32 1) ∧ value s (limb32 1) = 1 :=
  ⟨⟨rfl, canonicalPair_of (by decide) (by decide), by decide +kernel⟩,
    rfl, canonicalPair_of (by decide) (by decide), by decide +kernel⟩

/-- An engine on `CFG_TOY13` with this pair of vectors on the operand port. -/
def rawPair (a b : List Nat) : Machine.State :=
  { pairs toy [] with operands := { (pairs toy []).operands with pairs := [(a, b)] } }

/-- One vector set for each clause: the smallest value each check turns down. -/
theorem witness_UnitOperandChecksComeInOrder :
    let large := (limb32 0).set 31 256
    UnitReady (rawPair [7] large) ∧
    (∀ i ∈ [Instr.fpadd, .fpsub, .fpmul, .fpip 1, .fpdenP, .fpdenM], i.wf = true ∧
      unitVectors i (rawPair [7] large) = some [[7], large] ∧
      unitVectors i (rawPair large (limb32 13)) = some [large, limb32 13] ∧
      unitVectors i (rawPair (limb32 13) (limb32 0)) = some [limb32 13, limb32 0]) ∧
    [7].length ≠ toy.fd.numLimbs ∧ large.length = toy.fd.numLimbs ∧ toy.fd.base ≤ large.getD 31 0 ∧
    toy.fd.p ≤ value (pairs toy []) (limb32 13) ∧ LimbVector toy.fd (limb32 13) := by
  unfold LimbVector UnitReady
  decide +kernel

theorem witness_WitnessesStayInBounds : mini.unitOk = true ∧ (UnitOp.ip 2).Fits [([7, 0], [3, 1]), ([3, 1], [7, 0])] ∧
    LimbVector mini [7, 7] ∧ 2 < 2 * mini.numLimbs - 1 ∧
    ∃ t, populate (.ip 2) mini [([7, 0], [3, 1]), ([3, 1], [7, 0])] = .ok t ∧ (3 : Int) ∈ t.carry := by
  refine ⟨by decide, by unfold UnitOp.Fits; decide, by unfold LimbVector; decide, by decide,
    ⟨[3, 1], [3, 1], [3, 1]⟩, by decide, by decide⟩

/-- The group of V19. -/
def honestCells : UnitCells := ⟨[4, 1], [5, 0], [2147483646, 0]⟩

theorem witness_UnitEvalIsE1E2E3 : 1 ≤ mini.numLimbs ∧ UnitOp.mul.Fits [([7, 0], [3, 1])] ∧
    (∀ v ∈ vectorsOf [([7, 0], [3, 1])], v.length = mini.numLimbs) ∧ honestCells.Sized mini := by
  unfold UnitOp.Fits UnitCells.Sized
  decide

/-- Just below the edge `2·|t| < Q`, on both sides of zero. -/
theorem witness_CarryCellsReadBackSigned : 2 * |(50 : Int)| < 101 ∧ 2 * |(-50 : Int)| < 101 := by decide

theorem witness_PopulatePassesUnitEval : mini.unitOk = true ∧ UnitOp.mul.Fits [([7, 0], [3, 1])] ∧
    mini.sBound UnitOp.mul.terms + mini.tOff UnitOp.mul.terms * (mini.base + 1) < 2147483647 ∧
    populate .mul mini [([7, 0], [3, 1])] = .ok ⟨[4, 1], [5, 0], [-1, 0]⟩ := by
  unfold UnitOp.Fits
  decide

theorem witness_UnitEvalForcesTheIntegerIdentity : mini.unitOk = true ∧ UnitOp.mul.Fits [([7, 0], [3, 1])] ∧
    mini.sBound UnitOp.mul.terms + mini.tOff UnitOp.mul.terms * (mini.base + 1) < 2147483647 ∧
    (∀ v ∈ vectorsOf [([7, 0], [3, 1])], LimbVector mini v) ∧ honestCells.Sized mini ∧
    unitPasses 2147483647 mini .mul [([7, 0], [3, 1])] honestCells = true := by
  unfold UnitOp.Fits LimbVector UnitCells.Sized
  decide +kernel

/-! EDADD: V20's state, and states at the edges of the address space and of the clock. -/

/-- V20 with the P region at the top of the address space. -/
def edTop : Machine.State :=
  start toy 0xFFFFFFC0 0x2000 [(0xFFFFFFC0, 2), (0xFFFFFFE0, 9), (0x2000, 3), (0x2020, 11)] 0xFFFFFFCF

theorem edReady_edStart : EdReady edStart := by
  unfold EdReady EdOpen RegionFits
  decide +kernel

theorem edReady_edTop : EdReady edTop := by
  unfold EdReady EdOpen RegionFits
  decide +kernel

theorem witness_EdaddWritesTheSumOverP : ∀ s ∈ [edStart, edTop],
    EdReady s ∧ CanonicalCoords s ∧ DenominatorsInvertible s := by
  intro s hs
  have h : CanonicalCoords edStart ∧ DenominatorsInvertible edStart ∧ CanonicalCoords edTop ∧ DenominatorsInvertible edTop := by
    unfold CanonicalCoords DenominatorsInvertible
    decide +kernel
  rcases List.mem_pair.mp hs with rfl | rfl
  · exact ⟨edReady_edStart, h.1, h.2.1⟩
  · exact ⟨edReady_edTop, h.2.2.1, h.2.2.2⟩

theorem witness_EdaddEmitsTheScheduleOfRecords : ∃ t, exec .edadd edTop = .next t ∧ t.fstat.kind = .none :=
  exists_completed (by decide +kernel)

/-- One state for each clause: V23's rows. -/
theorem witness_EdaddFaultPoints :
    let p1 := { edStart with x := [(1, 0xFFFFFFC6), (2, 0x2001)] }
    let p2 := { edStart with x := [(1, 0x1000), (2, 0xFFFFFFFF)] }
    let p3 := { edStart with mem := edStart.mem.writeWord 0x1000 13 }
    let p4 := start toy 0x1000 0x2000 [(0x1000, 7), (0x1020, 1), (0x2000, 1), (0x2020, 1)] 100
    (EdOpen p1 ∧ FitsIfAligned (pointerA p1) 16 ∧ FitsIfAligned (pointerB p1) 16 ∧ (pointerA p1).toNat % 4 ≠ 0) ∧
    (EdOpen p2 ∧ FitsIfAligned (pointerA p2) 16 ∧ FitsIfAligned (pointerB p2) 16 ∧ (pointerA p2).toNat % 4 = 0 ∧
      (pointerB p2).toNat % 4 ≠ 0) ∧
    (EdReady p3 ∧ ¬ CanonicalCoords p3) ∧ EdReady p4 ∧ CanonicalCoords p4 ∧ ¬ DenominatorsInvertible p4 := by
  unfold EdReady EdOpen RegionFits FitsIfAligned CanonicalCoords DenominatorsInvertible
  decide +kernel

/-- Refused and not refused on the two sides of each limit. -/
theorem witness_GuestCommandsAreRefusedExactlyWhenTheSpecSays :
    edStart.fstat.kind = .none ∧ permStart.fstat.kind = .none ∧ permStart.cfg.hasEd = false ∧
    completes (exec .edadd edTop) = true ∧ completes (exec .perm { permStart with clk := 0xFFFFFFF7 }) = true ∧
    refusedWith (exec .edadd { edTop with clk := 0xFFFFFFD0 }) .clockOverflow = true ∧
    refusedWith (exec .edadd { edTop with x := [(1, 0x1000), (2, 0xFFFFFFC4)] }) (.regionPastTop 0xFFFFFFC4) = true ∧
    refusedWith (exec .edadd { edTop with sealedEd := true }) (.chipSealed .ed) = true := by decide +kernel

/-- V22. -/
theorem witness_EdaddWithTheNeutralPointKeepsP :
    let s := start toy 0x1000 0x2000 [(0x1000, 2), (0x1020, 9), (0x2020, 1)] 7
    EdReady s ∧ fieldAt s.mem (pointerA s).toNat < s.cfg.fd.p ∧
    fieldAt s.mem ((pointerA s).toNat + 32) < s.cfg.fd.p ∧
    wordsAt s.mem (pointerB s) 16 = [0, 0, 0, 0, 0, 0, 0, 0, 1, 0, 0, 0, 0, 0, 0, 0] := by
  unfold EdReady EdOpen RegionFits
  decide +kernel

theorem witness_EdaddStaysOnTheCurve : EdReady edStart ∧ CanonicalCoords edStart ∧
    DenominatorsInvertible edStart ∧ OnCurve edStart.cfg (coords edStart).1 (coords edStart).2.1 ∧
    OnCurve edStart.cfg (coords edStart).2.2.1 (coords edStart).2.2.2 := by
  refine ⟨edReady_edStart, ?_⟩
  unfold CanonicalCoords DenominatorsInvertible OnCurve
  decide +kernel

/-- V21: overlapping regions, and one PERM. -/
theorem witness_InvocationRecordsAreLocallyConsistent :
    (∃ t, exec .edadd { edStart with x := [(1, 0x1000), (2, 0x1000)] } = .next t ∧ t.fstat.kind = .none) ∧
    ∃ t, exec .perm permStart = .next t ∧ t.fstat.kind = .none :=
  ⟨exists_completed (by decide +kernel), exists_completed (by decide +kernel)⟩

/-! PERM. -/

/-- V26: `100` is the largest canonical word, at the top of the address space. -/
theorem witness_PermWritesTheLastRound :
    let s := start permToy 0xFFFFFFF8 0 [(0xFFFFFFF8, 5), (0xFFFFFFFC, 100)] 0xFFFFFFF7
    PermReady s := by
  unfold PermReady PermOpen RegionFits
  decide +kernel

theorem witness_PermEmitsTheScheduleOfRecords : ∃ t, exec .perm permStart = .next t ∧ t.fstat.kind = .none :=
  exists_completed (by decide +kernel)

theorem witness_PermFaultPoints :
    let p1 := { permStart with x := [(1, 0xFFFFFFFE)] }
    let p2 := { permStart with mem := permStart.mem.writeWord 0x44 101 }
    (PermOpen p1 ∧ FitsIfAligned (pointerA p1) p1.cfg.permN ∧ (pointerA p1).toNat % 4 ≠ 0) ∧
    PermOpen p2 ∧ FitsIfAligned (pointerA p2) p2.cfg.permN ∧ (pointerA p2).toNat % 4 = 0 ∧
      ∃ x ∈ permWords p2, p2.cfg.q ≤ x := by
  unfold PermOpen FitsIfAligned
  decide +kernel

theorem witness_PermIsDeterminedByItsInputs :
    let s := { permStart with x := [(1, 0x40), (2, 0x99)], mem := permStart.mem.writeWord 0x100 1 }
    s.cfg = permStart.cfg ∧ pointerA s = pointerA permStart ∧ s.clk = permStart.clk ∧
    permWords s = permWords permStart ∧ (∃ t, exec .perm s = .next t ∧ t.fstat.kind = .none) ∧
    ∃ t, exec .perm permStart = .next t ∧ t.fstat.kind = .none :=
  ⟨by decide +kernel, by decide +kernel, by decide +kernel, by decide +kernel,
    exists_completed (by decide +kernel), exists_completed (by decide +kernel)⟩

theorem witness_PermRoundIsTotalIntoCells :
    permToy.roundFn = .sboxLinear 3 [[2, 1], [1, 3]] [[1, 2], [3, 4]] ∧ 1 < permToy.permN := by decide

/-! Rows. -/

theorem witness_WordsAndLimbsConvertBack :
    (List.replicate 8 (0xFFFFFFFF : Word)).length = 8 ∧ LimbVector toy.fd (List.replicate 32 255) ∧
    7 < 8 ∧ 3 < toy.limbsPerWord := by
  unfold LimbVector
  decide +kernel

/-- The event of `edDone`. -/
def edEvent0 : EdAddEvent := edDone.logEd.headD (edEvent 0 0 [] 0 [] [])

theorem edRow_edEvent0 : edRow toy edEvent0 = .ok v28Row := by decide +kernel

theorem edEvent0_honest : edEvent0.Honest toy := by
  unfold EdAddEvent.Honest RegionFits
  refine ⟨by decide +kernel, by decide +kernel, by decide +kernel, by decide +kernel, by decide +kernel, by decide +kernel,
    by decide +kernel, by decide +kernel, ?_⟩
  have h : (match edSum toy edEvent0.p edEvent0.q with
    | .ok ch => decide (edEvent0.pWriteRecords = (List.range 16).map (fun i =>
        { address := regionAddr edEvent0.pPtr i, clock := clockAt edEvent0.clock (32 + i)
          priorValue := edEvent0.p.getD i 0, newValue := (edResultWords toy ch).getD i 0 }))
    | .error _ => false) = true := by decide +kernel
  cases hs : edSum toy edEvent0.p edEvent0.q with
  | ok ch => rw [hs] at h; exact ⟨ch, rfl, by simpa using h⟩
  | error d => rw [hs] at h; simp at h

theorem witness_EdRowHoldsTheEventAtItsOffsets : edEvent0.p.length = 16 ∧ edEvent0.q.length = 16 ∧
    edEvent0.pWriteRecords.length = 16 ∧ edRow toy edEvent0 = .ok v28Row :=
  ⟨by decide +kernel, by decide +kernel, by decide +kernel, edRow_edEvent0⟩

/-- Both a round that is not the last and the last. -/
theorem witness_PermRowHoldsTheRoundAtItsOffsets : 1 < permToy.permRounds ∧
    permRow permToy permEvent 0 = .ok [8, 64, 1, 0, 1, 0, 5, 7, 50, 80, 0, 0] ∧
    permRow permToy permEvent 1 = .ok [12, 64, 1, 1, 0, 1, 50, 80, 42, 10, 93, 31] := by decide +kernel

theorem witness_RowsStandForTheRecords : edEvent0.Honest toy ∧ edRow toy edEvent0 = .ok v28Row ∧
    permEvent.Honest permToy ∧ 1 < permToy.permRounds ∧
    permRow permToy permEvent 1 = .ok [12, 64, 1, 1, 0, 1, 50, 80, 42, 10, 93, 31] :=
  ⟨edEvent0_honest, edRow_edEvent0, permEvent_honest, by decide, by decide +kernel⟩

theorem witness_EdConstraintsForceTheSum : toy.hasEd = true ∧
    ∃ r, EdRow.ofCells toy v28Row = some r ∧ evalEdRow toy r = true :=
  ⟨by decide +kernel, Option.map_eq_some_iff.mp test_eval_ed⟩

/-! WIDTH, GENTRACE, EVAL. -/

theorem witness_WidthReturnsTheColumnCount : State.reset.fstat.kind = .none := rfl

theorem edEvent0_fits : EdEventFits toy edEvent0 := by
  unfold EdEventFits
  decide +kernel

theorem witness_GentraceEdBuildsTheMatrix : edDone.fstat.kind = .none ∧ edDone.cfg.hasEd = true ∧
    edDone.sealedEd = false ∧ ∀ e ∈ edDone.logEd, e.Honest edDone.cfg ∧ EdEventFits edDone.cfg e := by
  have h : edDone.logEd = [edEvent0] ∧ edDone.cfg = toy := by decide +kernel
  refine ⟨by decide +kernel, by decide +kernel, by decide +kernel, ?_⟩
  rw [h.1, h.2]
  simpa using ⟨edEvent0_honest, edEvent0_fits⟩

theorem permDone_log : permDone.logPerm = [permEvent] ∧ permDone.cfg = permToy := by decide +kernel

theorem witness_GentracePermBuildsTheMatrix : permDone.fstat.kind = .none ∧ permDone.cfg.hasPerm = true ∧
    permDone.sealedPerm = false ∧ ∀ e ∈ permDone.logPerm, e.Honest permDone.cfg ∧ PermEventFits permDone.cfg e := by
  refine ⟨by decide +kernel, by decide +kernel, by decide +kernel, ?_⟩
  rw [permDone_log.1, permDone_log.2]
  simpa using ⟨permEvent_honest, permEvent_fits⟩

/-- The event of a PERM that started at clock 97: its last row's clock is `101 = Q`. -/
def latePermEvent : PermEvent where
  clock := 97
  statePtr := 0x40
  stateReads := permReadRecords permToy 0x40 97 [5, 7]
  stateWrites := permWriteRecords permToy 0x40 97 [5, 7]

/-- The event of an EDADD that started at clock `Q`. -/
def lateEdEvent : EdAddEvent :=
  (after (exec .edadd { edStart with clk := 2147483647 }) edStart).logEd.headD edEvent0

theorem lateEdEvent_honest : lateEdEvent.Honest toy := by
  unfold EdAddEvent.Honest RegionFits
  refine ⟨by decide +kernel, by decide +kernel, by decide +kernel, by decide +kernel, by decide +kernel, by decide +kernel,
    by decide +kernel, by decide +kernel, ?_⟩
  have h : (match edSum toy lateEdEvent.p lateEdEvent.q with
    | .ok ch => decide (lateEdEvent.pWriteRecords = (List.range 16).map (fun i =>
        { address := regionAddr lateEdEvent.pPtr i, clock := clockAt lateEdEvent.clock (32 + i)
          priorValue := lateEdEvent.p.getD i 0, newValue := (edResultWords toy ch).getD i 0 }))
    | .error _ => false) = true := by decide +kernel
  cases hs : edSum toy lateEdEvent.p lateEdEvent.q with
  | ok ch => rw [hs] at h; exact ⟨ch, rfl, by simpa using h⟩
  | error d => rw [hs] at h; simp at h

theorem witness_GentraceFaultsOnCellOverflow :
    (let s := { edStart with logEd := [lateEdEvent] }
     s.fstat.kind = .none ∧ s.cfg.hasEd = true ∧ s.sealedEd = false ∧ (∀ e ∈ s.logEd, e.Honest s.cfg) ∧
     ∃ e ∈ s.logEd, ¬ EdEventFits s.cfg e) ∧
    let s := { permStart with logPerm := [latePermEvent] }
    s.fstat.kind = .none ∧ s.cfg.hasPerm = true ∧ s.sealedPerm = false ∧ (∀ e ∈ s.logPerm, e.Honest s.cfg) ∧
    ∃ e ∈ s.logPerm, ¬ PermEventFits s.cfg e := by
  refine ⟨⟨rfl, by decide +kernel, rfl, ?_, lateEdEvent, List.mem_singleton.mpr rfl, ?_⟩,
    rfl, by decide +kernel, rfl, ?_, latePermEvent, List.mem_singleton.mpr rfl, ?_⟩
  · intro e he
    rw [List.mem_singleton.mp he]
    exact lateEdEvent_honest
  · unfold EdEventFits
    decide +kernel
  · intro e he
    rw [List.mem_singleton.mp he]
    exact ⟨by decide, ⟨by decide, by decide⟩, by decide, [5, 7], by decide, by decide, rfl, rfl⟩
  · unfold PermEventFits
    decide +kernel

/-- The other chip runs before and after. -/
theorem witness_LogsAreConsumedOnce :
    (∃ t, exec (.gentrace .ed) edStart = .next t ∧ t.fstat.kind = .none) ∧
    (∃ t, exec (.gentrace .perm) permDone = .next t ∧ t.fstat.kind = .none) ∧
    (∃ u, exec .perm edStart = .next u) ∧ (∃ u, exec (.gentrace .perm) edStart = .next u) := by
  obtain ⟨t, ht, -⟩ := exists_completed (o := exec .perm edStart) (by decide +kernel)
  obtain ⟨u, hu, -⟩ := exists_completed (o := exec (.gentrace .perm) edStart) (by decide +kernel)
  exact ⟨exists_completed (by decide +kernel), exists_completed (by decide +kernel), ⟨t, ht⟩, ⟨u, hu⟩⟩

/-- An engine whose ED matrix is the row of V28. -/
def edSealed : Machine.State := { edStart with traceEd := some [v28Row], sealedEd := true }

theorem witness_EvalEdReturnsTheConstraintVerdict : edSealed.fstat.kind = .none ∧ edSealed.cfg.hasEd = true ∧
    edSealed.traceEd = some [v28Row] ∧ [v28Row][edSealed.operands.row]? = some v28Row ∧
    v28Row.length = edSealed.cfg.edWidth := ⟨rfl, by decide +kernel, rfl, rfl, by decide +kernel⟩

/-- Row 0, which has a next row, and row 1, the last. -/
theorem witness_EvalPermReturnsTheConstraintVerdict :
    let row0 := [8, 64, 1, 0, 1, 0, 5, 7, 50, 80, 0, 0]
    let row1 := [12, 64, 1, 1, 0, 1, 50, 80, 42, 10, 93, 31]
    let m : Matrix := [row0, row1]
    permTraced.fstat.kind = .none ∧ permTraced.cfg.hasPerm = true ∧ permTraced.tracePerm = some m ∧
    (m[0]? = some row0 ∧ 0 + 1 < m.length ∧ m[0 + 1]? = some row1) ∧ (m[1]? = some row1 ∧ ¬ 1 + 1 < m.length) ∧
    row0.length = permTraced.cfg.permWidth ∧ row1.length = permTraced.cfg.permWidth := by decide +kernel

theorem witness_EvalIsRefusedWithoutARow :
    edStart.fstat.kind = .none ∧ edStart.cfg.hasEd = true ∧ edStart.traceEd = none ∧
    edStart.cfg.hasPerm = true ∧ edStart.tracePerm = none ∧
    edSealed.traceEd = some [v28Row] ∧ [v28Row].length ≤ (atRow edSealed 1).operands.row ∧
    (permTraced.tracePerm.map List.length) = some 2 ∧ 2 ≤ (atRow permTraced 2).operands.row :=
  ⟨rfl, by decide +kernel, rfl, by decide +kernel, rfl, rfl, by decide, by decide +kernel, by decide⟩

theorem edTraced_fields : edTraced.cfg = toy ∧ edTraced.mem.wf = true ∧ edTraced.x.wf = true ∧
    edTraced.fstat = FStat.clear ∧ edTraced.mrb = [] ∧ edTraced.logEd = [edEvent0] ∧ edTraced.logPerm = [] ∧
    edTraced.sealedEd = true ∧ edTraced.sealedPerm = false ∧ edTraced.traceEd = some [v28Row] ∧
    edTraced.tracePerm = none := by decide +kernel

theorem edMatrix_edEvent0 : edMatrix toy [edEvent0] = .ok [v28Row] := by
  simp [edMatrix, collect, edRow_edEvent0, padMatrix, padHeight]

/-- A state that GENTRACE ED has left meets the invariant. -/
theorem inv_edTraced : edTraced.Inv := by
  obtain ⟨hc, hm, hx, hf, hr, hl, hp, hs, ht, he, hn⟩ := edTraced_fields
  refine ⟨hm, hx, .inl hf, ?_, ?_, ?_, ?_, ?_, ?_, ?_⟩
  · rw [hr]; exact fun _ h => nomatch h
  · rw [hl, hc]; simpa using edEvent0_honest
  · rw [hp]; exact fun _ h => nomatch h
  · rw [hs, he]; decide
  · rw [ht, hn]; decide
  · rw [he, hl, hc]
    rintro m ⟨⟩
    exact ⟨by decide, edMatrix_edEvent0⟩
  · rw [hn]; exact fun _ h => nomatch h

/-- A matrix of either chip. -/
theorem witness_HonestTracesAreAccepted :
    (permTraced.Inv ∧ ∃ t, exec (.eval .perm) permTraced = .next t) ∧
    edTraced.Inv ∧ edTraced.traceEd = some [v28Row] ∧ ∃ t, exec (.eval .ed) edTraced = .next t :=
  ⟨⟨inv_permTraced, (exists_completed (o := exec (.eval .perm) permTraced) (by decide +kernel)).imp fun _ h => h.1⟩,
    inv_edTraced, edTraced_fields.2.2.2.2.2.2.2.2.2.1,
    (exists_completed (o := exec (.eval .ed) edTraced) (by decide +kernel)).imp fun _ h => h.1⟩

end Sys2Proof.Tests
end

section
/-! PROOFS. 00_scope.md: the configuration of an engine (R10, R331). -/

namespace Sys2Proof.Machine

/-! ### The round function (43_perm.md R221) -/

/-- Of either form, `PermRound` is `N` words, each reduced modulo `Q`. -/
theorem permRound_eq_map_mod (c : Config) (r : Nat) (v : List Nat) :
    ∃ f : Nat → Nat, permRound c r v = (List.range c.permN).map (fun i => f i % c.q) := by
  unfold permRound
  split
  next => exact ⟨_, rfl⟩
  next => exact ⟨_, rfl⟩

@[simp] theorem permRound_length (c : Config) (r : Nat) (v : List Nat) : (permRound c r v).length = c.permN := by
  obtain ⟨f, hf⟩ := permRound_eq_map_mod c r v
  simp [hf]

theorem permRound_lt (c : Config) (r : Nat) (v : List Nat) : ∀ x ∈ permRound c r v, x < c.q := by
  obtain ⟨f, hf⟩ := permRound_eq_map_mod c r v
  have hq : 0 < c.q := c.wellFormed.primeQ.pos
  rw [hf]
  intro x hx
  obtain ⟨i, -, rfl⟩ := List.mem_map.mp hx
  exact Nat.mod_lt _ hq

/-! ### Parameters and configurations (70_reset_and_hazards.md R331) -/

/-- R10(g) with the derived quantities of `IP_MAX = 2` terms written out. -/
theorem noWrap_bound (c : Config) (hEd : c.hasEd = true) :
    (2 * c.fd.numLimbs * (2 ^ c.fd.limbBits - 1) ^ 2 + (2 ^ c.fd.limbBits - 1)) +
      2 * c.fd.numLimbs * 2 ^ c.fd.limbBits * (2 ^ c.fd.limbBits + 1) < c.q := by
  simpa only [FieldDesc.sBound, FieldDesc.tOff, FieldDesc.base, Config.ipMax] using c.wellFormed.noWrap hEd

theorem wellFormed_iff_exists_config (c : Params) : c.WellFormed ↔ ∃ cfg : Config, cfg.toParams = c := by
  constructor
  · exact fun h => ⟨⟨c, h⟩, rfl⟩
  · rintro ⟨cfg, rfl⟩
    exact cfg.wellFormed

/-- Settles O60: the clauses are the fields of the configuration's own proof, (f)'s second half the range of
`permRound`, and a launched state carries the configuration it was launched on. -/
theorem everyEngineHasAWellFormedConfiguration : Obligations.EveryEngineHasAWellFormedConfiguration := by
  unfold Obligations.EveryEngineHasAWellFormedConfiguration
  constructor
  · intro s
    obtain ⟨limbLength, ⟨limbsFillWord, limbBits_pos, limbBits_le⟩, primeP, oddP, boundP, curveConstant, primeQ,
      ⟨permN_pos, permRounds_pos⟩, -, -, wordsFit⟩ := s.cfg.wellFormed
    exact ⟨limbLength, Nat.dvd_of_mod_eq_zero limbsFillWord, limbBits_pos, limbBits_le, primeP, oddP, boundP,
      curveConstant, primeQ, permN_pos, permRounds_pos,
      fun r v => ⟨permRound_length s.cfg r v, permRound_lt s.cfg r v⟩, noWrap_bound s.cfg, wordsFit⟩
  · intro c x₀ m₀ k₀
    simp only [launch_cfg, and_true]
    exact wellFormed_iff_exists_config c

end Sys2Proof.Machine
end

section
/-! PROOFS. 10_state.md: the inventory of the state and who writes each piece (R20, R21), and the reset values (R35). -/

namespace Sys2Proof.Machine

/-! ### Reset (70_reset_and_hazards.md R330) -/

@[simp] theorem FStat.codes_clear : FStat.clear.codes = (0, 0, 0) := rfl

theorem step_reset {s : State} {rest : List Input} (h : s.inputs = .reset :: rest) :
    step s = .next (resetEngine { s with inputs := rest }) := by
  simp [step, fetch, h, takeInput]

/-- Settles O8: a step that takes a reset input is `resetEngine`, whose fields are those of a launch on the VM-owned
state that stands. -/
theorem resetRestoresTheEngineOwnedState : Obligations.ResetRestoresTheEngineOwnedState := by
  unfold Obligations.ResetRestoresTheEngineOwnedState
  constructor
  · intro s rest h
    exact ⟨_, step_reset h, by simp⟩
  · intro c x₀ m₀ k₀
    simp

/-! ### What recorded accesses write -/

/-- `t` is `s` but for what the recorded accesses of a command and their ticks write: `MEM`, `CLK` and `MRB`. -/
def Accessed (s t : State) : Prop := ∃ m c r, t = { s with mem := m, clk := c, mrb := r }

theorem Accessed.refl (s : State) : Accessed s s := ⟨s.mem, s.clk, s.mrb, rfl⟩

theorem Accessed.trans {s t u : State} (hst : Accessed s t) (htu : Accessed t u) : Accessed s u := by
  obtain ⟨_, _, _, rfl⟩ := hst
  obtain ⟨m, c, r, rfl⟩ := htu
  exact ⟨m, c, r, rfl⟩

/-- The state in which an attempt has gone on or stopped. -/
def Attempt.state {α : Type} : Attempt α → State
  | .ok _ s => s
  | .fault _ s => s

/-- Where an attempt that went on has come to. -/
theorem Accessed.of_ok {α : Type} {s t : State} {a : Attempt α} {v : α} (hs : Accessed s a.state) (h : a = .ok v t) :
    Accessed s t := by
  subst h
  exact hs

/-- Where an attempt that raised a fault has come to. -/
theorem Accessed.of_fault {α : Type} {s t : State} {a : Attempt α} {f : Fault} (hs : Accessed s a.state)
    (h : a = .fault f t) : Accessed s t := by
  subst h
  exact hs

theorem readWords_accessed (n : Nat) (a : Word) (s : State) : Accessed s (readWords n a s).state := by
  cases ha : aligned a with
  | true => rw [readWords_aligned n a s ha]; exact ⟨_, _, _, rfl⟩
  | false =>
    cases n with
    | zero => exact .refl s
    | succ n => rw [readWords_misaligned n a s ha]; exact .refl s

theorem writeWords_accessed (ws : List Word) (a : Word) (s : State) : Accessed s (writeWords ws a s).state := by
  cases ha : aligned a with
  | true => rw [writeWords_aligned ws a s ha]; exact ⟨_, _, _, rfl⟩
  | false =>
    cases ws with
    | nil => exact .refl s
    | cons w ws => simp only [writeWords, mrWrite_misaligned a w s ha]; exact .refl s

theorem permLoop_accessed (ptr : Word) (k r : Nat) (s : State) : Accessed s (permLoop ptr k r s).state := by
  induction k generalizing r s with
  | zero => exact .refl s
  | succ k ih =>
    have hread := readWords_accessed s.cfg.permN ptr s
    unfold permLoop
    split
    next f t hr => exact hread.of_fault hr
    next rd t hr =>
      have hst : Accessed s t := hread.of_ok hr
      dsimp only
      split
      next => exact hst
      next =>
        split
        next f u hw => exact hst.trans ((writeWords_accessed _ ptr t).of_fault hw)
        next wr u hw =>
          have hsu : Accessed s u := hst.trans ((writeWords_accessed _ ptr t).of_ok hw)
          have hrest := ih (r + 1) u
          split
          next f w hl => exact hsu.trans (hrest.of_fault hl)
          next rds wrs w hl => exact hsu.trans (hrest.of_ok hl)

/-- PERM stops within its accesses, or completes them, appends its event and empties `MRB` (43_perm.md R222). -/
theorem permInvocation_state (s : State) : ∃ l, Accessed { s with logPerm := l } (permInvocation s).state := by
  have hloop := permLoop_accessed (pointerA s) s.cfg.permRounds 0 s
  unfold permInvocation
  split
  next f t h => exact ⟨s.logPerm, hloop.of_fault h⟩
  next rds wrs t h =>
    obtain ⟨m, c, r, rfl⟩ := hloop.of_ok h
    exact ⟨_, m, c, [], rfl⟩

/-- EDADD stops within its accesses, or completes them, appends its event and empties `MRB` (42_edadd.md R181 to
R185). -/
theorem edInvocation_state (s : State) : ∃ l, Accessed { s with logEd := l } (edInvocation s).state := by
  unfold edInvocation
  dsimp only
  split
  next f t hp => exact ⟨s.logEd, (readWords_accessed _ _ s).of_fault hp⟩
  next pr t hp =>
    have hst : Accessed s t := (readWords_accessed _ _ s).of_ok hp
    split
    next f u hq => exact ⟨s.logEd, hst.trans ((readWords_accessed _ _ t).of_fault hq)⟩
    next qr u hq =>
      have hsu : Accessed s u := hst.trans ((readWords_accessed _ _ t).of_ok hq)
      split
      next d hd => exact ⟨s.logEd, hsu⟩
      next ch hch =>
        split
        next f v hw => exact ⟨s.logEd, hsu.trans ((writeWords_accessed _ _ u).of_fault hw)⟩
        next wr v hw =>
          obtain ⟨m, c, r, rfl⟩ := hsu.trans ((writeWords_accessed _ _ u).of_ok hw)
          exact ⟨_, m, c, [], rfl⟩

/-! ### What each command writes, and how it ends -/

/-- The "written by" column of 10_state.md R20, by command: `u` is `s` after the writes of a command, its answer or
fault not yet reported. -/
inductive WrittenBy (s : State) : Instr → State → Prop where
  /-- The units, WIDTH and EVAL, and what faults before its first write. -/
  | nothing (i : Instr) : WrittenBy s i s
  | mrd (r : List MemoryRecord) : WrittenBy s .mrd { s with mrb := r }
  | mwr (m : Memory) (r : List MemoryRecord) : WrittenBy s .mwr { s with mem := m, mrb := r }
  | edadd (m : Memory) (c : Word) (r : List MemoryRecord) (l : List EdAddEvent) :
    WrittenBy s .edadd { s with mem := m, clk := c, mrb := r, logEd := l }
  | perm (m : Memory) (c : Word) (r : List MemoryRecord) (l : List PermEvent) :
    WrittenBy s .perm { s with mem := m, clk := c, mrb := r, logPerm := l }
  | gentraceEd (m : Matrix) : WrittenBy s (.gentrace .ed) { s with traceEd := some m, sealedEd := true }
  | gentracePerm (m : Matrix) : WrittenBy s (.gentrace .perm) { s with tracePerm := some m, sealedPerm := true }

/-- The two ways a command on `port` ends in the state `u` its writes have led to. -/
inductive Ends (port : Port) (u : State) : State → Prop where
  | answer (r : Response) : Ends port u (respond port r u)
  | fault (f : Fault) : Ends port u (takeFault port f u)

theorem conclude_ends {port : Port} {a : Attempt Response} {t : State} (h : conclude port a = .next t) :
    Ends port a.state t := by
  rcases conclude_next h with ⟨r, u, rfl, rfl⟩ | ⟨f, u, rfl, rfl⟩
  · exact .answer r
  · exact .fault f

theorem unitCommand_ends {op : UnitOp} {ins : List LimbPair} {s t : State} (h : unitCommand op ins s = .next t) :
    Ends .unit s t := by
  obtain ⟨-, h⟩ := unlessFaulted_next h
  split at h
  next d _ => cases h; exact .fault _
  next r _ => cases h; exact .answer _

theorem execFpip_ends {n : Nat} {s t : State} (h : execFpip n s = .next t) : Ends .unit s t := by
  unfold execFpip at h
  split at h
  · exact unitCommand_ends h
  · cases h

theorem execMrd_ends {s t : State} (h : execMrd s = .next t) : ∃ u, WrittenBy s .mrd u ∧ Ends .unit u t := by
  obtain ⟨-, h⟩ := unlessFaulted_next h
  refine ⟨_, ?_, conclude_ends h⟩
  cases ha : aligned s.operands.addr with
  | true => rw [mrRead_aligned _ s ha]; exact .mrd _
  | false => rw [mrRead_misaligned _ s ha]; exact .nothing _

theorem execMwr_ends {s t : State} (h : execMwr s = .next t) : ∃ u, WrittenBy s .mwr u ∧ Ends .unit u t := by
  obtain ⟨-, h⟩ := unlessFaulted_next h
  refine ⟨_, ?_, conclude_ends h⟩
  cases ha : aligned s.operands.addr with
  | true => rw [mrWrite_aligned _ _ s ha]; exact .mwr _ _
  | false => rw [mrWrite_misaligned _ _ s ha]; exact .nothing _

theorem execEdadd_ends {s t : State} (h : execEdadd s = .next t) : ∃ u, WrittenBy s .edadd u ∧ Ends .guest u t := by
  obtain ⟨-, h⟩ := unlessFaulted_next h
  split at h
  next => cases h
  next =>
    refine ⟨_, ?_, conclude_ends h⟩
    obtain ⟨l, m, c, r, hu⟩ := edInvocation_state { s with mrb := [] }
    rw [hu]
    exact .edadd m c r l

theorem execPerm_ends {s t : State} (h : execPerm s = .next t) : ∃ u, WrittenBy s .perm u ∧ Ends .guest u t := by
  obtain ⟨-, h⟩ := unlessFaulted_next h
  split at h
  next => cases h
  next =>
    refine ⟨_, ?_, conclude_ends h⟩
    obtain ⟨l, m, c, r, hu⟩ := permInvocation_state { s with mrb := [] }
    rw [hu]
    exact .perm m c r l

theorem execWidth_ends {chip : Chip} {s t : State} (h : execWidth chip s = .next t) : Ends .host s t := by
  obtain ⟨-, h⟩ := unlessFaulted_next h
  cases h
  exact .answer _

/-- Everything `ifChip` can answer. -/
theorem ifChip_next {chip : Chip} {s t : State} {k : Host.Outcome State Fault Refusal} (h : ifChip chip s k = .next t) :
    hasChip s.cfg chip = true ∧ k = .next t := by
  unfold ifChip at h
  split at h
  · exact ⟨‹_›, h⟩
  · cases h

theorem gentraceEd_ends {s t : State} (h : gentraceEd s = .next t) :
    ∃ u, WrittenBy s (.gentrace .ed) u ∧ Ends .host u t := by
  unfold gentraceEd at h
  split at h
  next => cases h
  next =>
    split at h
    next d _ => cases h; exact ⟨s, .nothing _, .fault _⟩
    next m _ => cases h; exact ⟨_, .gentraceEd m, .answer _⟩

theorem gentracePerm_ends {s t : State} (h : gentracePerm s = .next t) :
    ∃ u, WrittenBy s (.gentrace .perm) u ∧ Ends .host u t := by
  unfold gentracePerm at h
  split at h
  next => cases h
  next =>
    split at h
    next d _ => cases h; exact ⟨s, .nothing _, .fault _⟩
    next m _ => cases h; exact ⟨_, .gentracePerm m, .answer _⟩

theorem execGentrace_ends {chip : Chip} {s t : State} (h : execGentrace chip s = .next t) :
    ∃ u, WrittenBy s (.gentrace chip) u ∧ Ends .host u t := by
  obtain ⟨-, h⟩ := unlessFaulted_next h
  obtain ⟨-, h⟩ := ifChip_next h
  cases chip with
  | ed => exact gentraceEd_ends h
  | perm => exact gentracePerm_ends h

theorem evalCommand_ends {chip : Chip} {trace : Option Matrix}
    {verdict : List Nat → List Nat → Nat → Nat → Option Bool} {s t : State}
    (h : evalCommand chip trace verdict s = .next t) : Ends .host s t := by
  unfold evalCommand at h
  split at h
  next => cases h
  next =>
    split at h
    next => cases h
    next =>
      split at h
      next => cases h
      next => cases h; exact .answer _

theorem execEval_ends {chip : Chip} {s t : State} (h : execEval chip s = .next t) : Ends .host s t := by
  obtain ⟨-, h⟩ := unlessFaulted_next h
  obtain ⟨-, h⟩ := ifChip_next h
  cases chip with
  | ed => exact evalCommand_ends h
  | perm => exact evalCommand_ends h

/-- Everything `exec` can answer: the state after the command's own writes, with its answer or its fault. -/
theorem exec_ends {i : Instr} {s t : State} (h : exec i s = .next t) :
    ∃ u, WrittenBy s i u ∧ Ends i.port u t := by
  cases i with
  | edadd => exact execEdadd_ends h
  | perm => exact execPerm_ends h
  | fpadd => exact ⟨s, .nothing _, unitCommand_ends h⟩
  | fpsub => exact ⟨s, .nothing _, unitCommand_ends h⟩
  | fpmul => exact ⟨s, .nothing _, unitCommand_ends h⟩
  | fpip n => exact ⟨s, .nothing _, execFpip_ends h⟩
  | fpdenP => exact ⟨s, .nothing _, unitCommand_ends h⟩
  | fpdenM => exact ⟨s, .nothing _, unitCommand_ends h⟩
  | mrd => exact execMrd_ends h
  | mwr => exact execMwr_ends h
  | width chip => exact ⟨s, .nothing _, execWidth_ends h⟩
  | gentrace chip => exact execGentrace_ends h
  | eval chip => exact ⟨s, .nothing _, execEval_ends h⟩

/-! ### The frame, read off the two -/

section Frame

variable {i : Instr} {s u t : State} {port : Port}

theorem WrittenBy.ports (h : WrittenBy s i u) :
    u.x = s.x ∧ u.cfg = s.cfg ∧ u.operands = s.operands ∧ u.inputs = s.inputs := by
  cases h <;> exact ⟨rfl, rfl, rfl, rfl⟩

theorem WrittenBy.fstat (h : WrittenBy s i u) : u.fstat = s.fstat := by
  cases h <;> rfl

theorem WrittenBy.mem (h : WrittenBy s i u) (hmwr : i ≠ .mwr) (hed : i ≠ .edadd) (hperm : i ≠ .perm) :
    u.mem = s.mem := by
  cases h with
  | mwr => exact absurd rfl hmwr
  | edadd => exact absurd rfl hed
  | perm => exact absurd rfl hperm
  | _ => rfl

theorem WrittenBy.clk (h : WrittenBy s i u) (hed : i ≠ .edadd) (hperm : i ≠ .perm) : u.clk = s.clk := by
  cases h with
  | edadd => exact absurd rfl hed
  | perm => exact absurd rfl hperm
  | _ => rfl

theorem WrittenBy.mrb (h : WrittenBy s i u) (hmrd : i ≠ .mrd) (hmwr : i ≠ .mwr) (hed : i ≠ .edadd)
    (hperm : i ≠ .perm) : u.mrb = s.mrb := by
  cases h with
  | mrd => exact absurd rfl hmrd
  | mwr => exact absurd rfl hmwr
  | edadd => exact absurd rfl hed
  | perm => exact absurd rfl hperm
  | _ => rfl

theorem WrittenBy.logEd (h : WrittenBy s i u) (hed : i ≠ .edadd) : u.logEd = s.logEd := by
  cases h with
  | edadd => exact absurd rfl hed
  | _ => rfl

theorem WrittenBy.logPerm (h : WrittenBy s i u) (hperm : i ≠ .perm) : u.logPerm = s.logPerm := by
  cases h with
  | perm => exact absurd rfl hperm
  | _ => rfl

theorem WrittenBy.seal_traceEd (h : WrittenBy s i u) (hi : i ≠ .gentrace .ed) :
    u.sealedEd = s.sealedEd ∧ u.traceEd = s.traceEd := by
  cases h with
  | gentraceEd => exact absurd rfl hi
  | _ => exact ⟨rfl, rfl⟩

theorem WrittenBy.seal_tracePerm (h : WrittenBy s i u) (hi : i ≠ .gentrace .perm) :
    u.sealedPerm = s.sealedPerm ∧ u.tracePerm = s.tracePerm := by
  cases h with
  | gentracePerm => exact absurd rfl hi
  | _ => exact ⟨rfl, rfl⟩

/-- The end of a command writes `FSTAT`, `MRB` and the result port at most. -/
theorem Ends.frame (h : Ends port u t) :
    t = { u with fstat := t.fstat, mrb := t.mrb, result := t.result } := by
  cases h <;> rfl

/-- ... and the first two only to report a fault. -/
theorem Ends.completed (h : Ends port u t) (hk : t.fstat.kind = .none) : t.fstat = u.fstat ∧ t.mrb = u.mrb := by
  cases h with
  | answer r => exact ⟨rfl, rfl⟩
  | fault f => exact absurd hk (FStat.ofFault_kind_ne_none f)

end Frame

/-- Settles O15: a command's own writes are those of the inventory's column, and its end adds at most a fault. -/
theorem onlyTheNamedCommandsWriteEachState : Obligations.OnlyTheNamedCommandsWriteEachState := by
  unfold Obligations.OnlyTheNamedCommandsWriteEachState
  intro i s t h
  obtain ⟨u, hw, he⟩ := exec_ends h
  have hfstat (hk : t.fstat.kind = .none) : t.fstat = s.fstat := (he.completed hk).1.trans hw.fstat
  have hmrb (hk : t.fstat.kind = .none) : t.mrb = u.mrb := (he.completed hk).2
  obtain ⟨hx, hcfg, hops, hinputs⟩ := hw.ports
  rw [he.frame]
  exact ⟨hx, hcfg, hops, hinputs, hw.mem, hw.clk, hw.logEd, hw.logPerm, hw.seal_traceEd, hw.seal_tracePerm,
    fun hk h₁ h₂ h₃ h₄ => (hmrb hk).trans (hw.mrb h₁ h₂ h₃ h₄), hfstat⟩

end Sys2Proof.Machine
end

section
/-! PROOFS. 20_memory.md: words as limb vectors and back (R52, R54). -/

namespace Sys2Proof.Machine

/-! ### One position of a limb vector (00_scope.md R12) -/

theorem limbs_getD (base n v m : Nat) (hm : m < n) : (limbs base n v).getD m 0 = v / base ^ m % base := by
  induction n generalizing v m with
  | zero => omega
  | succ n ih =>
    cases m with
    | zero => simp [limbs]
    | succ m =>
      rw [limbs, List.getD_cons_succ, ih _ m (by omega), Nat.div_div_eq_div_mul, ← pow_succ']

/-- `val(a) = sum a[m]·B^m`, by position. -/
theorem val_eq_sum (base : Nat) (a : List Nat) :
    val base a = ((List.range a.length).map (fun m => a.getD m 0 * base ^ m)).sum := by
  induction a with
  | nil => rfl
  | cons x xs ih =>
    have shift (m : Nat) : (x :: xs).getD (m + 1) 0 * base ^ (m + 1) = base * (xs.getD m 0 * base ^ m) := by
      rw [List.getD_cons_succ]; ring
    rw [val, ih, List.length_cons, List.range_succ_eq_map, List.map_cons, List.map_map, List.sum_cons,
      List.getD_cons_zero, pow_zero, mul_one, ← List.sum_map_mul_left]
    simp only [Function.comp_def, Nat.succ_eq_add_one, shift]

/-! ### What 00_scope.md R10(a), (b) say of `WL` and `B` -/

theorem limbsPerWord_mul_limbBits (c : Config) : c.limbsPerWord * c.fd.limbBits = 32 :=
  Nat.div_mul_cancel (Nat.dvd_of_mod_eq_zero c.wellFormed.limbBits.1)

/-- `B^WL = 2^32`: the limbs of a word are exactly its bits. -/
theorem base_pow_limbsPerWord (c : Config) : c.fd.base ^ c.limbsPerWord = 2 ^ 32 := by
  rw [FieldDesc.base, ← pow_mul, mul_comm, limbsPerWord_mul_limbBits]

theorem numLimbs_eq (c : Config) : c.fd.numLimbs = c.limbsPerWord * 8 := by
  have hlength : c.fd.numLimbs * c.fd.limbBits = c.limbsPerWord * 8 * c.fd.limbBits := by
    rw [c.wellFormed.limbLength, mul_right_comm, limbsPerWord_mul_limbBits]
    rfl
  exact Nat.eq_of_mul_eq_mul_right c.wellFormed.limbBits.2.1 hlength

theorem base_pow (c : Config) (m : Nat) : c.fd.base ^ m = 2 ^ (c.fd.limbBits * m) := (pow_mul _ _ _).symm

/-! ### One word (20_memory.md R52) -/

@[simp] theorem wordLimbs_length (c : Config) (v : Word) : (wordLimbs c v).length = c.limbsPerWord := by
  simp [wordLimbs]

theorem wordLimbs_getD (c : Config) (v : Word) {m : Nat} (hm : m < c.limbsPerWord) :
    (wordLimbs c v).getD m 0 = v.toNat / 2 ^ (c.fd.limbBits * m) % c.fd.base := by
  rw [wordLimbs, limbs_getD _ _ _ _ hm, base_pow]

/-- The word of `WL` limbs is their value, with no reduction. -/
theorem toNat_wordOfLimbs (c : Config) {a : List Nat} (hlen : a.length = c.limbsPerWord)
    (ha : ∀ x ∈ a, x < c.fd.base) : (BitVec.ofNat 32 (val c.fd.base a)).toNat = val c.fd.base a := by
  have hval := val_lt c.fd.base a ha
  rw [hlen, base_pow_limbsPerWord] at hval
  rw [BitVec.toNat_ofNat, Nat.mod_eq_of_lt hval]

theorem wordOfLimbs_wordLimbs (c : Config) (v : Word) : BitVec.ofNat 32 (val c.fd.base (wordLimbs c v)) = v := by
  have hv : v.toNat < c.fd.base ^ c.limbsPerWord := by rw [base_pow_limbsPerWord]; exact v.isLt
  rw [wordLimbs, val_limbs _ _ _ hv, BitVec.ofNat_toNat, BitVec.setWidth_eq]

theorem wordLimbs_wordOfLimbs (c : Config) {a : List Nat} (hlen : a.length = c.limbsPerWord)
    (ha : ∀ x ∈ a, x < c.fd.base) : wordLimbs c (BitVec.ofNat 32 (val c.fd.base a)) = a := by
  rw [wordLimbs, toNat_wordOfLimbs c hlen ha, ← hlen, limbs_val _ _ ha]

/-! ### Vectors of words (20_memory.md R54) -/

@[simp] theorem wordsToLimbs_nil (c : Config) : wordsToLimbs c [] = [] := rfl

@[simp] theorem wordsToLimbs_cons (c : Config) (w : Word) (ws : List Word) :
    wordsToLimbs c (w :: ws) = wordLimbs c w ++ wordsToLimbs c ws := rfl

@[simp] theorem wordsToLimbs_length (c : Config) (ws : List Word) :
    (wordsToLimbs c ws).length = c.limbsPerWord * ws.length := by
  induction ws with
  | nil => rfl
  | cons w ws ih => simp [ih]; ring

@[simp] theorem limbsToWords_length (c : Config) (n : Nat) (a : List Nat) : (limbsToWords c n a).length = n := by
  induction n generalizing a with
  | zero => rfl
  | succ n ih => simp [limbsToWords, ih]

theorem wordsToLimbs_getD (c : Config) (ws : List Word) {j m : Nat} (hj : j < ws.length) (hm : m < c.limbsPerWord) :
    (wordsToLimbs c ws).getD (c.limbsPerWord * j + m) 0 = (wordLimbs c (ws.getD j 0)).getD m 0 := by
  induction ws generalizing j with
  | nil => simp at hj
  | cons w ws ih =>
    rw [wordsToLimbs_cons]
    cases j with
    | zero => rw [mul_zero, zero_add, List.getD_append _ _ _ _ (by simpa using hm), List.getD_cons_zero]
    | succ j =>
      have hskip : c.limbsPerWord * (j + 1) + m - (wordLimbs c w).length = c.limbsPerWord * j + m := by
        rw [wordLimbs_length, mul_add]; omega
      rw [List.getD_append_right _ _ _ _ (by rw [wordLimbs_length, mul_add]; omega), hskip,
        ih (by simpa using hj), List.getD_cons_succ]

theorem limbsToWords_getD (c : Config) {n : Nat} (a : List Nat) {j : Nat} (hj : j < n) :
    (limbsToWords c n a).getD j 0 =
      BitVec.ofNat 32 (val c.fd.base ((a.drop (c.limbsPerWord * j)).take c.limbsPerWord)) := by
  induction n generalizing a j with
  | zero => omega
  | succ n ih =>
    cases j with
    | zero => simp [limbsToWords]
    | succ j => rw [limbsToWords, List.getD_cons_succ, ih _ (by omega), List.drop_drop, mul_add, mul_one, add_comm]

/-- Word `j` is the positional sum of its own `WL` limbs. -/
theorem toNat_limbsToWords_getD (c : Config) {n : Nat} {a : List Nat} (hlen : a.length = c.limbsPerWord * n)
    (ha : ∀ x ∈ a, x < c.fd.base) {j : Nat} (hj : j < n) :
    ((limbsToWords c n a).getD j 0).toNat =
      ((List.range c.limbsPerWord).map (fun m =>
        a.getD (c.limbsPerWord * j + m) 0 * 2 ^ (c.fd.limbBits * m))).sum := by
  have hroom : c.limbsPerWord * (j + 1) ≤ c.limbsPerWord * n := Nat.mul_le_mul_left _ hj
  have hslice : ((a.drop (c.limbsPerWord * j)).take c.limbsPerWord).length = c.limbsPerWord := by
    rw [List.length_take, List.length_drop, hlen]
    rw [mul_add, mul_one] at hroom
    omega
  rw [limbsToWords_getD c a hj,
    toNat_wordOfLimbs c hslice (fun x hx => ha x (List.mem_of_mem_drop (List.mem_of_mem_take hx))), val_eq_sum, hslice]
  congr 1
  refine List.map_congr_left fun m hm => ?_
  rw [base_pow, List.getD_eq_getElem?_getD, List.getElem?_take_of_lt (List.mem_range.mp hm), List.getElem?_drop,
    ← List.getD_eq_getElem?_getD]

theorem limbsToWords_wordsToLimbs (c : Config) (ws : List Word) :
    limbsToWords c ws.length (wordsToLimbs c ws) = ws := by
  induction ws with
  | nil => rfl
  | cons w ws ih =>
    rw [wordsToLimbs_cons, List.length_cons, limbsToWords, List.take_left' (wordLimbs_length c w),
      List.drop_left' (wordLimbs_length c w), wordOfLimbs_wordLimbs, ih]

theorem wordsToLimbs_limbsToWords (c : Config) {n : Nat} {a : List Nat} (hlen : a.length = c.limbsPerWord * n)
    (ha : ∀ x ∈ a, x < c.fd.base) : wordsToLimbs c (limbsToWords c n a) = a := by
  induction n generalizing a with
  | zero => exact (List.length_eq_zero_iff.mp hlen).symm
  | succ n ih =>
    rw [mul_add, mul_one] at hlen
    have hword : (a.take c.limbsPerWord).length = c.limbsPerWord := by rw [List.length_take]; omega
    have hrest : (a.drop c.limbsPerWord).length = c.limbsPerWord * n := by rw [List.length_drop]; omega
    rw [limbsToWords, wordsToLimbs_cons, wordLimbs_wordOfLimbs c hword (fun x hx => ha x (List.mem_of_mem_take hx)),
      ih hrest (fun x hx => ha x (List.mem_of_mem_drop hx)), List.take_append_drop]

/-- Settles O44: both conversions work word by word, a word's `WL` limbs being its base-`B` digits, and eight words
are all `L` limbs. -/
theorem wordsAndLimbsConvertBack : Obligations.WordsAndLimbsConvertBack := by
  unfold Obligations.WordsAndLimbsConvertBack
  refine fun c => ⟨fun ws hws => ⟨?_, fun j m hj hm => ?_, ?_⟩, fun a ⟨hlen, ha⟩ => ?_⟩
  · rw [wordsToLimbs_length, hws, numLimbs_eq]
  · rw [wordsToLimbs_getD c ws (hws ▸ hj) hm, wordLimbs_getD c _ hm]
  · rw [← hws, limbsToWords_wordsToLimbs]
  · rw [numLimbs_eq] at hlen
    exact ⟨fun j hj => toNat_limbsToWords_getD c hlen ha hj, wordsToLimbs_limbsToWords c hlen ha⟩

end Sys2Proof.Machine
end

section
/-! PROOFS. 30_encoding.md: the command word, its fields and the opcode map (R80, R81, R84 to R86), and the step that
runs the decoded command (R82). -/

namespace Sys2Proof

/-! ### The four fields of a word (R80, R81) -/

theorem toNat_eq_fields (w : Word) :
    w.toNat = fieldRsv w * 2 ^ 24 + fieldN w * 2 ^ 16 + fieldFn w * 2 ^ 8 + fieldOpc w := by
  simp only [fieldRsv, fieldN, fieldFn, fieldOpc, BitVec.extractLsb'_toNat, Nat.shiftRight_eq_div_pow]
  omega

theorem fieldOpc_lt (w : Word) : fieldOpc w < 2 ^ 8 := (w.extractLsb' 0 8).isLt
theorem fieldFn_lt (w : Word) : fieldFn w < 2 ^ 8 := (w.extractLsb' 8 8).isLt
theorem fieldN_lt (w : Word) : fieldN w < 2 ^ 8 := (w.extractLsb' 16 8).isLt

/-- A word is its four fields: it is a packed word exactly when `rsv` is 0 and the others are those packed. -/
theorem packWord_eq_iff {n fn opc : Nat} (hn : n < 2 ^ 8) (hfn : fn < 2 ^ 8) (hopc : opc < 2 ^ 8) (w : Word) :
    packWord n fn opc = w ↔ fieldRsv w = 0 ∧ fieldN w = n ∧ fieldFn w = fn ∧ fieldOpc w = opc := by
  have hw := toNat_eq_fields w
  have ho := fieldOpc_lt w
  have hf := fieldFn_lt w
  have ht := fieldN_lt w
  rw [← BitVec.toNat_inj, packWord, BitVec.toNat_ofNat]
  omega

/-- Words that agree under a mask agree in every run of bits that the mask covers. -/
theorem extractLsb'_eq_of_mask {v w m : Word} (lo len : Nat) (h : v &&& m = w &&& m)
    (hm : m.extractLsb' lo len = BitVec.allOnes len) : v.extractLsb' lo len = w.extractLsb' lo len := by
  simpa only [BitVec.extractLsb'_and, hm, BitVec.and_allOnes] using congrArg (BitVec.extractLsb' lo len) h

theorem fieldFn_div_two (w : Word) : fieldFn w / 2 = (w.extractLsb' 9 7).toNat := by
  simp only [fieldFn, BitVec.extractLsb'_toNat, Nat.shiftRight_eq_div_pow]
  omega

/-! ### The fields a command is encoded with (R84) -/

/-- Field `n` of a command's row. -/
def Instr.count : Instr → Nat
  | .fpip n => n
  | _ => 0

/-- Field `fn` of a command's row. -/
def Instr.fn : Instr → Nat
  | .fpsub | .fpdenM => 1
  | .fpmul => 2
  | .width c | .gentrace c | .eval c => c.code
  | _ => 0

/-- Field `opc` of a command's row. -/
def Instr.opc : Instr → Nat
  | .edadd => 0x01
  | .perm => 0x02
  | .fpadd | .fpsub | .fpmul => 0x10
  | .fpip _ => 0x11
  | .fpdenP | .fpdenM => 0x12
  | .mrd => 0x20
  | .mwr => 0x21
  | .width _ => 0x30
  | .gentrace _ => 0x31
  | .eval _ => 0x32

theorem encode_eq_packWord (i : Instr) : encode i = packWord i.count i.fn i.opc := by
  cases i <;> rfl

theorem wf_fpip_iff (n : Nat) : (Instr.fpip n).wf = true ↔ 1 ≤ n ∧ n ≤ Config.ipMax := decide_eq_true_iff

theorem Instr.count_lt {i : Instr} (h : i.wf = true) : i.count < 2 ^ 8 := by
  cases i
  case fpip n => exact ((wf_fpip_iff n).mp h).2.trans_lt (by decide)
  all_goals exact Nat.two_pow_pos 8

theorem Chip.code_le_one (c : Chip) : c.code ≤ 1 := by cases c <;> decide

theorem Instr.fn_le_two (i : Instr) : i.fn ≤ 2 := by
  cases i
  case width c | gentrace c | eval c => exact c.code_le_one.trans (by decide)
  all_goals simp [Instr.fn]

theorem Instr.fn_lt (i : Instr) : i.fn < 2 ^ 8 := i.fn_le_two.trans_lt (by decide)

theorem Instr.opc_lt (i : Instr) : i.opc < 2 ^ 8 := by cases i <;> simp [Instr.opc]

theorem encode_eq_iff {i : Instr} (h : i.wf = true) (w : Word) :
    encode i = w ↔ fieldRsv w = 0 ∧ fieldN w = i.count ∧ fieldFn w = i.fn ∧ fieldOpc w = i.opc := by
  rw [encode_eq_packWord, packWord_eq_iff (Instr.count_lt h) i.fn_lt i.opc_lt]

/-! ### The decoder (R85) -/

theorem ite_error_eq_ok_iff {p : Prop} [Decidable p] {x : Except Illegal Instr} {e : Illegal} {i : Instr} :
    (if p then x else .error e) = .ok i ↔ p ∧ x = .ok i := by
  by_cases hp : p <;> simp [hp]

@[simp] theorem withoutCount_eq_ok_iff {n : Nat} {i j : Instr} : withoutCount n i = .ok j ↔ n = 0 ∧ i = j := by
  simp [withoutCount, ite_error_eq_ok_iff]

@[simp] theorem bare_eq_ok_iff {fn n : Nat} {i j : Instr} : bare fn n i = .ok j ↔ fn = 0 ∧ n = 0 ∧ i = j := by
  simp [bare, ite_error_eq_ok_iff]

@[simp] theorem withChip_eq_ok_iff {fn n : Nat} {i : Chip → Instr} {j : Instr} :
    withChip fn n i = .ok j ↔ ∃ c : Chip, fn = c.code ∧ n = 0 ∧ i c = j := by
  unfold withChip
  constructor
  · intro h
    split_ifs at h with h₀ h₁
    · exact ⟨.ed, h₀, withoutCount_eq_ok_iff.mp h⟩
    · exact ⟨.perm, h₁, withoutCount_eq_ok_iff.mp h⟩
  · rintro ⟨c | c, rfl, h⟩ <;> simpa [Chip.code] using h

/-- What the decoder's field table accepts: the four fields of a well-formed command, and nothing else. -/
theorem decodeFields_eq_ok_iff {rsv n fn opc : Nat} {i : Instr} :
    decodeFields rsv n fn opc = .ok i ↔
      i.wf = true ∧ rsv = 0 ∧ n = i.count ∧ fn = i.fn ∧ opc = i.opc := by
  constructor
  · fun_cases decodeFields rsv n fn opc
    all_goals simp only [withoutCount_eq_ok_iff, bare_eq_ok_iff, withChip_eq_ok_iff, reduceCtorEq, false_imp_iff,
      Except.ok.injEq]
    case case2 | case3 | case14 | case15 =>
      rintro ⟨hfn, hn, rfl⟩
      simp_all [Instr.wf, Instr.count, Instr.fn, Instr.opc]
    case case4 | case5 | case6 | case11 | case12 =>
      rintro ⟨hn, rfl⟩
      simp_all [Instr.wf, Instr.count, Instr.fn, Instr.opc]
    case case9 =>
      rintro rfl
      simp_all [wf_fpip_iff, Instr.count, Instr.fn, Instr.opc]
    case case16 | case17 | case18 =>
      rintro ⟨c, hfn, hn, rfl⟩
      simp_all [Instr.wf, Instr.count, Instr.fn, Instr.opc]
  · rintro ⟨hwf, rfl, rfl, rfl, rfl⟩
    cases i
    case fpip n => simp [decodeFields, Instr.count, Instr.fn, Instr.opc, (wf_fpip_iff n).mp hwf]
    case width c | gentrace c | eval c => simp [decodeFields, Instr.count, Instr.fn, Instr.opc]
    all_goals rfl

theorem decode_eq_ok_iff_fields {port : Port} {w : Word} {i : Instr} :
    decode port w = .ok i ↔
      decodeFields (fieldRsv w) (fieldN w) (fieldFn w) (fieldOpc w) = .ok i ∧ i.port = port := by
  unfold decode
  split
  next e he => simp [he]
  next j hj =>
    rw [hj, ite_error_eq_ok_iff, and_comm]
    refine and_congr_right fun hji => ?_
    rw [Except.ok.inj hji]

theorem decode_eq_ok_iff {port : Port} {w : Word} {i : Instr} :
    decode port w = .ok i ↔ i.wf = true ∧ i.port = port ∧ encode i = w := by
  rw [decode_eq_ok_iff_fields, decodeFields_eq_ok_iff, and_assoc]
  refine and_congr_right fun h => ?_
  rw [encode_eq_iff h, and_comm]

/-- Two well-formed commands of one word have the same fields, and the field table answers once. -/
theorem encode_inj {i j : Instr} (hi : i.wf = true) (hj : j.wf = true) (h : encode i = encode j) : i = j := by
  have hdecode {k : Instr} (hk : k.wf = true) (hw : encode k = encode j) :=
    decodeFields_eq_ok_iff.mpr ⟨hk, (encode_eq_iff hk (encode j)).mp hw⟩
  exact Except.ok.inj ((hdecode hi h).symm.trans (hdecode hj rfl))

/-- Settles O1: both sides say that the word's fields are those of a well-formed command of the port. -/
theorem decodeIsTheInverseOfEncode : Obligations.DecodeIsTheInverseOfEncode := by
  unfold Obligations.DecodeIsTheInverseOfEncode
  exact fun port w i => decode_eq_ok_iff

/-- Settles O3: each word is the encoding of its command. -/
theorem sampleWordsDecode : Obligations.SampleWordsDecode := by
  unfold Obligations.SampleWordsDecode
  simp only [decode_eq_ok_iff]
  decide

/-! ### The opcode map as rows of match and mask (R84) -/

/-- The bits of the command word that a command's row fixes: all but the operand field. -/
def Instr.mask : Instr → Word
  | .fpip _ => 0xFF00FFFF
  | .width _ | .gentrace _ | .eval _ => 0xFFFFFEFF
  | _ => 0xFFFFFFFF

/-- The row of the opcode map a command belongs to. -/
def Instr.row (i : Instr) : OpcodeRow := ⟨i.mnemonic, i.port, encode i &&& i.mask, i.mask⟩

/-- FPIP's row is one row for every `n`: its mask leaves `n` out. -/
theorem row_fpip {n : Nat} (h : (Instr.fpip n).wf = true) :
    (Instr.fpip n).row = ⟨"FPIP", .unit, 0x00000011, 0xFF00FFFF⟩ := by
  obtain ⟨hpos, hmax⟩ := (wf_fpip_iff n).mp h
  obtain rfl | rfl : n = 1 ∨ n = 2 := by unfold Config.ipMax at hmax; omega
  all_goals decide

theorem row_mem_opcodeRows {i : Instr} (h : i.wf = true) : i.row ∈ opcodeRows := by
  cases i
  case fpip n => rw [row_fpip h]; decide
  case width c | gentrace c | eval c => cases c <;> decide
  all_goals decide

theorem row_selects_iff {i : Instr} {w : Word} :
    i.row.selects w = true ↔ w &&& i.mask = encode i &&& i.mask ∧ i.row.extra w = true := by
  rw [OpcodeRow.selects, Bool.and_eq_true, decide_eq_true_iff]
  rfl

theorem row_selects_encode {i : Instr} (h : i.wf = true) : i.row.selects (encode i) = true := by
  refine row_selects_iff.mpr ⟨rfl, ?_⟩
  cases i
  case fpip n =>
    obtain ⟨-, hn, -⟩ := (encode_eq_iff h _).mp rfl
    simpa [OpcodeRow.extra, Instr.row, Instr.mnemonic, hn, Instr.count] using (wf_fpip_iff n).mp h
  all_goals rfl

theorem eq_of_fullMask {v w : Word} (h : v &&& 0xFFFFFFFF = w &&& 0xFFFFFFFF) : v = w := by
  simpa only [BitVec.extractLsb'_eq_self] using extractLsb'_eq_of_mask 0 32 h (by decide)

/-- Words that agree under FPIP's mask differ in `n` at most. -/
theorem fields_eq_of_termMask {v w : Word} (h : v &&& 0xFF00FFFF = w &&& 0xFF00FFFF) :
    fieldRsv v = fieldRsv w ∧ fieldFn v = fieldFn w ∧ fieldOpc v = fieldOpc w :=
  ⟨congrArg BitVec.toNat (extractLsb'_eq_of_mask 24 8 h (by decide)),
    congrArg BitVec.toNat (extractLsb'_eq_of_mask 8 8 h (by decide)),
    congrArg BitVec.toNat (extractLsb'_eq_of_mask 0 8 h (by decide))⟩

/-- Words that agree under the chip commands' mask differ in bit 0 of `fn` at most. -/
theorem fields_eq_of_chipMask {v w : Word} (h : v &&& 0xFFFFFEFF = w &&& 0xFFFFFEFF) :
    fieldRsv v = fieldRsv w ∧ fieldN v = fieldN w ∧ fieldFn v / 2 = fieldFn w / 2 ∧ fieldOpc v = fieldOpc w := by
  refine ⟨congrArg BitVec.toNat (extractLsb'_eq_of_mask 24 8 h (by decide)),
    congrArg BitVec.toNat (extractLsb'_eq_of_mask 16 8 h (by decide)), ?_,
    congrArg BitVec.toNat (extractLsb'_eq_of_mask 0 8 h (by decide))⟩
  rw [fieldFn_div_two, fieldFn_div_two, extractLsb'_eq_of_mask 9 7 h (by decide)]

theorem Chip.exists_code_eq {n : Nat} (h : n ≤ 1) : ∃ c : Chip, c.code = n := by
  obtain rfl | rfl : n = 0 ∨ n = 1 := by omega
  · exact ⟨.ed, rfl⟩
  · exact ⟨.perm, rfl⟩

/-- Under the chip commands' mask a chip command's word is known but for its chip. -/
theorem exists_chip_of_chipMask {w : Word} {c : Chip} {opc : Nat} (hopc : opc < 2 ^ 8)
    (h : w &&& 0xFFFFFEFF = packWord 0 c.code opc &&& 0xFFFFFEFF) : ∃ d : Chip, packWord 0 d.code opc = w := by
  have word_iff (d : Chip) := packWord_eq_iff (Nat.two_pow_pos 8) (d.code_le_one.trans_lt (by decide)) hopc
  obtain ⟨hrsv, hn, hfn, ho⟩ := (word_iff c _).mp rfl
  obtain ⟨hrsv', hn', hfn', ho'⟩ := fields_eq_of_chipMask h
  have hc := c.code_le_one
  obtain ⟨d, hd⟩ := Chip.exists_code_eq (n := fieldFn w) (by omega)
  exact ⟨d, (word_iff d w).mpr ⟨hrsv'.trans hrsv, hn'.trans hn, hd.symm, ho'.trans ho⟩⟩

/-- A word that a command's row selects is the word of a command of that row: what the mask leaves out is the operand
field, at a value the row admits. -/
theorem exists_command_of_row_selects {i : Instr} {w : Word} (h : i.wf = true) (hs : i.row.selects w = true) :
    ∃ j : Instr, j.wf = true ∧ j.row = i.row ∧ encode j = w := by
  obtain ⟨hmask, hextra⟩ := row_selects_iff.mp hs
  cases i
  case fpip n =>
    have hwf : (Instr.fpip (fieldN w)).wf = true := hextra
    obtain ⟨hrsv, -, hfn, hopc⟩ := (encode_eq_iff h _).mp rfl
    obtain ⟨hrsv', hfn', hopc'⟩ := fields_eq_of_termMask hmask
    exact ⟨.fpip (fieldN w), hwf, (row_fpip hwf).trans (row_fpip h).symm,
      (encode_eq_iff hwf w).mpr ⟨hrsv'.trans hrsv, rfl, hfn'.trans hfn, hopc'.trans hopc⟩⟩
  case width c =>
    obtain ⟨d, hd⟩ := exists_chip_of_chipMask (by decide) hmask
    exact ⟨.width d, rfl, by cases c <;> cases d <;> rfl, hd⟩
  case gentrace c =>
    obtain ⟨d, hd⟩ := exists_chip_of_chipMask (by decide) hmask
    exact ⟨.gentrace d, rfl, by cases c <;> cases d <;> rfl, hd⟩
  case eval c =>
    obtain ⟨d, hd⟩ := exists_chip_of_chipMask (by decide) hmask
    exact ⟨.eval d, rfl, by cases c <;> cases d <;> rfl, hd⟩
  all_goals exact ⟨_, h, rfl, (eq_of_fullMask hmask).symm⟩

/-- One command of each row, in the order of the opcode map. -/
def rowCommands : List Instr :=
  [.edadd, .perm, .fpadd, .fpsub, .fpmul, .fpip 1, .fpdenP, .fpdenM, .mrd, .mwr, .width .ed, .gentrace .ed, .eval .ed]

theorem opcodeRows_eq_map_row : opcodeRows = rowCommands.map Instr.row := by decide

theorem rowCommands_wf : ∀ i ∈ rowCommands, i.wf = true := by decide

theorem exists_command_of_selects {r : OpcodeRow} {w : Word} (hr : r ∈ opcodeRows) (hs : r.selects w = true) :
    ∃ i : Instr, i.wf = true ∧ i.row = r ∧ encode i = w := by
  rw [opcodeRows_eq_map_row] at hr
  obtain ⟨i, hi, rfl⟩ := List.mem_map.mp hr
  exact exists_command_of_row_selects (rowCommands_wf i hi) hs

/-- Settles O2: a word that a row selects is the word of a command of that row, and words determine commands. -/
theorem decodeAgreesWithTheOpcodeMap : Obligations.DecodeAgreesWithTheOpcodeMap := by
  unfold Obligations.DecodeAgreesWithTheOpcodeMap
  refine ⟨fun port w m => ⟨?_, ?_⟩, fun w r₁ hr₁ r₂ hr₂ hs₁ hs₂ => ?_, by decide⟩
  · rintro ⟨i, hd, rfl⟩
    obtain ⟨hwf, rfl, rfl⟩ := decode_eq_ok_iff.mp hd
    exact ⟨i.row, row_mem_opcodeRows hwf, rfl, rfl, row_selects_encode hwf⟩
  · rintro ⟨r, hr, rfl, rfl, hs⟩
    obtain ⟨i, hwf, rfl, rfl⟩ := exists_command_of_selects hr hs
    exact ⟨i, decode_eq_ok_iff.mpr ⟨hwf, rfl, rfl⟩, rfl⟩
  · obtain ⟨i, hi, rfl, rfl⟩ := exists_command_of_selects hr₁ hs₁
    obtain ⟨j, hj, rfl, hji⟩ := exists_command_of_selects hr₂ hs₂
    rw [encode_inj hj hi hji]

/-! ### Reserved and illegal encodings (R86) -/

theorem decode_reservedBits {w : Word} (port : Port) (h : fieldRsv w ≠ 0) : decode port w = .error .reservedBits := by
  simp [decode, decodeFields, h]

theorem decode_unknownOpcode {w : Word} (port : Port) (hrsv : fieldRsv w = 0)
    (h : fieldOpc w ∉ [0x01, 0x02, 0x10, 0x11, 0x12, 0x20, 0x21, 0x30, 0x31, 0x32]) :
    decode port w = .error .unknownOpcode := by
  simp only [List.mem_cons, List.not_mem_nil, or_false, not_or] at h
  simp [decode, decodeFields, hrsv, h]

theorem decode_wrongPort {port other : Port} {w : Word} {i : Instr} (h : decode port w = .ok i) (hne : other ≠ port) :
    decode other w = .error .wrongPort := by
  obtain ⟨hfields, rfl⟩ := decode_eq_ok_iff_fields.mp h
  simp [decode, hfields, hne.symm]

/-- A word is illegal on every port when no well-formed command has its `n`, `fn` and `opc`. -/
theorem exists_decode_error {w : Word} (port : Port)
    (h : ∀ i : Instr, i.wf = true → fieldN w = i.count → fieldFn w = i.fn → fieldOpc w ≠ i.opc) :
    ∃ e, decode port w = .error e := by
  cases hd : decode port w with
  | error e => exact ⟨e, rfl⟩
  | ok i =>
    obtain ⟨hwf, -, hn, hfn, hopc⟩ := decodeFields_eq_ok_iff.mp (decode_eq_ok_iff_fields.mp hd).1
    exact absurd hopc (h i hwf hn hfn)

theorem Instr.count_eq_zero {i : Instr} (h : i.opc ≠ 0x11) : i.count = 0 := by
  cases i
  case fpip n => exact absurd rfl h
  all_goals rfl

theorem Instr.count_bounds {i : Instr} (hwf : i.wf = true) (h : i.opc = 0x11) :
    1 ≤ i.count ∧ i.count ≤ Config.ipMax := by
  cases i
  case fpip n => exact (wf_fpip_iff n).mp hwf
  all_goals simp [Instr.opc] at h

theorem Instr.fn_eq_zero {i : Instr} (h : i.opc ∈ [0x01, 0x02, 0x11, 0x20, 0x21]) : i.fn = 0 := by
  cases i <;> simp [Instr.opc, Instr.fn] at h ⊢

theorem Instr.fn_le_one {i : Instr} (h : i.opc ∈ [0x12, 0x30, 0x31, 0x32]) : i.fn ≤ 1 := by
  cases i
  case width c | gentrace c | eval c => exact c.code_le_one
  all_goals simp [Instr.opc, Instr.fn] at h ⊢

end Sys2Proof

namespace Sys2Proof.Machine

open Claims

/-! ### The step (R80, R82, R85, R86) -/

theorem fetch_cons {s : State} {i : Input} {rest : List Input} (h : s.inputs = i :: rest) :
    fetch s = takeInput { s with inputs := rest } i := by
  simp [fetch, h]

theorem step_of_decode_ok {s t : State} {port : Port} {w : Word} {i : Instr} (hf : fetch s = .command port w t)
    (hd : decode port w = .ok i) : step s = exec i t := by
  simp [step, hf, hd]

theorem step_of_decode_error {s t : State} {port : Port} {w : Word} {e : Illegal} (hf : fetch s = .command port w t)
    (hd : decode port w = .error e) : step s = .refused (.illegalCommand port w e) := by
  simp [step, hf, hd]

/-- Settles O5: the input taken is a command at the state named, and the step is its decoding and its meaning. -/
theorem stepRunsTheDecodedCommand : Obligations.StepRunsTheDecodedCommand := by
  unfold Obligations.StepRunsTheDecodedCommand
  refine fun s rest => ⟨fun h => ?_, fun w ops h => ?_, fun w ops h => ?_⟩
  all_goals exact ⟨fun i => step_of_decode_ok (fetch_cons h), fun e => step_of_decode_error (fetch_cons h)⟩

theorem fetch_of_presented {port : Port} {w : Word} {s : State} (h : Presented port w s) :
    ∃ t, fetch s = .command port w t := by
  cases port with
  | guest =>
    obtain ⟨rest, hin, rfl⟩ := h
    exact ⟨_, fetch_cons hin⟩
  | unit | host =>
    obtain ⟨ops, rest, hin⟩ := h
    exact ⟨_, fetch_cons hin⟩

/-- Settles O4: the refusal of a reserved field has its name in the decoder; every other listed word has fields that no
well-formed command has. -/
theorem reservedEncodingsAreIllegal : Obligations.ReservedEncodingsAreIllegal := by
  unfold Obligations.ReservedEncodingsAreIllegal
  refine fun port w => ⟨decode_reservedBits port, decode_unknownOpcode port, fun hopc hn => ?_, fun hopc hn => ?_,
    fun hopc hfn => ?_, fun hopc hfn => ?_, fun hopc hfn => ?_, fun i other => decode_wrongPort, fun s e hs hd => ?_⟩
  case refine_6 =>
    obtain ⟨t, ht⟩ := fetch_of_presented hs
    exact ⟨_, step_of_decode_error ht hd⟩
  all_goals refine exists_decode_error port fun i hwf hni hfni hopci => ?_
  all_goals rw [hopci] at hopc
  · exact hn (hni.trans (Instr.count_eq_zero hopc))
  · have hbounds := Instr.count_bounds hwf hopc
    omega
  · exact hfn (hfni.trans (Instr.fn_eq_zero hopc))
  · have := i.fn_le_two
    omega
  · have := Instr.fn_le_one hopc
    omega

end Sys2Proof.Machine
end

section
/-! PROOFS. 40_memrec.md: the recorder commands (R110, R111), whose clock stands (R113). -/

namespace Sys2Proof.Machine

open Claims

theorem aligned_eq_false_iff (a : Word) : aligned a = false ↔ a.toNat % 4 ≠ 0 := by
  rw [← Bool.not_eq_true, not_congr (aligned_iff a)]

theorem unlessFaulted_of_clear {s : State} (h : s.fstat.kind = .none) (k : Host.Outcome State Fault Refusal) :
    unlessFaulted s k = k :=
  if_pos h

/-- A raised AlignmentError is taken as 60_exceptions.md R298 says, at the state it was raised in. -/
theorem conclude_alignmentError (port : Port) (a : Word) (s : State) :
    conclude port (.fault (.alignmentError a) s) = .next (misaligned port a s) := rfl

section

variable {s : State} (hk : s.fstat.kind = .none)
include hk

theorem exec_mrd_aligned (ha : aligned s.operands.addr = true) :
    let r := readRecord s.mem s.operands.addr s.clk
    exec .mrd s = .next { answered .unit (.wordRead r.newValue r) s with mrb := s.mrb ++ [r] } := by
  change execMrd s = _
  rw [execMrd, unlessFaulted_of_clear hk, mrRead_aligned _ s ha]
  rfl

theorem exec_mrd_misaligned (ha : aligned s.operands.addr = false) :
    exec .mrd s = .next (misaligned .unit s.operands.addr s) := by
  change execMrd s = _
  rw [execMrd, unlessFaulted_of_clear hk, mrRead_misaligned _ s ha, conclude_alignmentError]

theorem exec_mwr_aligned (ha : aligned s.operands.addr = true) :
    let r := writeRecord s.mem s.operands.addr s.clk s.operands.value
    exec .mwr s = .next { answered .unit (.wordWritten r) s with
      mrb := s.mrb ++ [r], mem := s.mem.writeWord s.operands.addr.toNat s.operands.value } := by
  change execMwr s = _
  rw [execMwr, unlessFaulted_of_clear hk, mrWrite_aligned _ _ s ha]
  rfl

theorem exec_mwr_misaligned (ha : aligned s.operands.addr = false) :
    exec .mwr s = .next (misaligned .unit s.operands.addr s) := by
  change execMwr s = _
  rw [execMwr, unlessFaulted_of_clear hk, mrWrite_misaligned _ _ s ha, conclude_alignmentError]

end

/-- Settles O18: at either kind of address MRD ends as its one recorded read does. -/
theorem mrdReadsAndRecords : Obligations.MrdReadsAndRecords := by
  unfold Obligations.MrdReadsAndRecords
  refine ⟨by decide, fun s hk => ⟨fun ha => ?_, fun ha => ?_⟩⟩
  · exact exec_mrd_aligned hk ((aligned_iff _).mpr ha)
  · exact exec_mrd_misaligned hk ((aligned_eq_false_iff _).mpr ha)

/-- Settles O19: at either kind of address MWR ends as its one recorded write does, which stores the word and leaves
the bytes outside it. -/
theorem mwrWritesAndRecords : Obligations.MwrWritesAndRecords := by
  unfold Obligations.MwrWritesAndRecords
  refine ⟨by decide, fun s hk => ⟨fun ha => ?_, fun ha => ?_⟩⟩
  · exact ⟨_, exec_mwr_aligned hk ((aligned_iff _).mpr ha), rfl, Memory.readWord_writeWord_same _ _ _,
      fun b hb => Memory.readByte_writeWord_outside _ _ b _ hb⟩
  · exact exec_mwr_misaligned hk ((aligned_eq_false_iff _).mpr ha)

end Sys2Proof.Machine
end

section
/-! PROOFS. 41_fp_units.md: the operand checks (R131) and what the six unit commands return (R135 to R140). -/

namespace Sys2Proof.Machine

open Claims

/-! ### The operand checks (R131) -/

section

variable {fd : FieldDesc} {vs : List (List Nat)}

theorem operandDefect_limbCountMismatch (hlen : ∃ v ∈ vs, v.length ≠ fd.numLimbs) :
    operandDefect fd vs = some .limbCountMismatch := by
  rw [operandDefect, if_pos (by simpa using hlen)]

theorem operandDefect_limbOutOfRange (hlen : ∀ v ∈ vs, v.length = fd.numLimbs)
    (hlimb : ∃ v ∈ vs, ∃ x ∈ v, fd.base ≤ x) : operandDefect fd vs = some .limbOutOfRange := by
  rw [operandDefect, if_neg (by simpa using hlen), if_pos (by simpa using hlimb)]

theorem operandDefect_nonCanonicalOperand (hlimbs : ∀ v ∈ vs, LimbVector fd v)
    (hval : ∃ v ∈ vs, fd.p ≤ val fd.base v) : operandDefect fd vs = some .nonCanonicalOperand := by
  rw [operandDefect, if_neg (by simpa using fun v hv => (hlimbs v hv).1),
    if_neg (by simpa using fun v hv => (hlimbs v hv).2), if_pos (by simpa using hval)]

end

section

variable {op : UnitOp} {fd : FieldDesc} {ins : List LimbPair}

theorem populate_of_operandDefect {d : DefectCause} (h : operandDefect fd (vectorsOf ins) = some d) :
    populate op fd ins = .error d := by
  simp [populate, h]

theorem populate_of_solve_none (hcan : ∀ v ∈ vectorsOf ins, CanonicalLimbs fd v)
    (hs : op.solve fd.p (ins.map (fun ab => (val fd.base ab.1, val fd.base ab.2))) = none) :
    populate op fd ins = .error .noInverse := by
  simp [populate, (operandDefect_none_iff fd _).mpr hcan, hs]

theorem populate_of_solve_some {ck : Nat × Nat} (hcan : ∀ v ∈ vectorsOf ins, CanonicalLimbs fd v)
    (hs : op.solve fd.p (ins.map (fun ab => (val fd.base ab.1, val fd.base ab.2))) = some ck) :
    ∃ t, populate op fd ins = .ok t :=
  ⟨_, (populate_ok_iff op fd ins _).mpr ⟨hcan, ck.1, ck.2, hs, rfl⟩⟩

end

/-! ### The end of a unit command -/

section

variable {s : State} {op : UnitOp} {ins : List LimbPair} (hk : UnitReady s)
include hk

theorem unitCommand_of_ok {t : UnitResult} (h : populate op s.cfg.fd ins = .ok t) :
    unitCommand op ins s = .next (answered .unit (.triple t) s) := by
  rw [unitCommand, unlessFaulted_of_clear hk, h]
  rfl

theorem unitCommand_of_error {d : DefectCause} (h : populate op s.cfg.fd ins = .error d) :
    unitCommand op ins s = .next (defected .unit d s) := by
  rw [unitCommand, unlessFaulted_of_clear hk, h]
  rfl

/-- On canonical operands with a result, a unit command completes, and its triple is R132's and R133's. -/
theorem unitCommand_answers {ck : Nat × Nat} (hfit : op.Fits ins)
    (hcan : ∀ v ∈ vectorsOf ins, CanonicalLimbs s.cfg.fd v)
    (hs : op.solve s.cfg.fd.p (ins.map (fun ab => (value s ab.1, value s ab.2))) = some ck) :
    ∃ t, unitCommand op ins s = .next (answered .unit (.triple t) s) ∧ UnitAnswer op s.cfg.fd ins t := by
  obtain ⟨t, ht⟩ := populate_of_solve_some hcan hs
  exact ⟨t, unitCommand_of_ok hk ht, populate_answer _ op ins t (unitOk_config s.cfg) hfit ht⟩

end

/-- The unit commands are `unitCommand` of a kind on the pairs it asks for (30_encoding.md R83). -/
theorem exec_eq_unitCommand {i : Instr} {s : State} {vs : List (List Nat)} (hwf : i.wf = true)
    (h : unitVectors i s = some vs) : ∃ op ins, exec i s = unitCommand op ins s ∧ vs = vectorsOf ins := by
  cases i
  case fpadd => exact ⟨.add, _, rfl, (Option.some.inj h).symm⟩
  case fpsub => exact ⟨.sub, _, rfl, (Option.some.inj h).symm⟩
  case fpmul => exact ⟨.mul, _, rfl, (Option.some.inj h).symm⟩
  case fpip n => exact ⟨.ip n, _, if_pos ((wf_fpip_iff n).mp hwf), (Option.some.inj h).symm⟩
  case fpdenP => exact ⟨.denP, _, rfl, (Option.some.inj h).symm⟩
  case fpdenM => exact ⟨.denM, _, rfl, (Option.some.inj h).symm⟩
  all_goals cases h

/-- Settles O26: a unit command ends in the defect its operand checks find, and each check comes after those before it
have passed. -/
theorem unitOperandChecksComeInOrder : Obligations.UnitOperandChecksComeInOrder := by
  unfold Obligations.UnitOperandChecksComeInOrder
  intro s i vs hk hwf hvs
  obtain ⟨op, ins, hexec, rfl⟩ := exec_eq_unitCommand hwf hvs
  have ends {d : DefectCause} (hd : operandDefect s.cfg.fd (vectorsOf ins) = some d) :
      exec i s = .next (defected .unit d s) :=
    hexec.trans (unitCommand_of_error hk (populate_of_operandDefect hd))
  exact ⟨fun hlen => ends (operandDefect_limbCountMismatch hlen),
    fun hlen hlimb => ends (operandDefect_limbOutOfRange hlen hlimb),
    fun hlimbs hval => ends (operandDefect_nonCanonicalOperand hlimbs hval)⟩

/-! ### Result and quotient from the identity (R132) -/

/-- A result below `p` and its quotient are the remainder and the quotient of the division by `p`. -/
theorem mod_div_of_identity {p x c k : Nat} (hc : c < p) (h : (x : Int) - c - k * p = 0) : c = x % p ∧ k = x / p := by
  have hx : c + p * k = x := by zify; linarith
  obtain ⟨hdiv, hmod⟩ := (Nat.div_mod_unique (by omega : 0 < p)).mpr ⟨hx, hc⟩
  exact ⟨hmod.symm, hdiv.symm⟩

theorem emod_of_sub_identity {p a b c k : Nat} (hc : c < p) (h : (a : Int) - b - c + k * p = 0) :
    (c : Int) = ((a : Int) - b) % p := by
  have hab : (a : Int) - b = c + p * (-k : Int) := by linarith
  rw [hab, Int.add_mul_emod_self_left, Int.emod_eq_of_lt (by omega) (by omega)]

/-- The correction of a subtraction is one `p` exactly when it borrows. -/
theorem borrow_of_sub_identity {p a b c k : Nat} (hb : b < p) (hc : c < p)
    (h : (a : Int) - b - c + k * p = 0) : k = if b ≤ a then 0 else 1 := by
  have hkp : a + k * p = b + c := by zify; linarith
  have hk : k < 2 := by
    by_contra hk
    have := Nat.mul_le_mul_right p (by omega : 2 ≤ k)
    omega
  obtain rfl | rfl : k = 0 ∨ k = 1 := by omega
  · rw [if_pos (by omega)]
  · rw [if_neg (by omega)]

/-- A nonnegative multiple `k·p` that is at most `(p-1)^2` has `k <= p - 2`. -/
theorem quotient_le_sub_two {p k : Nat} (hp : 1 < p) (h : k * p ≤ (p - 1) * (p - 1)) : k ≤ p - 2 := by
  obtain ⟨q, rfl⟩ : ∃ q, p = q + 2 := ⟨p - 2, by omega⟩
  by_contra hk
  have := Nat.mul_le_mul_right (q + 2) (by omega : q + 1 ≤ k)
  simp only [show q + 2 - 1 = q + 1 by omega] at h
  nlinarith

/-! ### The commands on one canonical pair -/

section

variable {s : State} {a b : List Nat}

theorem canonicalPair_vectors (hab : CanonicalPair s a b) :
    ∀ v ∈ vectorsOf [operandPair s 0], CanonicalLimbs s.cfg.fd v := by
  obtain ⟨hpair, ha, hb⟩ := hab
  simp [hpair, vectorsOf, ha, hb]

theorem canonicalPair_lt (hab : CanonicalPair s a b) : value s a < s.cfg.fd.p ∧ value s b < s.cfg.fd.p := by
  obtain ⟨-, ⟨-, -, ha⟩, ⟨-, -, hb⟩⟩ := hab
  exact ⟨ha, hb⟩

theorem pair_fits {op : UnitOp} (h : op.terms = 1) (ab : LimbPair) : op.Fits [ab] := by
  simp [UnitOp.Fits, h, Config.ipMax]

theorem three_le_p (c : Config) : 3 ≤ c.fd.p := by
  obtain ⟨-, -, -, hp, -⟩ := (unitOk_iff c.fd).mp (unitOk_config c)
  exact hp

/-- A unit of one pair completes on a canonical pair that has a result, with a result below `p` that meets R132. -/
theorem pairCommand_answers {op : UnitOp} {ck : Nat × Nat} (hk : UnitReady s) (hab : CanonicalPair s a b)
    (hop : op.terms = 1) (hs : op.solve s.cfg.fd.p [(value s a, value s b)] = some ck) :
    ∃ t, unitCommand op [operandPair s 0] s = .next (answered .unit (.triple t) s) ∧ value s t.res < s.cfg.fd.p ∧
      op.identity s.cfg.fd.p [(value s a, value s b)] (value s t.res) (value s t.quot) = 0 ∧
      UnitAnswer op s.cfg.fd [(a, b)] t := by
  obtain ⟨t, hexec, hanswer⟩ := unitCommand_answers hk (pair_fits hop _) (canonicalPair_vectors hab)
    (by simpa [hab.1] using hs)
  rw [hab.1] at hanswer
  have ⟨⟨_, _, hres⟩, _, hid, _⟩ := hanswer
  exact ⟨t, hexec, hres, hid, hanswer⟩

/-- A unit of one pair that has no result for a canonical pair raises NoInverse. -/
theorem pairCommand_noInverse {op : UnitOp} (hk : UnitReady s) (hab : CanonicalPair s a b)
    (hs : op.solve s.cfg.fd.p [(value s a, value s b)] = none) :
    unitCommand op [operandPair s 0] s = .next (defected .unit .noInverse s) :=
  unitCommand_of_error hk (populate_of_solve_none (canonicalPair_vectors hab) (by simpa [hab.1, value] using hs))

end

/-- Settles O20: R132's identity with a result below `p` is the division of `a + b` by `p`. -/
theorem fpaddReturnsTheSum : Obligations.FpaddReturnsTheSum := by
  unfold Obligations.FpaddReturnsTheSum
  refine ⟨by decide, fun s a b hk hab => ?_⟩
  obtain ⟨t, hexec, hres, hid, hanswer⟩ := pairCommand_answers (op := .add) hk hab rfl rfl
  obtain ⟨hc, hq⟩ := mod_div_of_identity (x := value s a + value s b) hres
    (by simpa [UnitOp.identity] using hid)
  have hsmall : (value s a + value s b) / s.cfg.fd.p < 2 :=
    Nat.div_lt_of_lt_mul (by have := canonicalPair_lt hab; omega)
  exact ⟨t, hexec, hc, hq, by omega, hanswer⟩

/-- Settles O21: R132's identity with a result below `p` leaves one choice for `c`, and one for `k`. -/
theorem fpsubReturnsTheDifference : Obligations.FpsubReturnsTheDifference := by
  unfold Obligations.FpsubReturnsTheDifference
  refine ⟨by decide, fun s a b hk hab => ?_⟩
  obtain ⟨t, hexec, hres, hid, hanswer⟩ := pairCommand_answers (op := .sub) hk hab rfl rfl
  obtain ⟨-, hb⟩ := canonicalPair_lt hab
  exact ⟨t, hexec, emod_of_sub_identity hres hid, borrow_of_sub_identity hb hres hid, hanswer⟩

/-- Settles O22: R132's identity with a result below `p` is the division of `a·b <= (p-1)^2` by `p`. -/
theorem fpmulReturnsTheProduct : Obligations.FpmulReturnsTheProduct := by
  unfold Obligations.FpmulReturnsTheProduct
  refine ⟨by decide, fun s a b hk hab => ?_⟩
  obtain ⟨t, hexec, hres, hid, hanswer⟩ := pairCommand_answers (op := .mul) hk hab rfl rfl
  obtain ⟨hc, hq⟩ := mod_div_of_identity (x := value s a * value s b) hres (by simpa [UnitOp.identity] using hid)
  obtain ⟨ha, hb⟩ := canonicalPair_lt hab
  have hprod : value s a * value s b ≤ (s.cfg.fd.p - 1) * (s.cfg.fd.p - 1) := Nat.mul_le_mul (by omega) (by omega)
  have hle : value s t.quot ≤ s.cfg.fd.p - 2 := by
    refine quotient_le_sub_two (by have := three_le_p s.cfg; omega) (le_trans ?_ hprod)
    rw [hq]
    exact Nat.div_mul_le_self _ _
  exact ⟨t, hexec, hc, hq, hle, hanswer⟩

/-! ### Division (R139, R140, R147) -/

section

variable {p a b : Nat}

theorem solveDenP_eq_some (hp : p.Prime) (h2 : 2 < p) (hb : b < p) (hne : b ≠ p - 1) :
    ∃ ck, solveDenP p a b = some ck := by
  have hden : (1 + b) % p = 1 + b := Nat.mod_eq_of_lt (by omega)
  obtain ⟨z, hz, -⟩ := inverse_of_prime hp h2 (Nat.not_dvd_of_pos_of_lt (by omega : 0 < 1 + b) (by omega))
  exact ⟨_, by rw [solveDenP, hden, hz]⟩

theorem solveDenP_eq_none (hp : 0 < p) (hb : b = p - 1) : solveDenP p a b = none := by
  rw [solveDenP, show 1 + b = p by omega, Nat.mod_self, inverse_zero]

/-- `1 - b mod p` is `0` exactly for `b = 1`. -/
theorem one_sub_emod_toNat (hp : 1 < p) (hb : b < p) :
    ((1 - (b : Int)) % p).toNat = if b = 0 then 1 else if b = 1 then 0 else p + 1 - b := by
  split_ifs with h0 h1
  · subst h0
    rw [Nat.cast_zero, sub_zero, Int.emod_eq_of_lt (by omega) (by omega)]
    rfl
  · subst h1
    simp
  · rw [← Int.add_emod_right, Int.emod_eq_of_lt (by omega) (by omega)]
    omega

theorem solveDenM_eq_some (hp : p.Prime) (h2 : 2 < p) (hb : b < p) (hne : b ≠ 1) :
    ∃ ck, solveDenM p a b = some ck := by
  have hden := one_sub_emod_toNat (by omega) hb
  have hdvd : ¬ p ∣ ((1 - (b : Int)) % p).toNat := by
    refine Nat.not_dvd_of_pos_of_lt ?_ ?_ <;> rw [hden] <;> split_ifs <;> omega
  obtain ⟨z, hz, -⟩ := inverse_of_prime hp h2 hdvd
  exact ⟨_, by rw [solveDenM, hz]⟩

theorem solveDenM_eq_none (hb : b = 1) : solveDenM p a b = none := by
  subst hb
  simp [solveDenM, inverse_zero]

end

/-- Settles O24: the inverse exists unless `1 + b = p`, and then R132's identity is `r·(1 + b) = a + k·p`. -/
theorem fpdenPReturnsTheQuotient : Obligations.FpdenPReturnsTheQuotient := by
  unfold Obligations.FpdenPReturnsTheQuotient
  refine ⟨by decide, fun s a b hk hab => ⟨fun hne => ?_, fun heq => ?_⟩⟩
  · obtain ⟨ha, hb⟩ := canonicalPair_lt hab
    obtain ⟨ck, hs⟩ := solveDenP_eq_some (a := value s a) s.cfg.wellFormed.primeP (three_le_p s.cfg) hb hne
    obtain ⟨t, hexec, hres, hid, hanswer⟩ := pairCommand_answers (op := .denP) hk hab rfl hs
    have hmul : value s t.res * (1 + value s b) = value s a + value s t.quot * s.cfg.fd.p := by
      simp only [UnitOp.identity, List.headD_cons] at hid
      zify
      linarith
    have hmod : value s t.res * (1 + value s b) % s.cfg.fd.p = value s a := by
      rw [hmul, Nat.add_mul_mod_self_right, Nat.mod_eq_of_lt ha]
    have hprod : value s t.res * (1 + value s b) ≤ (s.cfg.fd.p - 1) * (s.cfg.fd.p - 1) :=
      Nat.mul_le_mul (by omega) (by omega)
    exact ⟨t, hexec, hmod, quotient_le_sub_two (by omega) (by omega), hanswer⟩
  · exact pairCommand_noInverse (op := .denP) hk hab (solveDenP_eq_none (by have := three_le_p s.cfg; omega) heq)

/-- Settles O25: the inverse exists unless `b = 1`, and then R132's identity is `r·(1 - b) = a - k·p`. -/
theorem fpdenMReturnsTheQuotient : Obligations.FpdenMReturnsTheQuotient := by
  unfold Obligations.FpdenMReturnsTheQuotient
  refine ⟨by decide, fun s a b hk hab => ⟨fun hne => ?_, fun heq => ?_⟩⟩
  · obtain ⟨ha, hb⟩ := canonicalPair_lt hab
    have hp := three_le_p s.cfg
    obtain ⟨ck, hs⟩ := solveDenM_eq_some (a := value s a) s.cfg.wellFormed.primeP hp hb hne
    obtain ⟨t, hexec, hres, hid, hanswer⟩ := pairCommand_answers (op := .denM) hk hab rfl hs
    have hmul : (value s t.res : Int) * (1 - value s b) = value s a + s.cfg.fd.p * (-(value s t.quot : Int)) := by
      simp only [UnitOp.identity, List.headD_cons] at hid
      linarith
    have hmod : (value s t.res : Int) * (1 - value s b) % s.cfg.fd.p = value s a := by
      rw [hmul, Int.add_mul_emod_self_left, Int.emod_eq_of_lt (by omega) (by omega)]
    have hle : value s t.quot * s.cfg.fd.p ≤ (s.cfg.fd.p - 1) * (s.cfg.fd.p - 1) := by
      have h1 : ((s.cfg.fd.p - 1 : Nat) : Int) = s.cfg.fd.p - 1 := by omega
      zify
      rw [h1]
      nlinarith
    exact ⟨t, hexec, hmod, quotient_le_sub_two (by omega) hle, hanswer⟩
  · exact pairCommand_noInverse (op := .denM) hk hab (solveDenM_eq_none heq)

/-! ### The inner product (R138) -/

@[simp] theorem addV_nil (xs : List Int) : addV xs [] = xs := by cases xs <;> rfl

/-- An inner product of one pair is a multiplication. -/
theorem populate_ip_singleton (n : Nat) (fd : FieldDesc) (ab : LimbPair) :
    populate (.ip n) fd [ab] = populate .mul fd [ab] := by
  have hsolve (p : Nat) (xy : Nat × Nat) : UnitOp.solve (.ip n) p [xy] = UnitOp.solve .mul p [xy] := by
    simp [UnitOp.solve, solveIp, solveMul]
  have hpos (res quot : List Nat) :
      UnitOp.positions (.ip n) fd [ab] res quot = UnitOp.positions .mul fd [ab] res quot := by
    simp [UnitOp.positions, firstPair]
  simp only [populate, List.map_cons, List.map_nil, hsolve, hpos]

theorem natCast_sum_products (abs : List (Nat × Nat)) :
    (((abs.map (fun ab => ab.1 * ab.2)).sum : Nat) : Int) = (abs.map (fun ab => (ab.1 : Int) * ab.2)).sum := by
  rw [Nat.cast_list_sum, List.map_map]
  simp [Function.comp_def]

theorem canonical_values_lt {fd : FieldDesc} {ins : List LimbPair} (hcan : ∀ v ∈ vectorsOf ins, CanonicalLimbs fd v) :
    ∀ ab ∈ ins.map (fun ab => (val fd.base ab.1, val fd.base ab.2)), ab.1 < fd.p ∧ ab.2 < fd.p := by
  intro ab hab
  obtain ⟨x, hx, rfl⟩ := List.mem_map.mp hab
  obtain ⟨-, -, h₁⟩ := hcan x.1 (List.mem_flatMap.mpr ⟨x, hx, by simp⟩)
  obtain ⟨-, -, h₂⟩ := hcan x.2 (List.mem_flatMap.mpr ⟨x, hx, by simp⟩)
  exact ⟨h₁, h₂⟩

theorem encode_fpip {n : Nat} (hwf : (Instr.fpip n).wf = true) : (encode (.fpip n)).toNat = 0x11 + n * 2 ^ 16 := by
  obtain ⟨h1, h2⟩ := (wf_fpip_iff n).mp hwf
  obtain rfl | rfl : n = 1 ∨ n = 2 := by unfold Config.ipMax at h2; omega
  all_goals decide

/-- Settles O23: R132's identity with a result below `p` is the division of the sum of products by `p`; one pair is
FPMUL's case. -/
theorem fpipReturnsTheInnerProduct : Obligations.FpipReturnsTheInnerProduct := by
  unfold Obligations.FpipReturnsTheInnerProduct
  constructor
  · intro s n hk h1 h2 hcan total
    have hp := three_le_p s.cfg
    have hfit : UnitOp.Fits (.ip n) (operandPairs s n) := ⟨by simp [operandPairs, UnitOp.terms], h1, h2⟩
    obtain ⟨t, hexec, hanswer⟩ := unitCommand_answers (op := .ip n) hk hfit hcan rfl
    have ⟨⟨_, _, hres⟩, _, hid, _⟩ := hanswer
    have htotal : total = (((operandPairs s n).map (fun ab => (value s ab.1, value s ab.2))).map
        (fun ab => ab.1 * ab.2)).sum := by rw [List.map_map]; rfl
    obtain ⟨hc, hq⟩ := mod_div_of_identity (x := total) (k := value s t.quot) hres
      (by rw [htotal, natCast_sum_products]; exact hid)
    have hne : operandPairs s n ≠ [] := List.ne_nil_of_length_pos (by simp [operandPairs]; omega)
    obtain ⟨-, -, hlt⟩ := solveIp_identity s.cfg.fd.p _ (by omega) (canonical_values_lt hcan) (by simpa using hne)
    have hquot : value s t.quot < n * s.cfg.fd.p := by
      rw [hq, htotal]
      simpa [solveIp, operandPairs, value] using hlt
    refine ⟨encode_fpip ((wf_fpip_iff n).mpr ⟨h1, h2⟩), t, (if_pos ⟨h1, h2⟩).trans hexec, hc, hq, hquot, hanswer,
      fun hn => ?_⟩
    subst hn
    rw [← hexec]
    change unitCommand .mul [operandPair s 0] s = unitCommand (.ip 1) [operandPair s 0] s
    rw [unitCommand, unitCommand, populate_ip_singleton]
  · intro s n hn
    exact if_neg (by omega)

end Sys2Proof.Machine
end

section
/-! PROOFS. 41_fp_units.md: the bounds of positions and carries (R134), the cells (R141, R142), and unit eval, its
completeness and its soundness (R143, R144, R146). -/

namespace Sys2Proof.Machine

/-! ### The positions (R134) -/

theorem two_le_base {fd : FieldDesc} (hc : fd.unitOk = true) : 2 ≤ fd.base := by
  obtain ⟨-, hw, -⟩ := (unitOk_iff fd).mp hc
  exact Nat.le_self_pow (by omega) 2

/-- `S(n)` over the integers. -/
theorem natCast_sBound {fd : FieldDesc} (hb : 1 ≤ fd.base) (n : Nat) :
    (fd.sBound n : Int) = n * (fd.numLimbs * ((fd.base : Int) - 1) ^ 2) + ((fd.base : Int) - 1) := by
  simp only [FieldDesc.sBound]
  push_cast [Nat.cast_sub hb]
  ring

section

variable {fd : FieldDesc} {a b : List Nat} (hb : 1 ≤ fd.base)
include hb

theorem getD_bounds (ha : LimbVector fd a) (i : Nat) :
    (0 : Int) ≤ a.getD i 0 ∧ (a.getD i 0 : Int) ≤ (fd.base : Int) - 1 := by
  have hlt : a.getD i 0 < fd.base := by
    rcases Nat.lt_or_ge i a.length with hi | hi
    · rw [List.getD_eq_getElem _ _ hi]
      exact ha.2 _ (List.getElem_mem hi)
    · rw [List.getD_eq_default _ _ hi]
      exact hb
  omega

theorem padAt_bounds (ha : LimbVector fd a) (j : Nat) :
    0 ≤ padAt fd.numLimbs a j ∧ padAt fd.numLimbs a j ≤ (fd.base : Int) - 1 := by
  unfold padAt
  split
  · exact getD_bounds hb ha j
  · omega

theorem convAt_bounds (ha : LimbVector fd a) (hb' : LimbVector fd b) (j : Nat) :
    0 ≤ convAt fd.numLimbs a b j ∧ convAt fd.numLimbs a b j ≤ fd.numLimbs * ((fd.base : Int) - 1) ^ 2 := by
  have term (i : Nat) :
      0 ≤ (if i ≤ j ∧ j - i < fd.numLimbs then (a.getD i 0 : Int) * (b.getD (j - i) 0 : Int) else 0) ∧
        (if i ≤ j ∧ j - i < fd.numLimbs then (a.getD i 0 : Int) * (b.getD (j - i) 0 : Int) else 0) ≤
          ((fd.base : Int) - 1) ^ 2 := by
    obtain ⟨ha0, ha1⟩ := getD_bounds hb ha i
    obtain ⟨hb0, hb1⟩ := getD_bounds hb hb' (j - i)
    split
    · exact ⟨mul_nonneg ha0 hb0, by rw [sq]; exact mul_le_mul ha1 hb1 hb0 (ha0.trans ha1)⟩
    · exact ⟨le_rfl, sq_nonneg _⟩
  unfold convAt
  constructor
  · exact List.sum_nonneg (by simpa using fun i _ => (term i).1)
  · refine (List.sum_le_card_nsmul _ (((fd.base : Int) - 1) ^ 2) (by simpa using fun i _ => (term i).2)).trans ?_
    simp

/-- The sum of the products of an inner product, position by position. -/
theorem sum_convAt_bounds {ins : List LimbPair} (hins : ∀ v ∈ vectorsOf ins, LimbVector fd v) (j : Nat) :
    0 ≤ (ins.map (fun ab => convAt fd.numLimbs ab.1 ab.2 j)).sum ∧
      (ins.map (fun ab => convAt fd.numLimbs ab.1 ab.2 j)).sum ≤
        ins.length * (fd.numLimbs * ((fd.base : Int) - 1) ^ 2) := by
  have term : ∀ ab ∈ ins, 0 ≤ convAt fd.numLimbs ab.1 ab.2 j ∧
      convAt fd.numLimbs ab.1 ab.2 j ≤ fd.numLimbs * ((fd.base : Int) - 1) ^ 2 := fun ab hab =>
    convAt_bounds hb (hins _ (List.mem_flatMap.mpr ⟨ab, hab, by simp⟩))
      (hins _ (List.mem_flatMap.mpr ⟨ab, hab, by simp⟩)) j
  constructor
  · refine List.sum_nonneg fun x hx => ?_
    obtain ⟨ab, hab, rfl⟩ := List.mem_map.mp hx
    exact (term ab hab).1
  · refine (List.sum_le_card_nsmul _ (fd.numLimbs * ((fd.base : Int) - 1) ^ 2) fun x hx => ?_).trans (by simp)
    obtain ⟨ab, hab, rfl⟩ := List.mem_map.mp hx
    exact (term ab hab).2

end

theorem firstPair_mem_vectorsOf {ins : List LimbPair} (h : ins ≠ []) :
    (firstPair ins).1 ∈ vectorsOf ins ∧ (firstPair ins).2 ∈ vectorsOf ins := by
  obtain ⟨ab, rest, rfl⟩ := List.exists_cons_of_ne_nil h
  simp [firstPair, vectorsOf]

theorem UnitOp.Fits.ne_nil {op : UnitOp} {ins : List LimbPair} (h : op.Fits ins) : ins ≠ [] := by
  obtain ⟨hlen, h1, -⟩ := h
  exact List.ne_nil_of_length_pos (by omega)

/-- `|s[j]| <= S(n)` when all limbs are in range. -/
theorem abs_positionAt_le {fd : FieldDesc} {op : UnitOp} {ins : List LimbPair} {res quot : List Nat}
    (hc : fd.unitOk = true) (hfit : op.Fits ins) (hins : ∀ v ∈ vectorsOf ins, LimbVector fd v)
    (hres : LimbVector fd res) (hquot : LimbVector fd quot) (j : Nat) :
    |op.positionAt fd ins res quot j| ≤ fd.sBound op.terms := by
  have hbase := two_le_base hc
  have hB : 1 ≤ fd.base := by omega
  obtain ⟨hL, -⟩ := (unitOk_iff fd).mp hc
  obtain ⟨hmem₁, hmem₂⟩ := firstPair_mem_vectorsOf hfit.ne_nil
  have ha := hins _ hmem₁
  have hb := hins _ hmem₂
  have hp : LimbVector fd (limbs fd.base fd.numLimbs fd.p) := ⟨limbs_length _ _ _, limbs_lt _ _ _ hB⟩
  have padA := padAt_bounds hB ha j
  have padB := padAt_bounds hB hb j
  have padRes := padAt_bounds hB hres j
  have convAB := convAt_bounds hB ha hb j
  have convResB := convAt_bounds hB hres hb j
  have convKP := convAt_bounds hB hquot hp j
  have convSum := sum_convAt_bounds hB hins j
  obtain ⟨hlen, hterms, -⟩ := hfit
  have hD : (1 : Int) ≤ (fd.base : Int) - 1 := by omega
  -- one limb stays below the products of one position, and those below the products of `n` terms
  have hlimb : (fd.base : Int) - 1 ≤ fd.numLimbs * ((fd.base : Int) - 1) ^ 2 := by
    have : (1 : Int) ≤ fd.numLimbs := by exact_mod_cast hL
    nlinarith
  have hn : (fd.numLimbs : Int) * ((fd.base : Int) - 1) ^ 2 ≤
      op.terms * (fd.numLimbs * ((fd.base : Int) - 1) ^ 2) :=
    le_mul_of_one_le_left (by linarith) (by exact_mod_cast hterms)
  rw [natCast_sBound hB, abs_le]
  rw [hlen] at convSum
  generalize (op.terms : Int) * (fd.numLimbs * ((fd.base : Int) - 1) ^ 2) = products at hn convSum ⊢
  cases op
  all_goals
    simp only [UnitOp.positionAt]
    constructor <;> linarith

/-! ### The carries (R134) -/

@[simp] theorem carryBefore_zero (t : List Int) : carryBefore t 0 = 0 := rfl

@[simp] theorem carryBefore_succ (t : List Int) (j : Nat) : carryBefore t (j + 1) = t.getD j 0 := by
  simp [carryBefore]

/-- A chain whose positions are at most `M·(B - 1)` has carries of at most `M`: `B·|t[j]| <= M·(B - 1) + M`. -/
theorem abs_carry_le {fd : FieldDesc} {s : Nat → Int} {t : List Int} {M : Int} (hbase : 1 ≤ fd.base) (hM : 0 ≤ M)
    (hs : ∀ j, j < 2 * fd.numLimbs - 1 → |s j| ≤ M * ((fd.base : Int) - 1)) (h : CarriesExactly fd s t) (j : Nat)
    (hj : j < 2 * fd.numLimbs - 1) : |t.getD j 0| ≤ M := by
  have hB : (0 : Int) < fd.base := by exact_mod_cast hbase
  obtain ⟨-, hsteps⟩ := h
  have step (k : Nat) (hk : k < 2 * fd.numLimbs - 1) (hbefore : |carryBefore t k| ≤ M) : |t.getD k 0| ≤ M := by
    have hmul : fd.base * |t.getD k 0| ≤ fd.base * M := by
      calc fd.base * |t.getD k 0| = |s k + carryBefore t k| := by rw [hsteps k hk, abs_mul, abs_of_pos hB]
        _ ≤ |s k| + |carryBefore t k| := abs_add_le _ _
        _ ≤ M * ((fd.base : Int) - 1) + M := add_le_add (hs k hk) hbefore
        _ = fd.base * M := by ring
    exact le_of_mul_le_mul_left hmul hB
  induction j with
  | zero => exact step 0 hj (by simpa using hM)
  | succ j ih => exact step (j + 1) hj (by rw [carryBefore_succ]; exact ih (by omega))

/-- What populate returns has carries within the stated bound, which is below `T_OFF(n)`. -/
theorem populate_carry_bounds {fd : FieldDesc} {op : UnitOp} {ins : List LimbPair} {t : UnitResult}
    (hc : fd.unitOk = true) (hfit : op.Fits ins) (h : populate op fd ins = .ok t) :
    ∀ x ∈ t.carry, |x| ≤ op.terms * fd.numLimbs * ((fd.base : Int) - 1) + 1 ∧ |x| < fd.tOff op.terms := by
  obtain ⟨hcan, -⟩ := (populate_ok_iff op fd ins t).mp h
  obtain ⟨⟨hlen, hlimbs, -⟩, hquot, -, hcarry⟩ := populate_answer fd op ins t hc hfit h
  have hbase := two_le_base hc
  have ⟨_, hterms, _⟩ := hfit
  set M : Int := op.terms * fd.numLimbs * ((fd.base : Int) - 1) + 1 with hMdef
  have hD : (0 : Int) ≤ (fd.base : Int) - 1 := by omega
  have hM : 0 ≤ M := by positivity
  have hpos (j : Nat) : |op.positionAt fd ins t.res t.quot j| ≤ M * ((fd.base : Int) - 1) := by
    refine (abs_positionAt_le hc hfit (fun v hv => ⟨(hcan v hv).1, (hcan v hv).2.1⟩) ⟨hlen, hlimbs⟩ hquot j).trans ?_
    rw [natCast_sBound (by omega)]
    linarith
  intro x hx
  obtain ⟨j, hj, rfl⟩ := List.mem_iff_getElem.mp hx
  have hcount := hcarry.1
  have hle : |t.carry[j]| ≤ M := by
    rw [← List.getD_eq_getElem _ 0 hj]
    exact abs_carry_le (by omega) hM (fun k _ => hpos k) hcarry j (by omega)
  -- a chain with a carry has at least two limbs, so `1 < n·L`
  have hmany : 1 < op.terms * fd.numLimbs := by nlinarith [(by omega : 2 ≤ fd.numLimbs)]
  have hlt : M < fd.tOff op.terms := by
    have : (1 : Int) < op.terms * fd.numLimbs := by exact_mod_cast hmany
    simp only [FieldDesc.tOff, hMdef]
    push_cast
    linarith
  exact ⟨hle, hle.trans_lt hlt⟩

/-- Settles O27: the positions are bounded term by term, the carries along the chain. -/
theorem witnessesStayInBounds : Obligations.WitnessesStayInBounds := by
  unfold Obligations.WitnessesStayInBounds
  exact fun fd op ins hc hfit =>
    ⟨fun res quot hins hres hquot j _ => abs_positionAt_le hc hfit hins hres hquot j,
      fun t ht => populate_carry_bounds hc hfit ht⟩

/-! ### Unit eval by position (R143) -/

theorem carryBefore_eq_getD (t : List Int) (j : Nat) : carryBefore t j = (0 :: t).getD j 0 := by
  cases j <;> simp

/-- (E3) along the lists is (E3) at every position; what a list does not reach is `0`. -/
theorem chainHolds_iff (q base t : Int) (ss us : List Int) :
    chainHolds q base t ss us = true ↔
      ∀ j, j < ss.length → (ss.getD j 0 + (t :: us).getD j 0 - base * us.getD j 0) % q = 0 := by
  induction ss generalizing t us with
  | nil => simp [chainHolds]
  | cons s ss ih =>
    rw [List.length_cons, Nat.forall_lt_succ_left]
    cases us with
    | nil => simp [chainHolds, ih]
    | cons u us => simp [chainHolds, ih]

/-- Unit eval is (E1), (E2) and (E3). -/
theorem unitPasses_iff {q : Nat} {fd : FieldDesc} {op : UnitOp} {ins : List LimbPair} {u : UnitCells}
    (hL : 1 ≤ fd.numLimbs) (hfit : op.Fits ins) (hins : ∀ v ∈ vectorsOf ins, v.length = fd.numLimbs)
    (hu : u.Sized fd) : unitPasses q fd op ins u = true ↔ UnitConstraints q fd op ins u := by
  obtain ⟨hres, hquot, -⟩ := hu
  simp only [unitPasses, UnitConstraints, Bool.and_eq_true, List.all_append, List.all_eq_true, decide_eq_true_eq,
    chainHolds_iff, positions_length op fd ins _ _ hL hins hfit.ne_nil hres hquot,
    getD_positions op fd ins _ _ hins hfit.ne_nil hres hquot, carryBefore_eq_getD, and_assoc]

/-- Settles O28: the lists that unit eval walks are the formulas of the spec at every position. -/
theorem unitEvalIsE1E2E3 : Obligations.UnitEvalIsE1E2E3 := by
  unfold Obligations.UnitEvalIsE1E2E3
  exact fun q fd op ins u hL hfit hins hu => unitPasses_iff hL hfit hins hu

/-! ### Carry cells (R141, R142) -/

theorem natCast_carryCell {q : Nat} (hq : 0 < q) (t : Int) : (carryCell q t : Int) = t % q :=
  Int.toNat_of_nonneg (Int.emod_nonneg _ (by omega))

theorem carryCell_lt {q : Nat} (hq : 0 < q) (t : Int) : carryCell q t < q := by
  zify
  rw [natCast_carryCell hq]
  exact Int.emod_lt_of_pos _ (by exact_mod_cast hq)

/-- Settles O29: a carry of either sign is read on its own side of `Q/2`. -/
theorem carryCellsReadBackSigned : Obligations.CarryCellsReadBackSigned := by
  unfold Obligations.CarryCellsReadBackSigned
  intro q t ht
  have hq : 0 < q := by have := abs_nonneg t; omega
  have hcell := natCast_carryCell hq t
  refine ⟨carryCell_lt hq t, ?_⟩
  unfold signedCell
  rcases lt_or_ge t 0 with hneg | hpos
  · rw [abs_of_neg hneg] at ht
    rw [← Int.add_emod_right, Int.emod_eq_of_lt (by omega) (by omega)] at hcell
    rw [if_neg (by omega)]
    omega
  · rw [abs_of_nonneg hpos] at ht
    rw [Int.emod_eq_of_lt hpos (by omega)] at hcell
    rw [if_pos (by omega)]
    exact hcell

/-! ### Completeness (R144) -/

/-- A carry below `T_OFF` in size passes the range check (E2) as a cell. -/
theorem carryCell_add_mod_lt {q T : Nat} {t : Int} (hq : 2 * T < q) (ht : |t| < T) :
    (carryCell q t + T) % q < 2 * T := by
  obtain ⟨hlow, hhigh⟩ := abs_lt.mp ht
  zify
  rw [natCast_carryCell (by omega), Int.emod_add_emod, Int.emod_eq_of_lt (by omega) (by omega)]
  linarith

/-- Cells read as integers are congruent to the carries they store. -/
theorem getD_ints_carryCells_modEq {q : Nat} (hq : 0 < q) (t : List Int) (j : Nat) :
    (ints (t.map (carryCell q))).getD j 0 ≡ t.getD j 0 [ZMOD q] := by
  have hzero : carryCell q 0 = 0 := by simp [carryCell]
  rw [getD_ints, ← hzero, List.getD_map, natCast_carryCell hq]
  exact Int.mod_modEq _ _

theorem carryBefore_modEq {q : Nat} {t u : List Int} (h : ∀ j, t.getD j 0 ≡ u.getD j 0 [ZMOD q]) (j : Nat) :
    carryBefore t j ≡ carryBefore u j [ZMOD q] := by
  cases j with
  | zero => exact Int.ModEq.refl _
  | succ j => simpa using h j

/-- One step of (E3) depends on the carries mod `Q` only. -/
theorem chainStep_modEq {q : Nat} {t u : List Int} (h : ∀ j, t.getD j 0 ≡ u.getD j 0 [ZMOD q]) (s base : Int)
    (j : Nat) :
    s + carryBefore t j - base * t.getD j 0 ≡ s + carryBefore u j - base * u.getD j 0 [ZMOD q] :=
  ((Int.ModEq.refl s).add (carryBefore_modEq h j)).sub ((h j).mul_left base)

theorem two_mul_tOff_lt {fd : FieldDesc} {n q : Nat} (hb : 2 ≤ fd.base)
    (hq : fd.sBound n + fd.tOff n * (fd.base + 1) < q) : 2 * fd.tOff n < q := by
  have : fd.tOff n * 2 ≤ fd.tOff n * (fd.base + 1) := Nat.mul_le_mul_left _ (by omega)
  omega

/-- What populate returns passes unit eval as cells. -/
theorem unitPasses_toCells {q : Nat} {fd : FieldDesc} {op : UnitOp} {ins : List LimbPair} {t : UnitResult}
    (hc : fd.unitOk = true) (hfit : op.Fits ins) (hq : fd.sBound op.terms + fd.tOff op.terms * (fd.base + 1) < q)
    (h : populate op fd ins = .ok t) : unitPasses q fd op ins (t.toCells q) = true := by
  obtain ⟨hcan, -⟩ := (populate_ok_iff op fd ins t).mp h
  obtain ⟨⟨hreslen, hres, -⟩, ⟨hquotlen, hquot⟩, -, hcarrylen, hsteps⟩ := populate_answer fd op ins t hc hfit h
  obtain ⟨hL, -⟩ := (unitOk_iff fd).mp hc
  have hoff := two_mul_tOff_lt (two_le_base hc) hq
  have hq0 : 0 < q := by omega
  have hsized : (t.toCells q).Sized fd := ⟨hreslen, hquotlen, by simpa [UnitResult.toCells] using hcarrylen⟩
  refine (unitPasses_iff hL hfit (fun v hv => (hcan v hv).1) hsized).mpr ⟨hres, hquot, ?_, fun j hj => ?_⟩
  · intro v hv
    obtain ⟨x, hx, rfl⟩ := List.mem_map.mp hv
    exact carryCell_add_mod_lt hoff (populate_carry_bounds hc hfit h x hx).2
  · refine Int.emod_eq_zero_of_dvd (Int.modEq_zero_iff_dvd.mp ?_)
    refine (chainStep_modEq (getD_ints_carryCells_modEq hq0 t.carry) _ _ j).trans ?_
    change op.positionAt fd ins t.res t.quot j + carryBefore t.carry j - fd.base * t.carry.getD j 0 ≡ 0 [ZMOD q]
    rw [hsteps j hj, sub_self]

/-- Settles O30: the carries are in the checked range, and the exact chain holds mod `Q`. -/
theorem populatePassesUnitEval : Obligations.PopulatePassesUnitEval := by
  unfold Obligations.PopulatePassesUnitEval
  exact fun q fd op ins t hc hfit hq h => unitPasses_toCells hc hfit hq h

/-! ### Soundness (R146) -/

/-- The carry in `[-T, T)` that a cell in the range of (E2) stands for. -/
def rangedCarry (q T v : Nat) : Int := ((v + T) % q : Nat) - T

theorem rangedCarry_zero {q T : Nat} (hT : T < q) : rangedCarry q T 0 = 0 := by
  simp [rangedCarry, Nat.mod_eq_of_lt hT]

theorem abs_rangedCarry_le {q T v : Nat} (h : (v + T) % q < 2 * T) : |rangedCarry q T v| ≤ T := by
  unfold rangedCarry
  rw [abs_le]
  omega

theorem rangedCarry_modEq (q T v : Nat) : (v : Int) ≡ rangedCarry q T v [ZMOD q] := by
  have h : ((v + T : Nat) : Int) ≡ ((v + T) % q : Nat) [ZMOD q] := by
    rw [Int.natCast_mod]
    exact (Int.mod_modEq _ _).symm
  have := h.sub_right (T : Int)
  simpa [rangedCarry] using this

theorem getD_map_rangedCarry {q T : Nat} (hT : T < q) (vs : List Nat) (j : Nat) :
    (vs.map (rangedCarry q T)).getD j 0 = rangedCarry q T (vs.getD j 0) := by
  rw [← rangedCarry_zero hT, List.getD_map]

/-- A vector carried exactly stands for what is carried out of it. -/
theorem valInt_of_chain (base t : Int) (ss ts : List Int)
    (h : ∀ j, j < ss.length → ss.getD j 0 + (t :: ts).getD j 0 = base * ts.getD j 0) :
    t + valInt base ss = base ^ ss.length * (t :: ts).getD ss.length 0 := by
  induction ss generalizing t ts with
  | nil => simp [valInt]
  | cons s ss ih =>
    rw [List.length_cons, Nat.forall_lt_succ_left] at h
    obtain ⟨hhead, htail⟩ := h
    have shift (j : Nat) : (ts.getD 0 0 :: ts.tail).getD j 0 = ts.getD j 0 := by cases ts <;> cases j <;> simp
    have shift' (j : Nat) : ts.tail.getD j 0 = ts.getD (j + 1) 0 := by cases ts <;> simp
    have hrest := ih (ts.getD 0 0) ts.tail fun j hj => by rw [shift, shift']; exact htail j hj
    rw [shift] at hrest
    simp only [List.getD_cons_zero] at hhead
    rw [valInt, List.length_cons, List.getD_cons_succ, pow_succ', mul_assoc, ← hrest]
    linarith

/-- With `Q` above the bound, (E1) to (E3) are the carry chain over the integers. -/
theorem carriesExactly_of_unitConstraints {q : Nat} {fd : FieldDesc} {op : UnitOp} {ins : List LimbPair} {u : UnitCells}
    (hc : fd.unitOk = true) (hfit : op.Fits ins) (hq : fd.sBound op.terms + fd.tOff op.terms * (fd.base + 1) < q)
    (hins : ∀ v ∈ vectorsOf ins, LimbVector fd v) (hu : u.Sized fd) (h : UnitConstraints q fd op ins u) :
    CarriesExactly fd (op.positionAt fd ins u.result u.quot) (u.carry.map (rangedCarry q (fd.tOff op.terms))) := by
  obtain ⟨hreslen, hquotlen, hcarrylen⟩ := hu
  obtain ⟨hres, hquot, hrange, hchain⟩ := h
  have hT : fd.tOff op.terms < q := by have := two_mul_tOff_lt (two_le_base hc) hq; omega
  set T := fd.tOff op.terms
  set ts := u.carry.map (rangedCarry q T)
  have hmod (j : Nat) : (ints u.carry).getD j 0 ≡ ts.getD j 0 [ZMOD q] := by
    rw [getD_ints, getD_map_rangedCarry hT]
    exact rangedCarry_modEq q T _
  have hsmall (j : Nat) : |ts.getD j 0| ≤ T := by
    rcases Nat.lt_or_ge j ts.length with hj | hj
    · rw [List.getD_eq_getElem _ _ hj, List.getElem_map]
      exact abs_rangedCarry_le (hrange _ (List.getElem_mem _))
    · rw [List.getD_eq_default _ _ hj, abs_zero]
      omega
  have hbefore (j : Nat) : |carryBefore ts j| ≤ T := by
    cases j with
    | zero => simp
    | succ j => simpa using hsmall j
  refine ⟨by simpa [ts] using hcarrylen, fun j hj => ?_⟩
  have hdvd : (q : Int) ∣ op.positionAt fd ins u.result u.quot j + carryBefore ts j - fd.base * ts.getD j 0 :=
    Int.modEq_zero_iff_dvd.mp ((chainStep_modEq hmod _ _ j).symm.trans
      (Int.modEq_zero_iff_dvd.mpr (Int.dvd_of_emod_eq_zero (hchain j hj))))
  have hlt : |op.positionAt fd ins u.result u.quot j + carryBefore ts j - fd.base * ts.getD j 0| < q := by
    calc |op.positionAt fd ins u.result u.quot j + carryBefore ts j - fd.base * ts.getD j 0|
      _ ≤ |op.positionAt fd ins u.result u.quot j| + |carryBefore ts j| + fd.base * |ts.getD j 0| := by
        refine (abs_sub _ _).trans (add_le_add (abs_add_le _ _) ?_)
        rw [abs_mul, Nat.abs_cast]
      _ ≤ fd.sBound op.terms + T + fd.base * T := by
        have := abs_positionAt_le hc hfit hins ⟨hreslen, hres⟩ ⟨hquotlen, hquot⟩ j
        have := mul_le_mul_of_nonneg_left (hsmall j) (Int.natCast_nonneg fd.base)
        linarith [hbefore j]
      _ < q := by
        zify at hq
        linarith
  exact sub_eq_zero.mp (Int.eq_zero_of_abs_lt_dvd hdvd hlt)

/-- An exact carry chain is the identity of R132 (R133). -/
theorem identity_of_carriesExactly {fd : FieldDesc} {op : UnitOp} {ins : List LimbPair} {res quot : List Nat}
    {t : List Int} (hc : fd.unitOk = true) (hfit : op.Fits ins) (hins : ∀ v ∈ vectorsOf ins, v.length = fd.numLimbs)
    (hres : res.length = fd.numLimbs) (hquot : quot.length = fd.numLimbs)
    (h : CarriesExactly fd (op.positionAt fd ins res quot) t) :
    op.identity fd.p (ins.map (fun ab => (val fd.base ab.1, val fd.base ab.2))) (val fd.base res)
      (val fd.base quot) = 0 := by
  obtain ⟨hL, -, -, hp3, hbound⟩ := (unitOk_iff fd).mp hc
  obtain ⟨hlen, hsteps⟩ := h
  have hp : fd.p < fd.base ^ fd.numLimbs := by rw [show Config.ipMax = 2 from rfl] at hbound; omega
  have hposlen := positions_length op fd ins res quot hL hins hfit.ne_nil hres hquot
  have hval := valInt_of_chain fd.base 0 (op.positions fd ins res quot) t fun j hj => by
    rw [getD_positions op fd ins res quot hins hfit.ne_nil hres hquot, ← carryBefore_eq_getD]
    exact hsteps j (by omega)
  rw [← positions_value op fd ins res quot hp, ← zero_add (valInt _ _), hval,
    List.getD_eq_default _ _ (by simp only [List.length_cons]; omega), mul_zero]

/-- Settles O31: above the bound a chain step that is `0` mod `Q` is `0`, and the exact chain is the identity. -/
theorem unitEvalForcesTheIntegerIdentity : Obligations.UnitEvalForcesTheIntegerIdentity := by
  unfold Obligations.UnitEvalForcesTheIntegerIdentity
  intro q fd op ins u hc hfit hq hins hu hpass
  obtain ⟨hL, -⟩ := (unitOk_iff fd).mp hc
  have hlens : ∀ v ∈ vectorsOf ins, v.length = fd.numLimbs := fun v hv => (hins v hv).1
  have hchain := carriesExactly_of_unitConstraints hc hfit hq hins hu ((unitPasses_iff hL hfit hlens hu).mp hpass)
  obtain ⟨hres, hquot, -⟩ := hu
  exact identity_of_carriesExactly hc hfit hlens hres hquot hchain

end Sys2Proof.Machine
end

section
/-! PROOFS. 42_edadd.md: the cells of an ED row by the layout of R190, and the rows of honest events and of padding
under the constraints (R191 to R193). -/

namespace Sys2Proof.Machine

/-! ### Cells of a row -/

/-- Cells past the first `n`. -/
theorem slice_append_right {n : Nat} {xs : List Nat} (h : xs.length = n) (off len : Nat) (ys : List Nat) :
    slice (n + off) len (xs ++ ys) = slice off len ys := by
  subst h
  rw [slice, slice, List.drop_length_add_append]

theorem slice_past {n : Nat} {xs : List Nat} (h : xs.length = n) (len : Nat) (ys : List Nat) :
    slice n len (xs ++ ys) = slice 0 len ys :=
  slice_append_right h 0 len ys

theorem slice_append_left {off len : Nat} {xs : List Nat} (h : off + len ≤ xs.length) (ys : List Nat) :
    slice off len (xs ++ ys) = slice off len xs := by
  rw [slice, slice, List.drop_append_of_le_length (by omega), List.take_append_of_le_length (by simp; omega)]

theorem slice_zero_append {len : Nat} {xs : List Nat} (h : xs.length = len) (ys : List Nat) :
    slice 0 len (xs ++ ys) = xs := by
  rw [slice, List.drop_zero, List.take_left' h]

theorem slice_zero_of_length {len : Nat} {xs : List Nat} (h : xs.length = len) : slice 0 len xs = xs := by
  simpa using slice_zero_append h []

/-- Cells of piece `i` in a row of pieces of one width. -/
theorem slice_flatMap_append {α : Type} {w : Nat} {f : α → List Nat} {l : List α} (hf : ∀ x ∈ l, (f x).length = w)
    {i : Nat} (hi : i < l.length) {off len : Nat} (hoff : off + len ≤ w) (ys : List Nat) :
    slice (w * i + off) len (l.flatMap f ++ ys) = slice off len (f l[i]) := by
  induction l generalizing i with
  | nil => simp at hi
  | cons x xs ih =>
    obtain ⟨hx, hxs⟩ := List.forall_mem_cons.mp hf
    rw [List.flatMap_cons, List.append_assoc]
    cases i with
    | zero => rw [Nat.mul_zero, Nat.zero_add, slice_append_left (by omega), List.getElem_cons_zero]
    | succ i =>
      rw [Nat.mul_succ, Nat.add_comm _ w, Nat.add_assoc, slice_append_right hx, ih hxs (by simpa using hi),
        List.getElem_cons_succ]

theorem slice_range_flatMap_append {w n : Nat} {f : Nat → List Nat} (hf : ∀ i, i < n → (f i).length = w) {i : Nat}
    (hi : i < n) {off len : Nat} (hoff : off + len ≤ w) (ys : List Nat) :
    slice (w * i + off) len ((List.range n).flatMap f ++ ys) = slice off len (f i) := by
  rw [slice_flatMap_append (fun x hx => hf x (List.mem_range.mp hx)) (by simpa using hi) hoff, List.getElem_range]

theorem range_flatMap_length {w n : Nat} {f : Nat → List Nat} (hf : ∀ i, i < n → (f i).length = w) :
    ((List.range n).flatMap f).length = n * w := by
  induction n with
  | zero => simp
  | succ n ih =>
    rw [List.range_succ, List.flatMap_append, List.length_append, ih fun i hi => hf i (by omega)]
    simp [hf n, Nat.succ_mul]

/-! ### What fills an ED row (R190) -/

/-- What the layout of R190 puts into a row: the header, the limbs of every accessed word and the eight unit groups. -/
structure EdFill where
  clk : Nat
  pPtr : Nat
  qPtr : Nat
  prev : Nat → List Nat
  new : Nat → List Nat
  val : Nat → List Nat
  unit : Nat → UnitCells

namespace EdFill

/-- The clock and the two pointers. -/
def header (f : EdFill) : List Nat := [f.clk, f.pPtr, f.qPtr]

/-- The cells, in the order of the layout. -/
def cells (f : EdFill) : List Nat :=
  f.header ++ (List.range 16).flatMap (fun i => f.prev i ++ f.new i) ++ (List.range 16).flatMap f.val ++
    (List.range 8).flatMap (fun k => (f.unit k).flat)

/-- The named fields. -/
def row (f : EdFill) : EdRow where
  clk := f.clk
  pPtr := f.pPtr
  qPtr := f.qPtr
  xp := (List.range 8).flatMap f.prev
  yp := (List.range 8).flatMap (fun i => f.prev (i + 8))
  xq := (List.range 8).flatMap f.val
  yq := (List.range 8).flatMap (fun i => f.val (i + 8))
  xn := (List.range 8).flatMap f.new
  yn := (List.range 8).flatMap (fun i => f.new (i + 8))
  x3num := f.unit 0
  y3num := f.unit 1
  g1 := f.unit 2
  g2 := f.unit 3
  f := f.unit 4
  df := f.unit 5
  x3 := f.unit 6
  y3 := f.unit 7

/-- Every word has `WL` limbs and every group the sizes of 41_fp_units.md R141. -/
structure Sized (c : Config) (f : EdFill) : Prop where
  prev : ∀ i, i < 16 → (f.prev i).length = c.limbsPerWord
  new : ∀ i, i < 16 → (f.new i).length = c.limbsPerWord
  val : ∀ i, i < 16 → (f.val i).length = c.limbsPerWord
  unit : ∀ k, k < 8 → (f.unit k).Sized c.fd

end EdFill

@[simp] theorem EdFill.header_length (f : EdFill) : f.header.length = 3 := rfl

theorem numLimbs_pos (c : Config) : 1 ≤ c.fd.numLimbs := by
  obtain ⟨hL, -⟩ := (unitOk_iff c.fd).mp (unitOk_config c)
  exact hL

theorem UnitCells.flat_length {c : Config} {u : UnitCells} (h : u.Sized c.fd) : u.flat.length = c.fd.groupWidth := by
  obtain ⟨hres, hquot, hcarry⟩ := h
  have := numLimbs_pos c
  simp only [UnitCells.flat, List.length_append, hres, hquot, hcarry, FieldDesc.groupWidth]
  omega

/-- The three parts of a group by the offsets of 41_fp_units.md R141. -/
theorem UnitCells.slice_flat {fd : FieldDesc} {u : UnitCells} (h : u.Sized fd) :
    slice 0 fd.numLimbs u.flat = u.result ∧ slice fd.numLimbs fd.numLimbs u.flat = u.quot ∧
      slice (2 * fd.numLimbs) (2 * fd.numLimbs - 2) u.flat = u.carry := by
  obtain ⟨hres, hquot, hcarry⟩ := h
  rw [UnitCells.flat, List.append_assoc]
  refine ⟨slice_zero_append hres _, ?_, ?_⟩
  · rw [slice_past hres, slice_zero_append hquot]
  · rw [two_mul, slice_append_right hres, slice_past hquot, ← two_mul, slice_zero_of_length hcarry]

section

variable {c : Config} {f : EdFill} (h : f.Sized c)
include h

theorem EdFill.access_length : ∀ i, i < 16 → (f.prev i ++ f.new i).length = 2 * c.limbsPerWord := by
  intro i hi
  rw [List.length_append, h.prev i hi, h.new i hi]
  omega

theorem EdFill.flat_length : ∀ k, k < 8 → ((f.unit k).flat).length = c.fd.groupWidth :=
  fun k hk => UnitCells.flat_length (h.unit k hk)

theorem EdFill.cells_length : f.cells.length = c.edWidth := by
  simp only [EdFill.cells, List.length_append, range_flatMap_length (EdFill.access_length h),
    range_flatMap_length h.val, range_flatMap_length (EdFill.flat_length h), EdFill.header_length, Params.edWidth]
  ring

/-- Cells inside access `i` of P. -/
theorem EdFill.slice_access {i off : Nat} (hi : i < 16) (hoff : off + c.limbsPerWord ≤ 2 * c.limbsPerWord) :
    slice (3 + (2 * c.limbsPerWord * i + off)) c.limbsPerWord f.cells =
      slice off c.limbsPerWord (f.prev i ++ f.new i) := by
  simp only [EdFill.cells, List.append_assoc]
  rw [slice_append_right f.header_length, slice_range_flatMap_append (EdFill.access_length h) hi hoff]

theorem EdFill.pPrevCells_cells {i : Nat} (hi : i < 16) : pPrevCells c f.cells i = f.prev i := by
  have hslice := EdFill.slice_access h (off := 0) hi (by omega)
  rw [Nat.add_zero] at hslice
  rw [pPrevCells, hslice, slice_zero_append (h.prev i hi)]

theorem EdFill.pNewCells_cells {i : Nat} (hi : i < 16) : pNewCells c f.cells i = f.new i := by
  rw [pNewCells, Nat.add_assoc, EdFill.slice_access h hi (by omega), slice_past (h.prev i hi),
    slice_zero_of_length (h.new i hi)]

theorem EdFill.qValCells_cells {i : Nat} (hi : i < 16) : qValCells c f.cells i = f.val i := by
  have haccess := range_flatMap_length (EdFill.access_length h)
  have hval := slice_range_flatMap_append h.val hi (by omega : 0 + c.limbsPerWord ≤ c.limbsPerWord)
  rw [Nat.add_zero] at hval
  simp only [qValCells, EdFill.cells, List.append_assoc]
  rw [Nat.add_assoc, slice_append_right f.header_length, show 32 * c.limbsPerWord = 16 * (2 * c.limbsPerWord) by ring,
    slice_append_right haccess, hval, slice_zero_of_length (h.val i hi)]

/-- Cells inside unit group `k`. -/
theorem EdFill.slice_group {k off len : Nat} (hk : k < 8) (hoff : off + len ≤ c.fd.groupWidth) :
    slice (3 + 48 * c.limbsPerWord + k * c.fd.groupWidth + off) len f.cells = slice off len (f.unit k).flat := by
  have haccess := range_flatMap_length (EdFill.access_length h)
  have hval := range_flatMap_length h.val
  have hgroups := slice_range_flatMap_append (EdFill.flat_length h) hk hoff []
  rw [List.append_nil] at hgroups
  simp only [EdFill.cells, List.append_assoc]
  rw [show 3 + 48 * c.limbsPerWord + k * c.fd.groupWidth + off =
      3 + (16 * (2 * c.limbsPerWord) + (16 * c.limbsPerWord + (c.fd.groupWidth * k + off))) by ring,
    slice_append_right f.header_length, slice_append_right haccess, slice_append_right hval, hgroups]

theorem EdFill.unitCellsAt_cells {k : Nat} (hk : k < 8) : unitCellsAt c f.cells k = f.unit k := by
  have hL := numLimbs_pos c
  have hG : c.fd.groupWidth = 4 * c.fd.numLimbs - 2 := rfl
  obtain ⟨hres, hquot, hcarry⟩ := UnitCells.slice_flat (h.unit k hk)
  have hgroup {off len : Nat} := EdFill.slice_group h (off := off) (len := len) hk
  have hfirst := hgroup (off := 0) (len := c.fd.numLimbs) (by omega)
  rw [Nat.add_zero, hres] at hfirst
  simp only [unitCellsAt, hfirst, hgroup (by omega : c.fd.numLimbs + c.fd.numLimbs ≤ c.fd.groupWidth), hquot,
    hgroup (by omega : 2 * c.fd.numLimbs + (2 * c.fd.numLimbs - 2) ≤ c.fd.groupWidth), hcarry]

/-- The view of a filled row is its named fields. -/
theorem EdFill.ofCells_cells : EdRow.ofCells c f.cells = some f.row := by
  have lo {g g' : Nat → List Nat} (hg : ∀ i, i < 16 → g i = g' i) :
      (List.range 8).flatMap g = (List.range 8).flatMap g' :=
    List.flatMap_congr fun i hi => hg i (by have := List.mem_range.mp hi; omega)
  have hi {g g' : Nat → List Nat} (hg : ∀ i, i < 16 → g i = g' i) :
      ((List.range 8).map (· + 8)).flatMap g = (List.range 8).flatMap (fun i => g' (i + 8)) := by
    rw [List.flatMap_map]
    exact List.flatMap_congr fun i hi => hg _ (by have := List.mem_range.mp hi; omega)
  have hprev := fun i (hi : i < 16) => EdFill.pPrevCells_cells h hi
  have hnew := fun i (hi : i < 16) => EdFill.pNewCells_cells h hi
  have hval := fun i (hi : i < 16) => EdFill.qValCells_cells h hi
  rw [EdRow.ofCells, if_pos (EdFill.cells_length h)]
  simp only [lo hprev, lo hnew, lo hval, hi hprev, hi hnew, hi hval, EdFill.unitCellsAt_cells h, Nat.reduceLT]
  rfl

end

/-! ### The chain (R183) -/

theorem except_bind_eq_ok {ε α β : Type} {x : Except ε α} {f : α → Except ε β} {b : β} :
    (x >>= f) = .ok b ↔ ∃ a, x = .ok a ∧ f a = .ok b := by
  cases x <;> simp [bind, Except.bind]

/-- A chain that completes is eight units that each return their part. -/
theorem edChain_eq_ok {c : Config} {x1 y1 x2 y2 : List Nat} {ch : EdChain} (h : edChain c x1 y1 x2 y2 = .ok ch) :
    populate (.ip 2) c.fd [(x1, y2), (x2, y1)] = .ok ch.x3num ∧
    populate (.ip 2) c.fd [(y1, y2), (x1, x2)] = .ok ch.y3num ∧
    populate .mul c.fd [(x1, y1)] = .ok ch.g1 ∧
    populate .mul c.fd [(x2, y2)] = .ok ch.g2 ∧
    populate .mul c.fd [(ch.g1.res, ch.g2.res)] = .ok ch.f ∧
    populate .mul c.fd [(edDLimbs c, ch.f.res)] = .ok ch.df ∧
    populate .denP c.fd [(ch.x3num.res, ch.df.res)] = .ok ch.x3 ∧
    populate .denM c.fd [(ch.y3num.res, ch.df.res)] = .ok ch.y3 := by
  simp only [edChain, except_bind_eq_ok] at h
  obtain ⟨x3num, hx3num, y3num, hy3num, g1, hg1, g2, hg2, f, hf, df, hdf, x3, hx3, y3, hy3, hch⟩ := h
  cases hch
  exact ⟨hx3num, hy3num, hg1, hg2, hf, hdf, hx3, hy3⟩

/-- Unit number `k` of a chain, in the order of the row (R190). -/
def EdChain.unitAt (ch : EdChain) : Nat → UnitResult
  | 0 => ch.x3num
  | 1 => ch.y3num
  | 2 => ch.g1
  | 3 => ch.g2
  | 4 => ch.f
  | 5 => ch.df
  | 6 => ch.x3
  | _ => ch.y3

theorem ip_two_fits (ab cd : LimbPair) : UnitOp.Fits (.ip 2) [ab, cd] := ⟨rfl, by decide, by decide⟩

/-- Every unit of a chain is a unit of R135 to R140 on as many pairs as it asks for. -/
theorem edChain_unitAt {c : Config} {x1 y1 x2 y2 : List Nat} {ch : EdChain} (h : edChain c x1 y1 x2 y2 = .ok ch)
    (k : Nat) : ∃ op ins, op.Fits ins ∧ populate op c.fd ins = .ok (ch.unitAt k) := by
  obtain ⟨hx3num, hy3num, hg1, hg2, hf, hdf, hx3, hy3⟩ := edChain_eq_ok h
  match k with
  | 0 => exact ⟨_, _, ip_two_fits _ _, hx3num⟩
  | 1 => exact ⟨_, _, ip_two_fits _ _, hy3num⟩
  | 2 => exact ⟨_, _, pair_fits rfl _, hg1⟩
  | 3 => exact ⟨_, _, pair_fits rfl _, hg2⟩
  | 4 => exact ⟨_, _, pair_fits rfl _, hf⟩
  | 5 => exact ⟨_, _, pair_fits rfl _, hdf⟩
  | 6 => exact ⟨_, _, pair_fits rfl _, hx3⟩
  | _ + 7 => exact ⟨_, _, pair_fits rfl _, hy3⟩

theorem toCells_sized {c : Config} {op : UnitOp} {ins : List LimbPair} {t : UnitResult} (hfit : op.Fits ins)
    (h : populate op c.fd ins = .ok t) (q : Nat) : (t.toCells q).Sized c.fd := by
  obtain ⟨⟨hres, -⟩, ⟨hquot, -⟩, -, hcarry, -⟩ := populate_answer c.fd op ins t (unitOk_config c) hfit h
  exact ⟨hres, hquot, by simpa [UnitResult.toCells] using hcarry⟩

/-- R10(g) bounds the carries of every unit of the ED chip, which all have at most `IP_MAX` terms. -/
theorem noWrap_of_fits {c : Config} {op : UnitOp} {ins : List LimbPair} (hEd : c.hasEd = true) (hfit : op.Fits ins) :
    c.fd.sBound op.terms + c.fd.tOff op.terms * (c.fd.base + 1) < c.q := by
  obtain ⟨-, -, hmax⟩ := hfit
  refine lt_of_le_of_lt ?_ (c.wellFormed.noWrap hEd)
  unfold FieldDesc.sBound FieldDesc.tOff
  gcongr

/-- In a row of the ED chip, what populate returns passes unit eval. -/
theorem edUnit_passes {c : Config} {op : UnitOp} {ins : List LimbPair} {t : UnitResult} (hEd : c.hasEd = true)
    (hfit : op.Fits ins) (h : populate op c.fd ins = .ok t) : unitPasses c.q c.fd op ins (t.toCells c.q) = true :=
  unitPasses_toCells (unitOk_config c) hfit (noWrap_of_fits hEd hfit) h

/-! ### The row of an event (R191) -/

/-- What the row of an event is filled with. -/
def edFill (c : Config) (e : EdAddEvent) (ch : EdChain) : EdFill where
  clk := e.clock.toNat
  pPtr := e.pPtr.toNat
  qPtr := e.qPtr.toNat
  prev := fun i => wordLimbs c (e.p.getD i 0)
  new := fun i => wordLimbs c ((e.pWriteRecords.map (·.newValue)).getD i 0)
  val := fun i => wordLimbs c (e.q.getD i 0)
  unit := fun k => (ch.unitAt k).toCells c.q

theorem edCells_eq_cells (c : Config) (e : EdAddEvent) (ch : EdChain) : edCells c e ch = (edFill c e ch).cells := rfl

theorem storeRow_eq_ok {q : Nat} {cells row : List Nat} (h : storeRow q cells = .ok row) :
    row = cells ∧ ∀ x ∈ cells, x < q := by
  unfold storeRow at h
  split at h
  next hall => cases h; exact ⟨rfl, by simpa using hall⟩
  next => cases h

/-- A populated row is filled with the event and a chain run on its words. -/
theorem edRow_eq_ok {c : Config} {e : EdAddEvent} {row : List Nat} (h : edRow c e = .ok row) :
    ∃ ch, edChain c (pointX c e.p) (pointY c e.p) (pointX c e.q) (pointY c e.q) = .ok ch ∧
      row = (edFill c e ch).cells ∧ ∀ x ∈ row, x < c.q := by
  unfold edRow at h
  split at h
  next => cases h
  next =>
    split at h
    next => cases h
    next ch hch =>
      obtain ⟨rfl, hlt⟩ := storeRow_eq_ok h
      exact ⟨ch, hch, edCells_eq_cells c e ch, hlt⟩

theorem edFill_sized {c : Config} {e : EdAddEvent} {ch : EdChain} {x1 y1 x2 y2 : List Nat}
    (h : edChain c x1 y1 x2 y2 = .ok ch) : (edFill c e ch).Sized c := by
  refine ⟨fun i _ => wordLimbs_length _ _, fun i _ => wordLimbs_length _ _, fun i _ => wordLimbs_length _ _,
    fun k _ => ?_⟩
  obtain ⟨op, ins, hfit, hpop⟩ := edChain_unitAt h k
  exact toCells_sized hfit hpop c.q

theorem range_map_getD {α : Type} (l : List α) (d : α) {n k : Nat} (h : k + n ≤ l.length) :
    (List.range n).map (fun i => l.getD (i + k) d) = (l.drop k).take n := by
  refine List.ext_getElem (by simp; omega) fun i hi hi' => ?_
  have hlt : i + k < l.length := by simp at hi; omega
  simp [List.getElem?_eq_getElem hlt, Nat.add_comm k i]

/-- The limbs of words 0 to 7 of a point are its `x`. -/
theorem range_flatMap_wordLimbs_low {c : Config} {ws : List Word} (h : ws.length = 16) :
    (List.range 8).flatMap (fun i => wordLimbs c (ws.getD i 0)) = pointX c ws := by
  have hwords := range_map_getD ws 0 (n := 8) (k := 0) (by omega)
  rw [List.drop_zero] at hwords
  rw [pointX, wordsToLimbs, ← hwords, List.flatMap_map]
  rfl

/-- The limbs of words 8 to 15 of a point are its `y`. -/
theorem range_flatMap_wordLimbs_high {c : Config} {ws : List Word} (h : ws.length = 16) :
    (List.range 8).flatMap (fun i => wordLimbs c (ws.getD (i + 8) 0)) = pointY c ws := by
  rw [pointY, wordsToLimbs, ← range_map_getD ws 0 (by omega), List.flatMap_map]

theorem wordsToLimbs_lt (c : Config) (ws : List Word) : ∀ x ∈ wordsToLimbs c ws, x < c.fd.base := by
  intro x hx
  obtain ⟨w, -, hx⟩ := List.mem_flatMap.mp hx
  exact limbs_lt _ _ _ (Nat.two_pow_pos _) x hx

@[simp] theorem edResultWords_length (c : Config) (ch : EdChain) : (edResultWords c ch).length = 16 := by
  simp [edResultWords]

/-- The words written are the words of the chain's last two results, so their limbs are those results. -/
theorem points_edResultWords {c : Config} {ch : EdChain} (hx : LimbVector c.fd ch.x3.res)
    (hy : LimbVector c.fd ch.y3.res) :
    pointX c (edResultWords c ch) = ch.x3.res ∧ pointY c (edResultWords c ch) = ch.y3.res := by
  obtain ⟨hxlen, hxlt⟩ := hx
  obtain ⟨hylen, hylt⟩ := hy
  rw [numLimbs_eq] at hxlen hylen
  have hx8 := limbsToWords_length c 8 ch.x3.res
  have hy8 := limbsToWords_length c 8 ch.y3.res
  constructor
  · rw [pointX, edResultWords, List.take_left' hx8, wordsToLimbs_limbsToWords c hxlen hxlt]
  · rw [pointY, edResultWords, List.drop_left' hx8, List.take_of_length_le hy8.le,
      wordsToLimbs_limbsToWords c hylen hylt]

/-- The coordinates in the row of an event are those of its words. -/
theorem edFill_row_points {c : Config} {e : EdAddEvent} {ch : EdChain} (hp : e.p.length = 16) (hq : e.q.length = 16)
    (hw : (e.pWriteRecords.map (·.newValue)).length = 16) :
    let r := (edFill c e ch).row
    let new := e.pWriteRecords.map (·.newValue)
    r.xp = pointX c e.p ∧ r.yp = pointY c e.p ∧ r.xq = pointX c e.q ∧ r.yq = pointY c e.q ∧
      r.xn = pointX c new ∧ r.yn = pointY c new :=
  ⟨range_flatMap_wordLimbs_low hp, range_flatMap_wordLimbs_high hp, range_flatMap_wordLimbs_low hq,
    range_flatMap_wordLimbs_high hq, range_flatMap_wordLimbs_low hw, range_flatMap_wordLimbs_high hw⟩

/-- The row of an event whose written words are the chain's passes (C1) to (C10). -/
theorem evalEdRow_edFill {c : Config} {e : EdAddEvent} {ch : EdChain} (hEd : c.hasEd = true) (hp : e.p.length = 16)
    (hq : e.q.length = 16)
    (hch : edChain c (pointX c e.p) (pointY c e.p) (pointX c e.q) (pointY c e.q) = .ok ch)
    (hnew : e.pWriteRecords.map (·.newValue) = edResultWords c ch) : evalEdRow c (edFill c e ch).row = true := by
  obtain ⟨hx3num, hy3num, hg1, hg2, hf, hdf, hx3, hy3⟩ := edChain_eq_ok hch
  have result {op : UnitOp} {ins : List LimbPair} {t : UnitResult} (hop : op.Fits ins)
      (h : populate op c.fd ins = .ok t) : LimbVector c.fd t.res := by
    obtain ⟨⟨hlen, hlt, -⟩, -⟩ := populate_answer c.fd op ins t (unitOk_config c) hop h
    exact ⟨hlen, hlt⟩
  obtain ⟨hxn, hyn⟩ := points_edResultWords (result (pair_fits rfl _) hx3) (result (pair_fits rfl _) hy3)
  obtain ⟨exp, eyp, exq, eyq, exn, eyn⟩ := edFill_row_points (c := c) (ch := ch) hp hq (by rw [hnew]; simp)
  rw [hnew] at exn eyn
  simp only [evalEdRow, Bool.and_eq_true, and_assoc, List.all_eq_true, decide_eq_true_eq, exp, eyp, exq, eyq, exn, eyn]
  refine ⟨?_, edUnit_passes hEd (ip_two_fits _ _) hx3num, edUnit_passes hEd (ip_two_fits _ _) hy3num,
    edUnit_passes hEd (pair_fits rfl _) hg1, edUnit_passes hEd (pair_fits rfl _) hg2,
    edUnit_passes hEd (pair_fits rfl _) hf, edUnit_passes hEd (pair_fits rfl _) hdf,
    edUnit_passes hEd (pair_fits rfl _) hx3, edUnit_passes hEd (pair_fits rfl _) hy3, hxn.symm, hyn.symm⟩
  simp only [List.mem_cons, List.not_mem_nil, or_false, forall_eq_or_imp, forall_eq]
  exact ⟨wordsToLimbs_lt c _, wordsToLimbs_lt c _, wordsToLimbs_lt c _, wordsToLimbs_lt c _, wordsToLimbs_lt c _,
    wordsToLimbs_lt c _⟩

theorem edSum_eq_ok {c : Config} {pw qw : List Word} {ch : EdChain} (h : edSum c pw qw = .ok ch) :
    edChain c (pointX c pw) (pointY c pw) (pointX c qw) (pointY c qw) = .ok ch := by
  unfold edSum at h
  split at h
  · cases h
  · exact h

/-- The row of an honest event passes. -/
theorem edVerdict_of_honest {c : Config} {e : EdAddEvent} {row : List Nat} (he : e.Honest c) (h : edRow c e = .ok row) :
    edVerdict c row = some true := by
  obtain ⟨hEd, -, -, -, hp, hq, -, -, ch, hsum, hwrites⟩ := he
  obtain ⟨ch', hch, rfl, -⟩ := edRow_eq_ok h
  obtain rfl : ch' = ch := Except.ok.inj (hch.symm.trans (edSum_eq_ok hsum))
  have hnew : e.pWriteRecords.map (·.newValue) = edResultWords c ch' := by
    have hwords := range_map_getD (edResultWords c ch') 0 (n := 16) (k := 0) (by simp)
    rw [List.drop_zero, List.take_of_length_le (by simp)] at hwords
    rw [hwrites, List.map_map]
    exact hwords
  rw [edVerdict, EdFill.ofCells_cells (edFill_sized hch), Option.map_some, evalEdRow_edFill hEd hp hq hch hnew]

/-! ### The all-zero row (R193) -/

/-- A unit group of zeros. -/
def UnitCells.zero (fd : FieldDesc) : UnitCells where
  result := List.replicate fd.numLimbs 0
  quot := List.replicate fd.numLimbs 0
  carry := List.replicate (2 * fd.numLimbs - 2) 0

/-- A row of zeros as the layout fills it. -/
def EdFill.zero (c : Config) : EdFill where
  clk := 0
  pPtr := 0
  qPtr := 0
  prev := fun _ => List.replicate c.limbsPerWord 0
  new := fun _ => List.replicate c.limbsPerWord 0
  val := fun _ => List.replicate c.limbsPerWord 0
  unit := fun _ => UnitCells.zero c.fd

theorem EdFill.zero_sized (c : Config) : (EdFill.zero c).Sized c := by
  constructor <;> simp [EdFill.zero, UnitCells.Sized, UnitCells.zero]

theorem EdFill.zero_cells (c : Config) : (EdFill.zero c).cells = List.replicate c.edWidth 0 := by
  refine List.eq_replicate_iff.mpr ⟨EdFill.cells_length (EdFill.zero_sized c), fun x hx => ?_⟩
  simp only [EdFill.cells, EdFill.header, EdFill.zero, UnitCells.flat, UnitCells.zero, List.mem_append,
    List.mem_flatMap, List.mem_cons, List.not_mem_nil, List.mem_replicate] at hx
  tauto

theorem range_flatMap_zeros (c : Config) :
    (List.range 8).flatMap (fun _ => List.replicate c.limbsPerWord 0) = List.replicate c.fd.numLimbs 0 := by
  refine List.eq_replicate_iff.mpr ⟨?_, fun x hx => ?_⟩
  · rw [range_flatMap_length fun _ _ => List.length_replicate, numLimbs_eq, Nat.mul_comm]
  · obtain ⟨-, -, hx⟩ := List.mem_flatMap.mp hx
    exact List.eq_of_mem_replicate hx

theorem getD_zeros (n j : Nat) : (List.replicate n 0).getD j 0 = 0 := by
  rw [List.getD_eq_getElem?_getD, List.getElem?_getD_replicate_default_eq]

@[simp] theorem padAt_zeros (n m j : Nat) : padAt n (List.replicate m 0) j = 0 := by
  simp only [padAt, getD_zeros, Nat.cast_zero, ite_self]

@[simp] theorem convAt_zeros_left (n m : Nat) (b : List Nat) (j : Nat) : convAt n (List.replicate m 0) b j = 0 := by
  simp only [convAt, getD_zeros, Nat.cast_zero, zero_mul, ite_self]
  simp

@[simp] theorem convAt_zeros_right (n m : Nat) (a : List Nat) (j : Nat) : convAt n a (List.replicate m 0) j = 0 := by
  simp only [convAt, getD_zeros, Nat.cast_zero, mul_zero, ite_self]
  simp

/-- A group of zeros passes unit eval whenever all its positions are `0`. -/
theorem unitPasses_zero {c : Config} {op : UnitOp} {ins : List LimbPair} (hfit : op.Fits ins)
    (hins : ∀ v ∈ vectorsOf ins, v.length = c.fd.numLimbs)
    (hpos : ∀ j, op.positionAt c.fd ins (List.replicate c.fd.numLimbs 0) (List.replicate c.fd.numLimbs 0) j = 0) :
    unitPasses c.q c.fd op ins (UnitCells.zero c.fd) = true := by
  have hL := numLimbs_pos c
  have hbase : 0 < c.fd.base := Nat.two_pow_pos _
  have hT : 0 < c.fd.tOff op.terms := by
    obtain ⟨-, hterms, -⟩ := hfit
    unfold FieldDesc.tOff
    positivity
  have hsized : (UnitCells.zero c.fd).Sized c.fd := by simp [UnitCells.Sized, UnitCells.zero]
  refine (unitPasses_iff hL hfit hins hsized).mpr ⟨fun x hx => ?_, fun x hx => ?_, fun v hv => ?_, fun j _ => ?_⟩
  · rwa [List.eq_of_mem_replicate hx]
  · rwa [List.eq_of_mem_replicate hx]
  · rw [List.eq_of_mem_replicate hv, Nat.zero_add]
    have := Nat.mod_le (c.fd.tOff op.terms) c.q
    omega
  · have hcarry (i : Nat) : (ints (UnitCells.zero c.fd).carry).getD i 0 = 0 := by
      rw [getD_ints]
      exact_mod_cast getD_zeros _ i
    have hbefore : carryBefore (ints (UnitCells.zero c.fd).carry) j = 0 := by
      cases j with
      | zero => rfl
      | succ j => rw [carryBefore_succ, hcarry]
    rw [hcarry, hbefore]
    simp [UnitCells.zero, hpos]

/-- The all-zero row passes: every product in it has a zero factor. -/
theorem edVerdict_zeros (c : Config) : edVerdict c (List.replicate c.edWidth 0) = some true := by
  have hbase : 0 < c.fd.base := Nat.two_pow_pos _
  have zeros : (List.replicate c.fd.numLimbs 0).length = c.fd.numLimbs := List.length_replicate
  have dlLength : (edDLimbs c).length = c.fd.numLimbs := limbs_length _ _ _
  have pair {op : UnitOp} {ab : LimbPair} (hop : op.terms = 1) (ha : ab.1.length = c.fd.numLimbs)
      (hb : ab.2.length = c.fd.numLimbs) := unitPasses_zero (c := c) (pair_fits hop ab) (by simp [vectorsOf, ha, hb])
  have mulZero {a : List Nat} (ha : a.length = c.fd.numLimbs) :
      unitPasses c.q c.fd .mul [(a, List.replicate c.fd.numLimbs 0)] (UnitCells.zero c.fd) = true :=
    pair rfl ha zeros fun j => by simp [UnitOp.positionAt, firstPair]
  have ipZero := unitPasses_zero (c := c) (ip_two_fits (List.replicate c.fd.numLimbs 0, List.replicate c.fd.numLimbs 0)
    (List.replicate c.fd.numLimbs 0, List.replicate c.fd.numLimbs 0)) (by simp [vectorsOf])
    fun j => by simp [UnitOp.positionAt]
  rw [← EdFill.zero_cells, edVerdict, EdFill.ofCells_cells (EdFill.zero_sized c), Option.map_some]
  congr 1
  simp only [EdFill.row, EdFill.zero, range_flatMap_zeros, evalEdRow, Bool.and_eq_true, and_assoc]
  refine ⟨?_, ipZero, ipZero, mulZero zeros, mulZero zeros, mulZero zeros, mulZero dlLength,
    pair rfl zeros zeros fun j => ?_, pair rfl zeros zeros fun j => ?_, by simp [UnitCells.zero]⟩
  · simp [hbase]
  · simp [UnitOp.positionAt, firstPair, UnitCells.zero]
  · simp [UnitOp.positionAt, firstPair, UnitCells.zero]

end Sys2Proof.Machine
end

section
/-! PROOFS. 43_perm.md: the constraints of the PERM chip (R231 to R233) on the rows of rounds and of padding, and the
cells of a row by the layout of R228 (R229, R235). -/

namespace Sys2Proof.Machine

/-! ### The constraints as R231 to R233 write them -/

theorem eqZq_iff (q : Nat) (x y : Int) : eqZq q x y = true ↔ CellsEq q x y := by
  simp [eqZq, CellsEq]

theorem cellsEq_of_eq {q : Nat} {x y : Int} (h : x = y) : CellsEq q x y := by
  simp [CellsEq, h]

theorem permRowLocal_iff (c : Config) (cur : PermRow) : permRowLocal c cur = true ↔ PermRowConstraints c cur := by
  simp [permRowLocal, PermRowConstraints, eqZq_iff, and_assoc]

/-- `for 1 <= r < R` is `for r < R - 1`, one further. -/
theorem forall_pos_lt_iff {R : Nat} {P : Nat → Prop} :
    (∀ r, 1 ≤ r → r < R → P r) ↔ ∀ r, r < R - 1 → P (r + 1) := by
  constructor
  · exact fun h r hr => h (r + 1) (by omega) (by omega)
  · intro h r h1 hr
    obtain ⟨k, rfl⟩ : ∃ k, r = k + 1 := ⟨r - 1, by omega⟩
    exact h k (by omega)

theorem permTransition_iff (c : Config) (cur next : PermRow) :
    permTransition c cur next = true ↔ PermTransitionConstraints c cur next := by
  have hlt (r : Nat) : r + 1 < c.permRounds ↔ r < c.permRounds - 1 := by omega
  have hswap {P : Nat → Nat → Prop} : (∀ r i, r < c.permRounds - 1 → i < c.permN → P r i) ↔
      ∀ r, r < c.permRounds - 1 → ∀ i, i < c.permN → P r i := forall_congr' fun _ => forall_comm
  simp [permTransition, PermTransitionConstraints, eqZq_iff, forall_pos_lt_iff, hlt, hswap, and_assoc]

theorem permFirstRow_iff (c : Config) (cur : PermRow) : permFirstRow c cur = true ↔ PermFirstRowConstraints c cur := by
  simp [permFirstRow, PermFirstRowConstraints, eqZq_iff, forall_pos_lt_iff]

theorem evalPermWindow_iff (c : Config) (cur next : PermRow) (isFirstRow isTransition : Bool) :
    evalPermWindow c cur next isFirstRow isTransition = true ↔
      PermRowConstraints c cur ∧ (isTransition = true → PermTransitionConstraints c cur next) ∧
        (isFirstRow = true → PermFirstRowConstraints c cur) := by
  rw [← permRowLocal_iff, ← permTransition_iff, ← permFirstRow_iff]
  cases isFirstRow <;> cases isTransition <;> simp [evalPermWindow, and_assoc]

/-! ### A genuine row and a padding row -/

theorem getD_map_range {α : Type} (f : Nat → α) (d : α) {n i : Nat} (h : i < n) :
    ((List.range n).map f).getD i d = f i := by
  rw [List.getD_eq_getElem _ _ (by simpa using h), List.getElem_map, List.getElem_range]

/-- The row of round `r` of a PERM from state `v` (R229). -/
def PermRow.ofRound (c : Config) (clk statePtr : Nat) (v : List Nat) (r : Nat) : PermRow where
  clk := clk + 2 * c.permN * r
  statePtr := statePtr
  isExternal := 1
  isFinalize := if r + 1 = c.permRounds then 1 else 0
  roundSel := (List.range c.permRounds).map (fun k => if k = r then 1 else 0)
  inp := permStateAfter c v r
  out := permStateAfter c v (r + 1)
  finOpd := (List.range c.permN).map (fun i =>
    if r + 1 = c.permRounds then
      ((((permStateAfter c v (r + 1)).getD i 0 : Int) - (permStateAfter c v r).getD i 0) % c.q).toNat
    else 0)

/-- The all-zero row. -/
def PermRow.zero (c : Config) : PermRow where
  clk := 0
  statePtr := 0
  isExternal := 0
  isFinalize := 0
  roundSel := List.replicate c.permRounds 0
  inp := List.replicate c.permN 0
  out := List.replicate c.permN 0
  finOpd := List.replicate c.permN 0

theorem PermRow.ofRound_sel {c : Config} {r : Nat} (hr : r < c.permRounds) (clk statePtr : Nat) (v : List Nat)
    (k : Nat) :
    (PermRow.ofRound c clk statePtr v r).sel k = if k = r then 1 else 0 := by
  simp only [PermRow.sel, PermRow.ofRound]
  rcases Nat.lt_or_ge k c.permRounds with hk | hk
  · rw [getD_map_range _ _ hk]
    split <;> rfl
  · rw [List.getD_eq_default _ _ (by simpa using hk), if_neg (by omega)]
    rfl

theorem PermRow.zero_sel (c : Config) (k : Nat) : (PermRow.zero c).sel k = 0 := by
  simp only [PermRow.sel, PermRow.zero, getD_zeros, Nat.cast_zero]

/-- A sum over the rounds that one selector picks from. -/
theorem sum_selected {R r : Nat} (hr : r < R) (g : Nat → Int) :
    ((List.range R).map (fun k => (if k = r then 1 else 0) * g k)).sum = g r := by
  have hsum := Finset.sum_ite_eq' (Finset.range R) r g
  rw [if_pos (Finset.mem_range.mpr hr)] at hsum
  rw [← hsum, Finset.sum_eq_multiset_sum, Finset.range_val, Multiset.range, Multiset.map_coe, Multiset.sum_coe]
  simp

/-- Of the last round the opening is the difference of output and input, of an earlier one `0`. -/
theorem PermRow.ofRound_opening (c : Config) (clk statePtr : Nat) (v : List Nat) (r : Nat) {i : Nat}
    (hi : i < c.permN) :
    let cur := PermRow.ofRound c clk statePtr v r
    (cur.finOpd.getD i 0 : Int) =
      if r + 1 = c.permRounds then ((cur.out.getD i 0 : Int) - cur.inp.getD i 0) % c.q else 0 := by
  have hq : (c.q : Int) ≠ 0 := by exact_mod_cast c.wellFormed.primeQ.ne_zero
  simp only [PermRow.ofRound]
  rw [getD_map_range _ _ hi]
  split
  · exact Int.toNat_of_nonneg (Int.emod_nonneg _ hq)
  · rfl

section

variable {c : Config} {clk statePtr r : Nat} {v : List Nat} (hr : r < c.permRounds)
include hr

theorem permRowConstraints_ofRound : PermRowConstraints c (PermRow.ofRound c clk statePtr v r) := by
  have hsel := PermRow.ofRound_sel hr clk statePtr v
  have hopd {i : Nat} (hi : i < c.permN) := PermRow.ofRound_opening c clk statePtr v r hi
  have hext : (PermRow.ofRound c clk statePtr v r).isExternal = 1 := rfl
  have hfin : (PermRow.ofRound c clk statePtr v r).isFinalize = if r + 1 = c.permRounds then 1 else 0 := rfl
  have hout : (PermRow.ofRound c clk statePtr v r).out = permRound c r (PermRow.ofRound c clk statePtr v r).inp := rfl
  generalize PermRow.ofRound c clk statePtr v r = cur at *
  have hselsum := sum_selected hr
  refine ⟨?_, ?_, fun k _ => ?_, ?_, ?_, fun i _ => ?_, fun i hi => ?_, fun i hi => ?_⟩
  · exact cellsEq_of_eq (by simp [hext])
  · exact cellsEq_of_eq (by rw [hfin]; split <;> simp)
  · exact cellsEq_of_eq (by rw [hsel]; split <;> simp)
  · have hone := hselsum fun _ => 1
    simp only [mul_one] at hone
    exact cellsEq_of_eq (by simp [funext hsel, hone, hext])
  · have hlast : c.permRounds - 1 = r ↔ r + 1 = c.permRounds := by omega
    exact cellsEq_of_eq (by simp only [hsel, hfin, hlast]; push_cast; rfl)
  · have hround := hselsum fun k => ((permRound c k cur.inp).getD i 0 : Int)
    exact cellsEq_of_eq (by simp only [hsel, hround, hext, hout, Nat.cast_one, one_mul])
  · simp only [hopd hi, hfin]
    split
    · refine Int.emod_eq_zero_of_dvd ⟨-(((cur.out.getD i 0 : Int) - cur.inp.getD i 0) / c.q), ?_⟩
      rw [Int.emod_def]
      push_cast
      ring
    · exact cellsEq_of_eq (by simp)
  · simp only [hopd hi, hfin]
    split <;> exact cellsEq_of_eq (by simp)

/-- Within an invocation the next row is the next round, on the state the row leaves. -/
theorem permTransitionConstraints_ofRound (hnext : r + 1 < c.permRounds) :
    PermTransitionConstraints c (PermRow.ofRound c clk statePtr v r) (PermRow.ofRound c clk statePtr v (r + 1)) := by
  have hsel := PermRow.ofRound_sel hr clk statePtr v
  have hsel' := PermRow.ofRound_sel hnext clk statePtr v
  refine ⟨fun k _ => ?_, fun k h1 _ => ?_, fun k _ => ?_, fun k _ => ?_, fun k i _ _ => ?_, ?_⟩
  · exact cellsEq_of_eq (by rw [hsel, hsel']; split <;> simp_all)
  · exact cellsEq_of_eq (by rw [hsel, hsel']; split <;> simp_all)
  · exact cellsEq_of_eq (by simp [PermRow.ofRound])
  · exact cellsEq_of_eq (by simp only [PermRow.ofRound]; push_cast; ring)
  · exact cellsEq_of_eq (by simp [PermRow.ofRound])
  · exact cellsEq_of_eq (by simp [PermRow.ofRound])

/-- After the last round any row may come that is not inside an invocation. -/
theorem permTransitionConstraints_ofLastRound (hlast : r + 1 = c.permRounds) {next : PermRow}
    (hnext : ∀ k, 1 ≤ k → next.sel k = 0) :
    PermTransitionConstraints c (PermRow.ofRound c clk statePtr v r) next := by
  have hsel {k : Nat} (hk : k + 1 < c.permRounds) : (PermRow.ofRound c clk statePtr v r).sel k = 0 := by
    rw [PermRow.ofRound_sel hr, if_neg (by omega)]
  refine ⟨fun k hk => ?_, fun k h1 _ => ?_, fun k hk => ?_, fun k hk => ?_, fun k i hk _ => ?_, ?_⟩
  · exact cellsEq_of_eq (by rw [hsel hk, zero_mul])
  · exact cellsEq_of_eq (by rw [hnext k h1, zero_mul])
  · exact cellsEq_of_eq (by rw [hsel hk, zero_mul])
  · exact cellsEq_of_eq (by rw [hsel hk, zero_mul])
  · exact cellsEq_of_eq (by rw [hsel hk, zero_mul])
  · exact cellsEq_of_eq (by simp [PermRow.ofRound])

end

/-- A padding row, and the step to the next one, have every product `0`. -/
theorem permConstraints_zero (c : Config) :
    PermRowConstraints c (PermRow.zero c) ∧ PermTransitionConstraints c (PermRow.zero c) (PermRow.zero c) := by
  have hsel := PermRow.zero_sel c
  have hext : (PermRow.zero c).isExternal = 0 := rfl
  have hfin : (PermRow.zero c).isFinalize = 0 := rfl
  have hopd (i : Nat) : (PermRow.zero c).finOpd.getD i 0 = 0 := getD_zeros _ i
  generalize PermRow.zero c = cur at *
  constructor
  · refine ⟨?_, ?_, fun k _ => ?_, ?_, ?_, fun i _ => ?_, fun i _ => ?_, fun i _ => ?_⟩
    all_goals exact cellsEq_of_eq (by simp [hsel, funext hsel, hext, hfin, hopd, -List.getD_eq_getElem?_getD])
  · refine ⟨fun k _ => ?_, fun k _ _ => ?_, fun k _ => ?_, fun k _ => ?_, fun k i _ _ => ?_, ?_⟩
    all_goals exact cellsEq_of_eq (by simp [hsel, hext])

/-! ### The words of an honest event (R225, R229) -/

theorem permStateAfter_canonical {c : Config} {v : List Nat} (hlen : v.length = c.permN) (hv : ∀ x ∈ v, x < c.q)
    (r : Nat) :
    (permStateAfter c v r).length = c.permN ∧ ∀ x ∈ permStateAfter c v r, x < c.q := by
  cases r with
  | zero => exact ⟨hlen, hv⟩
  | succ r => exact ⟨permRound_length c r _, permRound_lt c r _⟩

/-- Words kept by round, read back as numbers. -/
theorem map_roundWord {c : Config} {recs : List (List MemoryRecord)} {f : Nat → Nat → MemoryRecord} {w : List Nat}
    {r : Nat}
    (hrecs : recs = (List.range c.permRounds).map (fun r => (List.range c.permN).map (f r))) (hr : r < c.permRounds)
    (hlen : w.length = c.permN) (hw : ∀ i, i < c.permN → (f r i).newValue.toNat = w.getD i 0) :
    (List.range c.permN).map (roundWord recs r) = w := by
  have hround : recs.getD r [] = (List.range c.permN).map (f r) := by rw [hrecs, getD_map_range _ _ hr]
  refine List.ext_getElem (by simp [hlen]) fun i hi hi' => ?_
  have hi : i < c.permN := by simpa using hi
  rw [List.getElem_map, List.getElem_range, roundWord, hround, List.map_map, getD_map_range _ _ hi,
    Function.comp_apply, hw i hi, List.getD_eq_getElem _ _ hi']

/-- A canonical word fits 32 bits in an engine with the PERM chip (R10(h)). -/
theorem toNat_ofNat_canonical {c : Config} (hPerm : c.hasPerm = true) {w : List Nat} (hw : ∀ x ∈ w, x < c.q)
    {i : Nat} : (BitVec.ofNat 32 (w.getD i 0)).toNat = w.getD i 0 := by
  have hq := c.wellFormed.wordsFit hPerm
  rw [BitVec.toNat_ofNat]
  refine Nat.mod_eq_of_lt ?_
  rcases Nat.lt_or_ge i w.length with hi | hi
  · rw [List.getD_eq_getElem _ _ hi]
    exact (hw _ (List.getElem_mem hi)).trans_le hq
  · rw [List.getD_eq_default _ _ hi]
    exact Nat.two_pow_pos 32

/-- An honest event holds the states of its rounds. -/
theorem honest_roundWords {c : Config} {e : PermEvent} (he : e.Honest c) :
    ∃ v, ∀ r, r < c.permRounds →
      (List.range c.permN).map (roundWord e.stateReads r) = permStateAfter c v r ∧
        (List.range c.permN).map (roundWord e.stateWrites r) = permStateAfter c v (r + 1) := by
  obtain ⟨hPerm, -, -, v, hlen, hv, hreads, hwrites⟩ := he
  have canonical := permStateAfter_canonical hlen hv
  refine ⟨v, fun r hr => ⟨?_, ?_⟩⟩
  · exact map_roundWord hreads hr (canonical r).1 fun i _ => toNat_ofNat_canonical hPerm (canonical r).2
  · exact map_roundWord hwrites hr (canonical (r + 1)).1 fun i _ => toNat_ofNat_canonical hPerm (canonical (r + 1)).2

/-! ### The layout (R228) -/

theorem slice_middle {row xs ys zs : List Nat} {off len : Nat} (h : row = xs ++ ys ++ zs) (hx : xs.length = off)
    (hy : ys.length = len) : slice off len row = ys := by
  rw [h, List.append_assoc, slice_past hx, slice_zero_append hy]

/-- The cells that the fields of a row are laid out in. -/
def PermRow.cells (p : PermRow) : List Nat :=
  [p.clk, p.statePtr, p.isExternal, p.isFinalize] ++ p.roundSel ++ p.inp ++ p.out ++ p.finOpd

/-- The view of cells laid out from fields of the right sizes is those fields. -/
theorem PermRow.ofCells_cells {c : Config} {p : PermRow} (hsel : p.roundSel.length = c.permRounds)
    (hinp : p.inp.length = c.permN) (hout : p.out.length = c.permN) (hopd : p.finOpd.length = c.permN) :
    PermRow.ofCells c p.cells = some p := by
  have hwidth : p.cells.length = c.permWidth := by
    simp only [PermRow.cells, List.length_append, List.length_cons, List.length_nil, hsel, hinp, hout, hopd,
      Params.permWidth]
    ring
  let header := [p.clk, p.statePtr, p.isExternal, p.isFinalize]
  have ssel : slice 4 c.permRounds p.cells = p.roundSel :=
    slice_middle (xs := header) (zs := p.inp ++ p.out ++ p.finOpd) (by simp [PermRow.cells, header]) rfl hsel
  have sinp : slice (4 + c.permRounds) c.permN p.cells = p.inp :=
    slice_middle (xs := header ++ p.roundSel) (zs := p.out ++ p.finOpd) (by simp [PermRow.cells, header])
      (by simp [header, hsel]; omega) hinp
  have sout : slice (4 + c.permRounds + c.permN) c.permN p.cells = p.out :=
    slice_middle (xs := header ++ p.roundSel ++ p.inp) (zs := p.finOpd) (by simp [PermRow.cells, header])
      (by simp [header, hsel, hinp]; omega) hout
  have sopd : slice (4 + c.permRounds + 2 * c.permN) c.permN p.cells = p.finOpd :=
    slice_middle (xs := header ++ p.roundSel ++ p.inp ++ p.out) (zs := []) (by simp [PermRow.cells, header])
      (by simp [header, hsel, hinp, hout]; omega) hopd
  simp only [slice] at ssel sinp sout sopd
  rw [PermRow.ofCells, if_pos hwidth, ssel, sinp, sout, sopd]
  rfl

theorem permRow_eq_ok {c : Config} {e : PermEvent} {r : Nat} {row : List Nat} (h : permRow c e r = .ok row) :
    row = permCells c e r := by
  unfold permRow at h
  split at h
  · cases h; rfl
  · cases h

/-- The view of a populated row has the fields of R229. -/
theorem ofCells_permRow {c : Config} {e : PermEvent} {r : Nat} {v row : List Nat} (h : permRow c e r = .ok row)
    (hinp : (List.range c.permN).map (roundWord e.stateReads r) = permStateAfter c v r)
    (hout : (List.range c.permN).map (roundWord e.stateWrites r) = permStateAfter c v (r + 1)) :
    PermRow.ofCells c row = some (PermRow.ofRound c e.clock.toNat e.statePtr.toNat v r) := by
  obtain rfl := permRow_eq_ok h
  let cur := PermRow.ofRound c e.clock.toNat e.statePtr.toNat v r
  have hwords {recs : List (List MemoryRecord)} {w : List Nat} (hw : (List.range c.permN).map (roundWord recs r) = w)
      {i : Nat} (hi : i < c.permN) : roundWord recs r i = w.getD i 0 := by rw [← hw, getD_map_range _ _ hi]
  have hopening : (List.range c.permN).map (fun i => if r + 1 = c.permRounds then
      (((roundWord e.stateWrites r i : Int) - roundWord e.stateReads r i) % c.q).toNat else 0) = cur.finOpd := by
    refine List.map_congr_left fun i hi => ?_
    rw [hwords hinp (List.mem_range.mp hi), hwords hout (List.mem_range.mp hi)]
  have hcells : permCells c e r = cur.cells := by
    simp only [permCells, hinp, hout, decide_eq_true_eq, hopening]
    rfl
  rw [hcells]
  refine PermRow.ofCells_cells (by simp [cur, PermRow.ofRound]) ?_ (permRound_length c r _)
    (by simp [cur, PermRow.ofRound])
  change (permStateAfter c v r).length = c.permN
  simp [← hinp]

theorem ofCells_zeros (c : Config) : PermRow.ofCells c (List.replicate c.permWidth 0) = some (PermRow.zero c) := by
  have hcells : (PermRow.zero c).cells = List.replicate c.permWidth 0 := by
    refine List.eq_replicate_iff.mpr ⟨?_, fun x hx => ?_⟩
    · simp only [PermRow.cells, PermRow.zero, List.length_append, List.length_cons, List.length_nil,
        List.length_replicate, Params.permWidth]
      ring
    · simp only [PermRow.cells, PermRow.zero, List.mem_append, List.mem_cons, List.not_mem_nil,
        List.mem_replicate] at hx
      tauto
  rw [← hcells]
  exact PermRow.ofCells_cells List.length_replicate List.length_replicate List.length_replicate List.length_replicate

end Sys2Proof.Machine
end

section
/-! PROOFS. 44_trace.md: the rows of a matrix (R261 to R263), and EVAL on the matrices of honest logs (R267). -/

namespace Sys2Proof.Machine

/-! ### The rows of a matrix (R261 to R263) -/

theorem collect_eq_ok {α : Type} {l : List (Except DefectCause α)} {rows : List α} (h : collect l = .ok rows) :
    l = rows.map .ok := by
  induction l generalizing rows with
  | nil => cases h; rfl
  | cons x l ih =>
    cases x with
    | error d => cases h
    | ok a =>
      unfold collect at h
      split at h
      next => cases h
      next rest hrest => cases h; rw [ih hrest, List.map_cons]

/-- A row of a padded matrix is one of those padded, or is all zeros and stands after them. -/
theorem padMatrix_getElem? {width i : Nat} {rows : List (List Nat)} {row : List Nat}
    (h : (padMatrix width rows)[i]? = some row) :
    rows[i]? = some row ∨ rows[i]? = none ∧ row = List.replicate width 0 := by
  unfold padMatrix at h
  rcases Nat.lt_or_ge i rows.length with hi | hi
  · exact .inl (by rwa [List.getElem?_append_left hi] at h)
  · rw [List.getElem?_append_right hi] at h
    exact .inr ⟨List.getElem?_eq_none hi, List.eq_of_mem_replicate (List.mem_of_getElem? h)⟩

/-- What pieces of `R` each hold at an index. -/
theorem getElem?_flatMap_map_range {α β : Type} {R : Nat} (hR : 0 < R) (f : α → Nat → β) (l : List α) (i : Nat) :
    (l.flatMap (fun a => (List.range R).map (f a)))[i]? = l[i / R]?.map (fun a => f a (i % R)) := by
  induction l generalizing i with
  | nil => simp
  | cons a l ih =>
    rw [List.flatMap_cons]
    rcases Nat.lt_or_ge i R with hi | hi
    · rw [List.getElem?_append_left (by simpa using hi), Nat.div_eq_of_lt hi, Nat.mod_eq_of_lt hi]
      simp [hi]
    · rw [List.getElem?_append_right (by simpa using hi), List.length_map, List.length_range, ih,
        Nat.div_eq_sub_div hR hi, List.getElem?_cons_succ, Nat.mod_eq_sub_mod hi]

/-- A row of the ED matrix is the row of an event or all zeros. -/
theorem edMatrix_getElem? {c : Config} {log : List EdAddEvent} {m : Matrix} {i : Nat} {row : List Nat}
    (h : edMatrix c log = .ok m) (hi : m[i]? = some row) :
    (∃ e ∈ log, edRow c e = .ok row) ∨ row = List.replicate c.edWidth 0 := by
  unfold edMatrix at h
  split at h
  next => cases h
  next rows hrows =>
    cases h
    rcases padMatrix_getElem? hi with hrow | ⟨-, hzero⟩
    · have hmem : Except.ok row ∈ log.map (edRow c) := by
        rw [collect_eq_ok hrows]
        exact List.mem_map_of_mem (List.mem_of_getElem? hrow)
      exact .inl (List.mem_map.mp hmem)
    · exact .inr hzero

/-- Row `i` of the PERM matrix is the row of event `i / R` and round `i % R`, or all zeros past the last event. -/
theorem permMatrix_getElem? {c : Config} {log : List PermEvent} {m : Matrix} {i : Nat} {row : List Nat}
    (h : permMatrix c log = .ok m) (hi : m[i]? = some row) :
    (∃ e, log[i / c.permRounds]? = some e ∧ permRow c e (i % c.permRounds) = .ok row) ∨
      log[i / c.permRounds]? = none ∧ row = List.replicate c.permWidth 0 := by
  unfold permMatrix at h
  split at h
  next => cases h
  next rows hrows =>
    cases h
    have hflat := getElem?_flatMap_map_range c.wellFormed.permutation.2 (permRow c) log i
    rw [collect_eq_ok hrows, List.getElem?_map] at hflat
    rcases padMatrix_getElem? hi with hrow | ⟨hnone, hzero⟩
    · rw [hrow, Option.map_some, eq_comm, Option.map_eq_some_iff] at hflat
      exact .inl hflat
    · rw [hnone, Option.map_none, eq_comm, Option.map_eq_none_iff] at hflat
      exact .inr ⟨hflat, hzero⟩

/-! ### EVAL (R267) -/

/-- Everything EVAL of a chip can answer: the verdict on a row of the matrix. -/
theorem evalCommand_next {chip : Chip} {trace : Option Matrix}
    {verdict : List Nat → List Nat → Nat → Nat → Option Bool} {s t : State}
    (h : evalCommand chip trace verdict s = .next t) :
    ∃ m cur b, trace = some m ∧ m[s.operands.row]? = some cur ∧
      verdict cur (nextRow m s.operands.row cur) s.operands.row m.length = some b ∧
      t = respond .host (.verdict b) s := by
  unfold evalCommand at h
  split at h
  next => cases h
  next m =>
    split at h
    next => cases h
    next cur hcur =>
      split at h
      next => cases h
      next b hb => cases h; exact ⟨m, cur, b, rfl, hcur, hb, rfl⟩

/-- Every row of the ED matrix of an honest log passes. -/
theorem edVerdict_of_edMatrix {c : Config} {log : List EdAddEvent} {m : Matrix} {i : Nat} {cur : List Nat}
    (hlog : ∀ e ∈ log, e.Honest c) (hm : edMatrix c log = .ok m) (hcur : m[i]? = some cur) :
    edVerdict c cur = some true := by
  rcases edMatrix_getElem? hm hcur with ⟨e, he, hrow⟩ | rfl
  · exact edVerdict_of_honest (hlog e he) hrow
  · exact edVerdict_zeros c

/-! ### The windows of the PERM matrix -/

theorem permVerdict_eq_true {c : Config} {cur next : List Nat} {a b : PermRow} {i h : Nat}
    (ha : PermRow.ofCells c cur = some a) (hb : PermRow.ofCells c next = some b) (hrow : PermRowConstraints c a)
    (htrans : i + 1 < h → PermTransitionConstraints c a b) (hfirst : i = 0 → PermFirstRowConstraints c a) :
    permVerdict c cur next i h = some true := by
  simp only [permVerdict, ha, hb]
  congr 1
  exact (evalPermWindow_iff c a b _ _).mpr ⟨hrow, by simpa using htrans, by simpa using hfirst⟩

/-- The view of every row of an honest event is a round from one state. -/
theorem honest_views {c : Config} {e : PermEvent} (he : e.Honest c) :
    ∃ v, ∀ r row, r < c.permRounds → permRow c e r = .ok row →
      PermRow.ofCells c row = some (PermRow.ofRound c e.clock.toNat e.statePtr.toNat v r) := by
  obtain ⟨v, hwords⟩ := honest_roundWords he
  refine ⟨v, fun r row hr hrow => ?_⟩
  obtain ⟨hinp, hout⟩ := hwords r hr
  exact ofCells_permRow hrow hinp hout

theorem succ_div_mod_of_lt {R i : Nat} (h : i % R + 1 < R) : (i + 1) / R = i / R ∧ (i + 1) % R = i % R + 1 :=
  (Nat.div_mod_unique (by omega)).mpr ⟨by have := Nat.mod_add_div i R; omega, h⟩

theorem succ_mod_of_eq {R i : Nat} (h : i % R + 1 = R) : (i + 1) % R = 0 := by
  have hdvd : i + 1 = R * (i / R + 1) := by
    have := Nat.mod_add_div i R
    rw [Nat.mul_succ]
    omega
  rw [hdvd, Nat.mul_mod_right]

section

variable {c : Config} {log : List PermEvent} {m : Matrix} {i : Nat} {cur : List Nat}
  (hlog : ∀ e ∈ log, e.Honest c) (hm : permMatrix c log = .ok m) (hcur : m[i]? = some cur)
include hlog hm hcur

/-- A row at the start of an event, or past the last one, is not inside an invocation. -/
theorem permView_of_firstRound (hfirst : i % c.permRounds = 0) :
    ∃ b, PermRow.ofCells c cur = some b ∧ ∀ k, 1 ≤ k → b.sel k = 0 := by
  rcases permMatrix_getElem? hm hcur with ⟨e, he, hrow⟩ | ⟨-, rfl⟩
  · obtain ⟨v, hview⟩ := honest_views (hlog e (List.mem_of_getElem? he))
    rw [hfirst] at hrow
    have hpos : 0 < c.permRounds := c.wellFormed.permutation.2
    refine ⟨_, hview 0 cur hpos hrow, fun k hk => ?_⟩
    rw [PermRow.ofRound_sel hpos, if_neg (by omega)]
  · exact ⟨_, ofCells_zeros c, fun k _ => PermRow.zero_sel c k⟩

/-- What follows a row in the matrix meets (T1) to (T6) with it. -/
theorem permView_next {next : List Nat} (hnext : m[i + 1]? = some next) :
    ∃ a b, PermRow.ofCells c cur = some a ∧ PermRow.ofCells c next = some b ∧ PermTransitionConstraints c a b := by
  rcases permMatrix_getElem? hm hcur with ⟨e, he, hrow⟩ | ⟨hnone, rfl⟩
  · obtain ⟨v, hview⟩ := honest_views (hlog e (List.mem_of_getElem? he))
    have hr : i % c.permRounds < c.permRounds := Nat.mod_lt _ c.wellFormed.permutation.2
    have ha := hview _ cur hr hrow
    rcases Nat.lt_or_ge (i % c.permRounds + 1) c.permRounds with hlt | hge
    · obtain ⟨hdiv, hmod⟩ := succ_div_mod_of_lt hlt
      rcases permMatrix_getElem? hm hnext with ⟨e', he', hrow'⟩ | ⟨hnone, -⟩
      · rw [hdiv, he, Option.some.injEq] at he'
        subst he'
        rw [hmod] at hrow'
        exact ⟨_, _, ha, hview _ next hlt hrow', permTransitionConstraints_ofRound hr hlt⟩
      · rw [hdiv, he] at hnone
        cases hnone
    · have hlast : i % c.permRounds + 1 = c.permRounds := by omega
      obtain ⟨b, hb, hsel⟩ := permView_of_firstRound hlog hm hnext (succ_mod_of_eq hlast)
      exact ⟨_, b, ha, hb, permTransitionConstraints_ofLastRound hr hlast hsel⟩
  · rcases permMatrix_getElem? hm hnext with ⟨e', he', -⟩ | ⟨-, rfl⟩
    · rw [List.getElem?_eq_none_iff] at hnone
      have hle : i / c.permRounds ≤ (i + 1) / c.permRounds := Nat.div_le_div_right (by omega)
      rw [List.getElem?_eq_none (by omega)] at he'
      cases he'
    · exact ⟨_, _, ofCells_zeros c, ofCells_zeros c, (permConstraints_zero c).2⟩

/-- Every row meets (P1) to (P6), and the first row the constraint of R233. -/
theorem permView_row : ∃ a, PermRow.ofCells c cur = some a ∧ PermRowConstraints c a ∧
    (i = 0 → PermFirstRowConstraints c a) := by
  rcases permMatrix_getElem? hm hcur with ⟨e, he, hrow⟩ | ⟨hnone, rfl⟩
  · obtain ⟨v, hview⟩ := honest_views (hlog e (List.mem_of_getElem? he))
    have hr : i % c.permRounds < c.permRounds := Nat.mod_lt _ c.wellFormed.permutation.2
    refine ⟨_, hview _ cur hr hrow, permRowConstraints_ofRound hr, fun hi k hk _ => cellsEq_of_eq ?_⟩
    rw [PermRow.ofRound_sel hr, if_neg (by rw [hi, Nat.zero_mod]; omega)]
  · exact ⟨_, ofCells_zeros c, (permConstraints_zero c).1, fun _ k _ _ => cellsEq_of_eq (PermRow.zero_sel c k)⟩

/-- Every window of the PERM matrix of an honest log passes. -/
theorem permVerdict_of_permMatrix : permVerdict c cur (nextRow m i cur) i m.length = some true := by
  obtain ⟨a, ha, hrow, hfirst⟩ := permView_row hlog hm hcur
  rcases Nat.lt_or_ge (i + 1) m.length with hlt | hge
  · have hnext := List.getElem?_eq_getElem hlt
    obtain ⟨a', b, ha', hb, htrans⟩ := permView_next hlog hm hcur hnext
    obtain rfl : a = a' := Option.some.inj (ha.symm.trans ha')
    rw [nextRow, hnext, Option.getD_some]
    exact permVerdict_eq_true ha hb hrow (fun _ => htrans) hfirst
  · rw [nextRow, List.getElem?_eq_none hge, Option.getD_none]
    exact permVerdict_eq_true ha ha hrow (fun hlt => by omega) hfirst

end

/-- Settles O59: EVAL answers with the verdict on a row of a matrix of honest events, where every window passes. -/
theorem honestTracesAreAccepted : Obligations.HonestTracesAreAccepted := by
  unfold Obligations.HonestTracesAreAccepted
  intro s t chip hinv h
  obtain ⟨-, h⟩ := unlessFaulted_next h
  obtain ⟨-, h⟩ := ifChip_next h
  cases chip with
  | ed =>
    obtain ⟨m, cur, b, htrace, hcur, hverdict, rfl⟩ := evalCommand_next h
    obtain ⟨-, hm⟩ := hinv.traceEd m htrace
    rw [edVerdict_of_edMatrix hinv.logEd hm hcur] at hverdict
    cases hverdict
    rfl
  | perm =>
    obtain ⟨m, cur, b, htrace, hcur, hverdict, rfl⟩ := evalCommand_next h
    obtain ⟨-, hm⟩ := hinv.tracePerm m htrace
    rw [permVerdict_of_permMatrix hinv.logPerm hm hcur] at hverdict
    cases hverdict
    rfl

end Sys2Proof.Machine
end

section
/-! PROOFS. 20_memory.md: the words of a region and the field elements they hold (R52 to R54, R59). -/

namespace Sys2Proof.Machine

/-! ### Words as the limbs of a field element -/

theorem val_append (base : Nat) (xs ys : List Nat) :
    val base (xs ++ ys) = val base xs + base ^ xs.length * val base ys := by
  induction xs with
  | nil => simp [val]
  | cons x xs ih => rw [List.cons_append, val, ih, val, List.length_cons, pow_succ']; ring

/-- The limbs of words have the value of the words in base `2^32`. -/
theorem val_wordsToLimbs (c : Config) (ws : List Word) :
    val c.fd.base (wordsToLimbs c ws) = val (2 ^ 32) (ws.map BitVec.toNat) := by
  induction ws with
  | nil => rfl
  | cons w ws ih =>
    have hw : val c.fd.base (wordLimbs c w) = w.toNat := by
      rw [wordLimbs, val_limbs _ _ _ (by rw [base_pow_limbsPerWord]; exact w.isLt)]
    rw [wordsToLimbs_cons, val_append, hw, wordLimbs_length, base_pow_limbsPerWord, ih, List.map_cons, val]

theorem fieldAt_eq_val (m : Memory) (a : Nat) :
    fieldAt m a = val (2 ^ 32) ((List.range 8).map (fun j => (m.readWord (a + 4 * j)).toNat)) := by
  rw [fieldAt, val_eq_sum, List.length_map, List.length_range]
  refine congrArg List.sum (List.map_congr_left fun j hj => ?_)
  rw [getD_map_range _ _ (List.mem_range.mp hj), pow_mul]

@[simp] theorem wordsAt_length (m : Memory) (ptr : Word) (n : Nat) : (wordsAt m ptr n).length = n := by
  simp [wordsAt]

theorem wordsAt_getD (m : Memory) (ptr : Word) {n i : Nat} (hi : i < n) :
    (wordsAt m ptr n).getD i 0 = m.readWord (ptr.toNat + 4 * i) :=
  getD_map_range _ _ hi

/-- The coordinates of the point at a pointer are the field elements that memory holds there (R53). -/
theorem val_point_wordsAt (c : Config) (m : Memory) (ptr : Word) :
    val c.fd.base (pointX c (wordsAt m ptr 16)) = fieldAt m ptr.toNat ∧
      val c.fd.base (pointY c (wordsAt m ptr 16)) = fieldAt m (ptr.toNat + 32) := by
  rw [pointX, pointY, val_wordsToLimbs, val_wordsToLimbs, fieldAt_eq_val, fieldAt_eq_val]
  exact ⟨rfl, rfl⟩

theorem LimbVector.canonical {fd : FieldDesc} {v : List Nat} (h : LimbVector fd v) (hv : val fd.base v < fd.p) :
    CanonicalLimbs fd v :=
  ⟨h.1, h.2, hv⟩

theorem CanonicalLimbs.limbVector {fd : FieldDesc} {v : List Nat} (h : CanonicalLimbs fd v) : LimbVector fd v :=
  ⟨h.1, h.2.1⟩

theorem CanonicalLimbs.val_lt {fd : FieldDesc} {v : List Nat} (h : CanonicalLimbs fd v) : val fd.base v < fd.p :=
  h.2.2

theorem point_limbVector (c : Config) {ws : List Word} (h : ws.length = 16) :
    LimbVector c.fd (pointX c ws) ∧ LimbVector c.fd (pointY c ws) := by
  have limbVector {ws : List Word} (h : ws.length = 8) : LimbVector c.fd (wordsToLimbs c ws) :=
    ⟨by rw [wordsToLimbs_length, h, numLimbs_eq], wordsToLimbs_lt c ws⟩
  exact ⟨limbVector (by simp [h]), limbVector (by simp [h])⟩

/-- A point's words are the words of its two coordinates (R54). -/
theorem limbsToWords_point (c : Config) {ws : List Word} (h : ws.length = 16) :
    limbsToWords c 8 (pointX c ws) ++ limbsToWords c 8 (pointY c ws) = ws := by
  have hx := limbsToWords_wordsToLimbs c (ws.take 8)
  have hy := limbsToWords_wordsToLimbs c ((ws.drop 8).take 8)
  rw [List.length_take, show min 8 ws.length = 8 by omega] at hx
  rw [List.length_take, List.length_drop, show min 8 (ws.length - 8) = 8 by omega] at hy
  rw [pointX, pointY, hx, hy, List.take_of_length_le (l := ws.drop 8) (by simp [h]), List.take_append_drop]

/-- Limb vectors of one value are the same. -/
theorem limbVector_ext {fd : FieldDesc} {a b : List Nat} (ha : LimbVector fd a) (hb : LimbVector fd b)
    (h : val fd.base a = val fd.base b) : a = b := by
  rw [← limbs_val _ a ha.2, ← limbs_val _ b hb.2, h, ha.1, hb.1]

/-! ### Reading and storing a region (R56, R59) -/

theorem RegionFits.bound {ptr : Word} {n i : Nat} (h : RegionFits ptr n) (hi : i < n) : ptr.toNat + 4 * i < 2 ^ 32 := by
  have := h.2
  omega

theorem RegionFits.aligned {ptr : Word} {n : Nat} (h : RegionFits ptr n) : aligned ptr = true :=
  (aligned_iff ptr).mpr h.1

theorem eq_map_range {α : Type} {l : List α} {n : Nat} {f : Nat → α} (hlen : l.length = n)
    (h : ∀ i, i < n → l[i]? = some (f i)) : l = (List.range n).map f := by
  refine List.ext_getElem (by simpa using hlen) fun i hi _ => ?_
  rw [List.getElem_map, List.getElem_range, List.getElem_eq_iff]
  exact h i (hlen ▸ hi)

/-- The records of a run of reads, by the schedule of 42_edadd.md R186. -/
theorem readRecords_eq_map (m : Memory) {n : Nat} {ptr : Word} (h : RegionFits ptr n) (clock : Word) :
    readRecords m n ptr clock = (List.range n).map (fun i =>
      { address := regionAddr ptr i, clock := clockAt clock i
        priorValue := (wordsAt m ptr n).getD i 0, newValue := (wordsAt m ptr n).getD i 0 }) := by
  refine eq_map_range (readRecords_length m n ptr clock) fun i hi => ?_
  rw [readRecords_getElem? m n ptr clock i hi, wordsAt_getD m ptr hi, readRecord, toNat_wordAddr ptr i (h.bound hi)]
  rfl

theorem readRecords_newValues (m : Memory) {n : Nat} {ptr : Word} (h : RegionFits ptr n) (clock : Word) :
    (readRecords m n ptr clock).map (·.newValue) = wordsAt m ptr n := by
  rw [readRecords_eq_map m h, List.map_map, wordsAt]
  exact List.map_congr_left fun i hi => wordsAt_getD m ptr (List.mem_range.mp hi)

/-- The records of a run of writes, by the schedule of 42_edadd.md R186. -/
theorem writeRecords_eq_map (m : Memory) {n : Nat} {ptr : Word} {ws : List Word} (h : RegionFits ptr n)
    (hlen : ws.length = n) (clock : Word) :
    writeRecords ws ptr clock m = (List.range n).map (fun i =>
      { address := regionAddr ptr i, clock := clockAt clock i
        priorValue := (wordsAt m ptr n).getD i 0, newValue := ws.getD i 0 }) := by
  subst hlen
  refine eq_map_range (writeRecords_length ws ptr clock m) fun i hi => ?_
  rw [writeRecords_getElem? ws ptr clock m i h.2 hi, wordsAt_getD m ptr hi, writeRecord,
    toNat_wordAddr ptr i (h.bound hi)]
  rfl

/-- A stored region reads back. -/
theorem wordsAt_storeWords (m : Memory) {n : Nat} {ptr : Word} {ws : List Word} (h : RegionFits ptr n)
    (hlen : ws.length = n) : wordsAt (storeWords ws ptr m) ptr n = ws := by
  subst hlen
  refine List.ext_getElem (by simp) fun i hi hi' => ?_
  rw [← List.getD_eq_getElem _ 0 hi, wordsAt_getD _ _ hi', storeWords_readWord_inside ws ptr m i h.2 hi',
    List.getD_eq_getElem _ 0 hi']

/-- The bytes of four bytes put together. -/
theorem extractLsb'_append_bytes (b₃ b₂ b₁ b₀ : Byte) :
    (b₃ ++ b₂ ++ b₁ ++ b₀).extractLsb' 0 8 = b₀ ∧ (b₃ ++ b₂ ++ b₁ ++ b₀).extractLsb' 8 8 = b₁ ∧
      (b₃ ++ b₂ ++ b₁ ++ b₀).extractLsb' 16 8 = b₂ ∧ (b₃ ++ b₂ ++ b₁ ++ b₀).extractLsb' 24 8 = b₃ := by
  have past {n : Nat} (x : BitVec n) (y : Byte) (start : Nat) :
      (x ++ y).extractLsb' (start + 8) 8 = x.extractLsb' start 8 := by
    rw [BitVec.extractLsb'_append_eq_of_le (by omega), Nat.add_sub_cancel]
  refine ⟨BitVec.extractLsb'_append_eq_right, ?_, ?_, ?_⟩
  · exact (past _ b₀ 0).trans BitVec.extractLsb'_append_eq_right
  · exact (past _ b₀ 8).trans ((past _ b₁ 0).trans BitVec.extractLsb'_append_eq_right)
  · exact (past _ b₀ 16).trans ((past _ b₁ 8).trans ((past _ b₂ 0).trans BitVec.extractLsb'_eq_self))

/-- A byte is a part of the word it stands in. -/
theorem readByte_eq_extractLsb' (m : Memory) (a : Nat) {k : Nat} (hk : k < 4) :
    m.readByte (a + k) = (m.readWord a).extractLsb' (8 * k) 8 := by
  obtain ⟨h0, h1, h2, h3⟩ :=
    extractLsb'_append_bytes (m.readByte (a + 3)) (m.readByte (a + 2)) (m.readByte (a + 1)) (m.readByte a)
  interval_cases k
  exacts [h0.symm, h1.symm, h2.symm, h3.symm]

/-- Storing what a region holds changes no byte. -/
theorem readByte_storeWords_wordsAt (m : Memory) {n : Nat} {ptr : Word} (h : RegionFits ptr n) (b : Nat) :
    (storeWords (wordsAt m ptr n) ptr m).readByte b = m.readByte b := by
  obtain ⟨-, hfit⟩ := h
  have hlen := wordsAt_length m ptr n
  by_cases hb : b < ptr.toNat ∨ ptr.toNat + 4 * n ≤ b
  · exact storeWords_readByte_outside _ ptr m b (by rwa [hlen]) (by rwa [hlen])
  · obtain ⟨i, k, hi, hk, rfl⟩ : ∃ i k, i < n ∧ k < 4 ∧ b = ptr.toNat + 4 * i + k :=
      ⟨(b - ptr.toNat) / 4, (b - ptr.toNat) % 4, by omega, by omega, by omega⟩
    rw [readByte_eq_extractLsb' _ _ hk, readByte_eq_extractLsb' _ _ hk,
      storeWords_readWord_inside _ ptr m i (by rwa [hlen]) (by rwa [hlen]), wordsAt_getD m ptr hi]

end Sys2Proof.Machine
end

section
/-! PROOFS. 42_edadd.md, section 1: the datapath of EDADD modulo `p` (R182, R183) and the curve it stays on (R188). -/

namespace Sys2Proof.Machine

/-! ### The units modulo `p` (41_fp_units.md R132) -/

/-- A unit's result meets the integer identity of R132 with some quotient. -/
def UnitHolds (c : Config) (op : UnitOp) (ins : List LimbPair) (res : List Nat) : Prop :=
  ∃ k, op.identity c.fd.p (ins.map (fun ab => (val c.fd.base ab.1, val c.fd.base ab.2))) (val c.fd.base res) k = 0

/-- The residue of a limb vector's value. -/
def residue (c : Config) (v : List Nat) : ZMod c.fd.p := val c.fd.base v

section

variable {c : Config} {a b a' b' res : List Nat}

/-- The identity modulo `p`, where the quotient drops out. -/
theorem UnitHolds.cast_eq_zero {op : UnitOp} {ins : List LimbPair} (h : UnitHolds c op ins res) :
    ∃ k : Nat, (op.identity c.fd.p (ins.map (fun ab => (val c.fd.base ab.1, val c.fd.base ab.2)))
      (val c.fd.base res) k : ZMod c.fd.p) = 0 :=
  h.imp fun k hk => by rw [hk, Int.cast_zero]

theorem UnitHolds.mul (h : UnitHolds c .mul [(a, b)] res) : residue c a * residue c b - residue c res = 0 := by
  obtain ⟨k, hk⟩ := h.cast_eq_zero
  simpa [UnitOp.identity, residue] using hk

theorem UnitHolds.ip (h : UnitHolds c (.ip 2) [(a, b), (a', b')] res) :
    residue c a * residue c b + residue c a' * residue c b' - residue c res = 0 := by
  obtain ⟨k, hk⟩ := h.cast_eq_zero
  simpa [UnitOp.identity, residue] using hk

theorem UnitHolds.denP (h : UnitHolds c .denP [(a, b)] res) :
    residue c res * residue c b + residue c res - residue c a = 0 := by
  obtain ⟨k, hk⟩ := h.cast_eq_zero
  simpa [UnitOp.identity, residue] using hk

theorem UnitHolds.denM (h : UnitHolds c .denM [(a, b)] res) :
    residue c res * residue c b + residue c a - residue c res = 0 := by
  obtain ⟨k, hk⟩ := h.cast_eq_zero
  simpa [UnitOp.identity, residue] using hk

end

theorem emod_eq_zero_iff_cast (p : Nat) (x : Int) : x % p = 0 ↔ (x : ZMod p) = 0 := by
  rw [ZMod.intCast_zmod_eq_zero_iff_dvd, Int.dvd_iff_emod_eq_zero]

/-! ### The chain of eight units (R183) -/

/-- The results of the eight units, of a chain that ran or of a row. -/
structure ChainResults where
  x3num : List Nat
  y3num : List Nat
  g1 : List Nat
  g2 : List Nat
  f : List Nat
  df : List Nat
  x3 : List Nat
  y3 : List Nat

/-- Every result meets the identity of its unit. -/
structure ChainResults.Hold (c : Config) (x1 y1 x2 y2 : List Nat) (r : ChainResults) : Prop where
  x3num : UnitHolds c (.ip 2) [(x1, y2), (x2, y1)] r.x3num
  y3num : UnitHolds c (.ip 2) [(y1, y2), (x1, x2)] r.y3num
  g1 : UnitHolds c .mul [(x1, y1)] r.g1
  g2 : UnitHolds c .mul [(x2, y2)] r.g2
  f : UnitHolds c .mul [(r.g1, r.g2)] r.f
  df : UnitHolds c .mul [(edDLimbs c, r.f)] r.df
  x3 : UnitHolds c .denP [(r.x3num, r.df)] r.x3
  y3 : UnitHolds c .denM [(r.y3num, r.df)] r.y3

/-- The addition formulas of R183 modulo `p`. -/
def EdSum (c : Config) (x1 y1 x2 y2 x3 y3 : Nat) : Prop :=
  ((x3 : Int) * (1 + edProduct c x1 y1 x2 y2) - (x1 * y2 + x2 * y1)) % c.fd.p = 0 ∧
    ((y3 : Int) * (1 - edProduct c x1 y1 x2 y2) - (y1 * y2 + x1 * x2)) % c.fd.p = 0

theorem base_pow_numLimbs (c : Config) : c.fd.base ^ c.fd.numLimbs = 2 ^ 256 := by
  rw [base_pow, Nat.mul_comm, c.wellFormed.limbLength]

theorem p_lt (c : Config) : c.fd.p < 2 ^ 256 := by
  have hbound : 2 * c.fd.p ≤ 2 ^ 256 := c.wellFormed.boundP
  have := three_le_p c
  omega

theorem val_edDLimbs (c : Config) : val c.fd.base (edDLimbs c) = c.edD :=
  val_limbs _ _ _ (by rw [base_pow_numLimbs]; exact c.wellFormed.curveConstant.trans (p_lt c))

theorem edDLimbs_canonical (c : Config) : CanonicalLimbs c.fd (edDLimbs c) :=
  ⟨limbs_length _ _ _, limbs_lt _ _ _ (Nat.two_pow_pos _), by rw [val_edDLimbs]; exact c.wellFormed.curveConstant⟩

/-- Four multiplications give `d_f`. -/
theorem residue_df {c : Config} {x1 y1 x2 y2 g1 g2 f df : List Nat} (hg1 : UnitHolds c .mul [(x1, y1)] g1)
    (hg2 : UnitHolds c .mul [(x2, y2)] g2) (hf : UnitHolds c .mul [(g1, g2)] f)
    (hdf : UnitHolds c .mul [(edDLimbs c, f)] df) :
    residue c df =
      (edProduct c (val c.fd.base x1) (val c.fd.base y1) (val c.fd.base x2) (val c.fd.base y2) : Int) := by
  rw [← sub_eq_zero.mp hdf.mul, ← sub_eq_zero.mp hf.mul, ← sub_eq_zero.mp hg1.mul, ← sub_eq_zero.mp hg2.mul]
  simp only [residue, val_edDLimbs, edProduct]
  push_cast
  ring

/-- The last two results of a chain are the sum by the addition formulas. -/
theorem ChainResults.Hold.edSum {c : Config} {x1 y1 x2 y2 : List Nat} {r : ChainResults} (h : r.Hold c x1 y1 x2 y2) :
    EdSum c (val c.fd.base x1) (val c.fd.base y1) (val c.fd.base x2) (val c.fd.base y2) (val c.fd.base r.x3)
      (val c.fd.base r.y3) := by
  have hdf := residue_df h.g1 h.g2 h.f h.df
  have hx := h.x3.denP
  have hy := h.y3.denM
  rw [hdf, ← sub_eq_zero.mp h.x3num.ip] at hx
  rw [hdf, ← sub_eq_zero.mp h.y3num.ip] at hy
  simp only [residue] at hx hy
  constructor <;> rw [emod_eq_zero_iff_cast] <;> push_cast
  · linear_combination hx
  · linear_combination -hy

/-! ### When the chain runs (R139, R140, R182) -/

theorem unitHolds_of_populate {c : Config} {op : UnitOp} {ins : List LimbPair} {t : UnitResult} (hfit : op.Fits ins)
    (h : populate op c.fd ins = .ok t) : CanonicalLimbs c.fd t.res ∧ UnitHolds c op ins t.res := by
  obtain ⟨hres, -, hid, -⟩ := populate_answer c.fd op ins t (unitOk_config c) hfit h
  exact ⟨hres, _, hid⟩

/-- A unit that has a result for every operand completes on canonical ones. -/
theorem populate_of_canonical {c : Config} {op : UnitOp} {ins : List LimbPair} {ck : Nat × Nat} (hfit : op.Fits ins)
    (hcan : ∀ v ∈ vectorsOf ins, CanonicalLimbs c.fd v)
    (hs : op.solve c.fd.p (ins.map (fun ab => (val c.fd.base ab.1, val c.fd.base ab.2))) = some ck) :
    ∃ t, populate op c.fd ins = .ok t ∧ CanonicalLimbs c.fd t.res ∧ UnitHolds c op ins t.res := by
  obtain ⟨t, ht⟩ := populate_of_solve_some hcan hs
  exact ⟨t, ht, unitHolds_of_populate hfit ht⟩

theorem one_add_residue_eq_zero_iff {c : Config} {b : List Nat} (hb : CanonicalLimbs c.fd b) :
    1 + residue c b = 0 ↔ val c.fd.base b = c.fd.p - 1 := by
  have hp := three_le_p c
  have hlt := hb.val_lt
  have hcast : 1 + residue c b = ((1 + val c.fd.base b : Nat) : ZMod c.fd.p) := by simp [residue]
  rw [hcast, ZMod.natCast_eq_zero_iff]
  constructor
  · intro hdvd
    have := Nat.le_of_dvd (by omega) hdvd
    omega
  · intro h
    rw [h, show 1 + (c.fd.p - 1) = c.fd.p by omega]

theorem one_sub_residue_eq_zero_iff {c : Config} {b : List Nat} (hb : CanonicalLimbs c.fd b) :
    1 - residue c b = 0 ↔ val c.fd.base b = 1 := by
  have hp := three_le_p c
  have hone : (1 : ZMod c.fd.p) = (1 : Nat) := by simp
  rw [sub_eq_zero, residue, hone, ZMod.natCast_eq_natCast_iff', Nat.mod_eq_of_lt (by omega),
    Nat.mod_eq_of_lt hb.val_lt, eq_comm]

section

variable {c : Config} {a b : List Nat} (ha : CanonicalLimbs c.fd a) (hb : CanonicalLimbs c.fd b)
include ha hb

theorem vectorsOf_pair_canonical : ∀ v ∈ vectorsOf [(a, b)], CanonicalLimbs c.fd v := by
  simp [vectorsOf, ha, hb]

theorem populate_mul : ∃ t, populate .mul c.fd [(a, b)] = .ok t ∧ CanonicalLimbs c.fd t.res ∧
    UnitHolds c .mul [(a, b)] t.res :=
  populate_of_canonical (pair_fits rfl _) (vectorsOf_pair_canonical ha hb) rfl

/-- FPDEN.P completes exactly when `1 + b` is not `0` modulo `p` (41_fp_units.md R139). -/
theorem populate_denP : (1 + residue c b ≠ 0 → ∃ t, populate .denP c.fd [(a, b)] = .ok t) ∧
    (1 + residue c b = 0 → populate .denP c.fd [(a, b)] = .error .noInverse) := by
  have hp := three_le_p c
  have hcan := vectorsOf_pair_canonical ha hb
  rw [Ne, one_add_residue_eq_zero_iff hb]
  constructor
  · intro hne
    obtain ⟨ck, hs⟩ := solveDenP_eq_some (a := val c.fd.base a) c.wellFormed.primeP hp hb.val_lt hne
    exact populate_of_solve_some hcan hs
  · exact fun h => populate_of_solve_none hcan (solveDenP_eq_none (by omega) h)

/-- FPDEN.M completes exactly when `1 - b` is not `0` modulo `p` (41_fp_units.md R140). -/
theorem populate_denM : (1 - residue c b ≠ 0 → ∃ t, populate .denM c.fd [(a, b)] = .ok t) ∧
    (1 - residue c b = 0 → populate .denM c.fd [(a, b)] = .error .noInverse) := by
  have hcan := vectorsOf_pair_canonical ha hb
  rw [Ne, one_sub_residue_eq_zero_iff hb]
  constructor
  · intro hne
    obtain ⟨ck, hs⟩ := solveDenM_eq_some (a := val c.fd.base a) c.wellFormed.primeP (three_le_p c) hb.val_lt hne
    exact populate_of_solve_some hcan hs
  · exact fun h => populate_of_solve_none hcan (solveDenM_eq_none h)

end

theorem except_bind_of_ok {ε α β : Type} {x : Except ε α} {a : α} (f : α → Except ε β) (h : x = .ok a) :
    (x >>= f) = f a := by
  rw [h]
  rfl

section

variable {c : Config} {x1 y1 x2 y2 : List Nat} (hx1 : CanonicalLimbs c.fd x1) (hy1 : CanonicalLimbs c.fd y1)
  (hx2 : CanonicalLimbs c.fd x2) (hy2 : CanonicalLimbs c.fd y2)
include hx1 hy1 hx2 hy2

theorem populate_ip_two : ∃ t, populate (.ip 2) c.fd [(x1, y1), (x2, y2)] = .ok t ∧ CanonicalLimbs c.fd t.res ∧
    UnitHolds c (.ip 2) [(x1, y1), (x2, y2)] t.res :=
  populate_of_canonical (ip_two_fits _ _) (by simp [vectorsOf, hx1, hy1, hx2, hy2]) rfl

/-- On canonical coordinates only the two divisions of the chain can fail, and their denominators are `1 + d_f` and
`1 - d_f`. -/
theorem edChain_eq_divisions : ∃ (x3num y3num df : UnitResult) (answer : UnitResult → UnitResult → EdChain),
    edChain c x1 y1 x2 y2 = (do
      let x3 ← populate .denP c.fd [(x3num.res, df.res)]
      let y3 ← populate .denM c.fd [(y3num.res, df.res)]
      return answer x3 y3) ∧
    CanonicalLimbs c.fd x3num.res ∧ CanonicalLimbs c.fd y3num.res ∧ CanonicalLimbs c.fd df.res ∧
    residue c df.res =
      (edProduct c (val c.fd.base x1) (val c.fd.base y1) (val c.fd.base x2) (val c.fd.base y2) : Int) := by
  obtain ⟨x3num, px, cx, -⟩ := populate_ip_two hx1 hy2 hx2 hy1
  obtain ⟨y3num, py, cy, -⟩ := populate_ip_two hy1 hy2 hx1 hx2
  obtain ⟨g1, pg1, cg1, hg1⟩ := populate_mul hx1 hy1
  obtain ⟨g2, pg2, cg2, hg2⟩ := populate_mul hx2 hy2
  obtain ⟨f, pf, cf, hf⟩ := populate_mul cg1 cg2
  obtain ⟨df, pdf, cdf, hdf⟩ := populate_mul (edDLimbs_canonical c) cf
  refine ⟨x3num, y3num, df, fun x3 y3 => { x3num, y3num, g1, g2, f, df, x3, y3 }, ?_, cx, cy, cdf,
    residue_df hg1 hg2 hf hdf⟩
  rw [edChain, except_bind_of_ok _ px, except_bind_of_ok _ py, except_bind_of_ok _ pg1, except_bind_of_ok _ pg2,
    except_bind_of_ok _ pf, except_bind_of_ok _ pdf]

/-- On canonical coordinates the chain completes when both denominators are invertible, and raises NoInverse when one
is not. -/
theorem edChain_cases :
    let df := edProduct c (val c.fd.base x1) (val c.fd.base y1) (val c.fd.base x2) (val c.fd.base y2)
    ((1 + df) % c.fd.p ≠ 0 ∧ (1 - df) % c.fd.p ≠ 0 → ∃ ch, edChain c x1 y1 x2 y2 = .ok ch) ∧
      (¬ ((1 + df) % c.fd.p ≠ 0 ∧ (1 - df) % c.fd.p ≠ 0) → edChain c x1 y1 x2 y2 = .error .noInverse) := by
  intro df
  obtain ⟨x3num, y3num, dfr, answer, heq, hx, hy, hd, hdf⟩ := edChain_eq_divisions hx1 hy1 hx2 hy2
  obtain ⟨okP, failP⟩ := populate_denP hx hd
  obtain ⟨okM, failM⟩ := populate_denM hy hd
  have hplus : (1 + df) % c.fd.p = 0 ↔ 1 + residue c dfr.res = 0 := by
    rw [emod_eq_zero_iff_cast, hdf]; push_cast; rfl
  have hminus : (1 - df) % c.fd.p = 0 ↔ 1 - residue c dfr.res = 0 := by
    rw [emod_eq_zero_iff_cast, hdf]; push_cast; rfl
  rw [Ne, Ne, hplus, hminus, heq]
  refine ⟨fun ⟨hP, hM⟩ => ?_, fun h => ?_⟩
  · obtain ⟨x3, hx3⟩ := okP hP
    obtain ⟨y3, hy3⟩ := okM hM
    exact ⟨answer x3 y3, by rw [hx3, hy3]; rfl⟩
  · by_cases hP : 1 + residue c dfr.res = 0
    · rw [failP hP]; rfl
    · obtain ⟨x3, hx3⟩ := okP hP
      have hM : 1 - residue c dfr.res = 0 := by tauto
      rw [hx3, failM hM]; rfl

end

/-- The results of a chain that completed. -/
def EdChain.results (ch : EdChain) : ChainResults where
  x3num := ch.x3num.res
  y3num := ch.y3num.res
  g1 := ch.g1.res
  g2 := ch.g2.res
  f := ch.f.res
  df := ch.df.res
  x3 := ch.x3.res
  y3 := ch.y3.res

/-- A chain that completed holds unit by unit, and its sum is canonical. -/
theorem edChain_hold {c : Config} {x1 y1 x2 y2 : List Nat} {ch : EdChain} (h : edChain c x1 y1 x2 y2 = .ok ch) :
    ch.results.Hold c x1 y1 x2 y2 ∧ CanonicalLimbs c.fd ch.x3.res ∧ CanonicalLimbs c.fd ch.y3.res := by
  obtain ⟨hx3num, hy3num, hg1, hg2, hf, hdf, hx3, hy3⟩ := edChain_eq_ok h
  have ⟨hxcan, hx⟩ := unitHolds_of_populate (pair_fits rfl _) hx3
  have ⟨hycan, hy⟩ := unitHolds_of_populate (pair_fits rfl _) hy3
  exact ⟨⟨(unitHolds_of_populate (ip_two_fits _ _) hx3num).2, (unitHolds_of_populate (ip_two_fits _ _) hy3num).2,
    (unitHolds_of_populate (pair_fits rfl _) hg1).2, (unitHolds_of_populate (pair_fits rfl _) hg2).2,
    (unitHolds_of_populate (pair_fits rfl _) hf).2, (unitHolds_of_populate (pair_fits rfl _) hdf).2, hx, hy⟩,
    hxcan, hycan⟩

/-! ### The curve (R188) -/

/-- The sum of two points of `-x^2 + y^2 = 1 + d·x^2·y^2` by the addition formulas is a point of it. -/
theorem curve_closed {F : Type} [Field F] {d x1 y1 x2 y2 x3 y3 t : F} (h1 : -x1 ^ 2 + y1 ^ 2 = 1 + d * x1 ^ 2 * y1 ^ 2)
    (h2 : -x2 ^ 2 + y2 ^ 2 = 1 + d * x2 ^ 2 * y2 ^ 2) (ht : t = d * (x1 * x2 * (y1 * y2)))
    (hx : x3 * (1 + t) = x1 * y2 + x2 * y1) (hy : y3 * (1 - t) = y1 * y2 + x1 * x2) (hplus : 1 + t ≠ 0)
    (hminus : 1 - t ≠ 0) : -x3 ^ 2 + y3 ^ 2 = 1 + d * x3 ^ 2 * y3 ^ 2 := by
  refine mul_left_cancel₀ (pow_ne_zero 2 (mul_ne_zero hplus hminus)) ?_
  -- with the denominators cleared, both sides are polynomials in the two sides of `h1` and of `h2`
  have cleared : -(x1 * y2 + x2 * y1) ^ 2 * (1 - t) ^ 2 + (y1 * y2 + x1 * x2) ^ 2 * (1 + t) ^ 2 =
      ((1 + t) * (1 - t)) ^ 2 + d * (x1 * y2 + x2 * y1) ^ 2 * (y1 * y2 + x1 * x2) ^ 2 := by
    subst ht
    linear_combination
      ((-x2 ^ 2 + y2 ^ 2) * (1 + (d * (x1 * x2 * (y1 * y2))) ^ 2) -
        d * x2 ^ 2 * y2 ^ 2 * (-x1 ^ 2 + y1 ^ 2 + 1 + d * x1 ^ 2 * y1 ^ 2)) * h1 +
      ((1 + d * x1 ^ 2 * y1 ^ 2) * (1 + (d * (x1 * x2 * (y1 * y2))) ^ 2) -
        d * x1 ^ 2 * y1 ^ 2 * (-x2 ^ 2 + y2 ^ 2 + 1 + d * x2 ^ 2 * y2 ^ 2)) * h2
  rw [← hx, ← hy] at cleared
  linear_combination cleared

theorem onCurve_iff (c : Config) (x y : Nat) :
    OnCurve c x y ↔ -(x : ZMod c.fd.p) ^ 2 + (y : ZMod c.fd.p) ^ 2 =
      1 + (c.edD : ZMod c.fd.p) * (x : ZMod c.fd.p) ^ 2 * (y : ZMod c.fd.p) ^ 2 := by
  rw [OnCurve, emod_eq_zero_iff_cast]
  push_cast
  exact sub_eq_zero

/-- The addition formulas keep points on the curve when both denominators are invertible. -/
theorem EdSum.onCurve {c : Config} {x1 y1 x2 y2 x3 y3 : Nat} (h : EdSum c x1 y1 x2 y2 x3 y3)
    (h1 : OnCurve c x1 y1) (h2 : OnCurve c x2 y2) (hplus : (1 + edProduct c x1 y1 x2 y2) % c.fd.p ≠ 0)
    (hminus : (1 - edProduct c x1 y1 x2 y2) % c.fd.p ≠ 0) : OnCurve c x3 y3 := by
  have : Fact c.fd.p.Prime := ⟨c.wellFormed.primeP⟩
  obtain ⟨hx, hy⟩ := h
  rw [Ne, emod_eq_zero_iff_cast] at hplus hminus
  rw [emod_eq_zero_iff_cast] at hx hy
  rw [onCurve_iff] at h1 h2 ⊢
  push_cast at hx hy hplus hminus
  refine curve_closed h1 h2 (t := (edProduct c x1 y1 x2 y2 : Int)) ?_ (sub_eq_zero.mp hx) (sub_eq_zero.mp hy)
    hplus hminus
  rw [edProduct]
  push_cast
  rfl

end Sys2Proof.Machine
end

section
/-! PROOFS. 42_edadd.md, section 1: EDADD, when it is refused (R180), where it faults (R187), and what it leaves when it
completes (R181 to R186, R188). -/

namespace Sys2Proof.Machine

open Claims

/-! ### Refusal (R180, 43_perm.md R222) -/

theorem conclude_ne_refused (port : Port) (a : Attempt Response) (r : Refusal) : conclude port a ≠ .refused r := by
  cases a <;> simp [conclude]

theorem exec_edadd_refused_iff {s : State} (hk : s.fstat.kind = .none) :
    (∃ r, exec .edadd s = .refused r) ↔ edRefusal s ≠ none := by
  change (∃ r, execEdadd s = .refused r) ↔ _
  rw [execEdadd, unlessFaulted_of_clear hk]
  cases edRefusal s with
  | none => simp [conclude_ne_refused]
  | some r => simp

theorem exec_perm_refused_iff {s : State} (hk : s.fstat.kind = .none) :
    (∃ r, exec .perm s = .refused r) ↔ permRefusal s ≠ none := by
  change (∃ r, execPerm s = .refused r) ↔ _
  rw [execPerm, unlessFaulted_of_clear hk]
  cases permRefusal s with
  | none => simp [conclude_ne_refused]
  | some r => simp

theorem clockWouldOverflow_iff (s : State) (n : Nat) :
    clockWouldOverflow s n = true ↔ 2 ^ 32 - 1 < s.clk.toNat + n := by
  simp [clockWouldOverflow]

theorem pastTop_iff (ptr : Word) (n : Nat) :
    pastTop ptr n = true ↔ ptr.toNat % 4 = 0 ∧ 2 ^ 32 - 4 < ptr.toNat + 4 * (n - 1) := by
  simp [pastTop, aligned_iff]

theorem ite_some_ne_none_iff {α : Type} {P : Prop} [Decidable P] (a : α) (o : Option α) :
    (if P then some a else o) ≠ none ↔ P ∨ o ≠ none := by
  split <;> simp [*]

theorem edRefusal_ne_none_iff (s : State) : edRefusal s ≠ none ↔
    s.cfg.hasEd = false ∨ s.sealedEd = true ∨ 2 ^ 32 - 1 < s.clk.toNat + 48 ∨
      ((pointerA s).toNat % 4 = 0 ∧ 2 ^ 32 - 4 < (pointerA s).toNat + 60) ∨
      ((pointerB s).toNat % 4 = 0 ∧ 2 ^ 32 - 4 < (pointerB s).toNat + 60) := by
  simp only [edRefusal, ite_some_ne_none_iff, clockWouldOverflow_iff, pastTop_iff, Bool.not_eq_true, ne_eq,
    not_true_eq_false, or_false]

theorem permRefusal_ne_none_iff (s : State) : permRefusal s ≠ none ↔
    s.cfg.hasPerm = false ∨ s.sealedPerm = true ∨ 2 ^ 32 - 1 < s.clk.toNat + 2 * s.cfg.permN * s.cfg.permRounds ∨
      ((pointerA s).toNat % 4 = 0 ∧ 2 ^ 32 - 4 < (pointerA s).toNat + 4 * (s.cfg.permN - 1)) := by
  simp only [permRefusal, ite_some_ne_none_iff, clockWouldOverflow_iff, pastTop_iff, Bool.not_eq_true, ne_eq,
    not_true_eq_false, or_false]

/-- Settles O35: each refusal is a chain of tests, and what runs after it refuses nothing. -/
theorem guestCommandsAreRefusedExactlyWhenTheSpecSays :
    Obligations.GuestCommandsAreRefusedExactlyWhenTheSpecSays := by
  unfold Obligations.GuestCommandsAreRefusedExactlyWhenTheSpecSays
  exact fun s hk => ⟨(exec_edadd_refused_iff hk).trans (edRefusal_ne_none_iff s),
    (exec_perm_refused_iff hk).trans (permRefusal_ne_none_iff s)⟩

theorem edRefusal_eq_none_iff (s : State) : edRefusal s = none ↔
    s.cfg.hasEd = true ∧ s.sealedEd = false ∧ s.clk.toNat + 48 < 2 ^ 32 ∧ FitsIfAligned (pointerA s) 16 ∧
      FitsIfAligned (pointerB s) 16 := by
  rw [← not_ne_iff, edRefusal_ne_none_iff]
  simp only [not_or, Bool.not_eq_false, Bool.not_eq_true, FitsIfAligned]
  constructor
  all_goals
    rintro ⟨hEd, hsealed, hclk, hA, hB⟩
    exact ⟨hEd, hsealed, by omega, by omega, by omega⟩

/-! ### The invocation (R181 to R185) -/

/-- The 16 words of the P region. -/
def pWords (s : State) : List Word := wordsAt s.mem (pointerA s) 16

/-- The 16 words of the Q region. -/
def qWords (s : State) : List Word := wordsAt s.mem (pointerB s) 16

/-- The event of a completed EDADD, with the schedule of records of R186. -/
def edScheduledEvent (s : State) (ch : EdChain) : EdAddEvent where
  clock := s.clk
  pPtr := pointerA s
  p := pWords s
  qPtr := pointerB s
  q := qWords s
  pReadRecords := (List.range 16).map (fun i =>
    { address := regionAddr (pointerA s) i, clock := clockAt s.clk i
      priorValue := (pWords s).getD i 0, newValue := (pWords s).getD i 0 })
  qReadRecords := (List.range 16).map (fun i =>
    { address := regionAddr (pointerB s) i, clock := clockAt s.clk (16 + i)
      priorValue := (qWords s).getD i 0, newValue := (qWords s).getD i 0 })
  pWriteRecords := (List.range 16).map (fun i =>
    { address := regionAddr (pointerA s) i, clock := clockAt s.clk (32 + i)
      priorValue := (pWords s).getD i 0, newValue := (edResultWords s.cfg ch).getD i 0 })

/-- The state a completed EDADD leaves. -/
def edCompleted (s : State) (ch : EdChain) : State :=
  { answered .guest .completed s with
    mem := storeWords (edResultWords s.cfg ch) (pointerA s) s.mem
    clk := s.clk + 48
    mrb := []
    logEd := s.logEd ++ [edScheduledEvent s ch] }

theorem exec_edadd_of_open {s : State} (h : EdOpen s) (hA : FitsIfAligned (pointerA s) 16)
    (hB : FitsIfAligned (pointerB s) 16) :
    exec .edadd s = conclude .guest (edInvocation { s with mrb := [] }) := by
  obtain ⟨hk, hEd, hsealed, hclk⟩ := h
  change execEdadd s = _
  rw [execEdadd, unlessFaulted_of_clear hk, (edRefusal_eq_none_iff s).mpr ⟨hEd, hsealed, hclk, hA, hB⟩]

/-- The first access faults on a misaligned P (R187). -/
theorem edInvocation_misaligned_p {s : State} (hA : aligned (pointerA s) = false) :
    edInvocation s = .fault (.alignmentError (pointerA s)) s := by
  simp [edInvocation, readWords_misaligned _ _ s hA]

/-- The seventeenth access faults on a misaligned Q (R187). -/
theorem edInvocation_misaligned_q {s : State} (hA : aligned (pointerA s) = true) (hB : aligned (pointerB s) = false) :
    edInvocation s = .fault (.alignmentError (pointerB s))
      { s with mrb := s.mrb ++ readRecords s.mem 16 (pointerA s) s.clk, clk := s.clk + 16 } := by
  simp [edInvocation, readWords_aligned _ _ s hA, readWords_misaligned _ _ _ hB]

/-- An event splits 48 records by their access. -/
theorem edEvent_append (c0 pPtr qPtr : Word) (pw qw : List Word) {pr qr wr : List MemoryRecord} (hp : pr.length = 16)
    (hq : qr.length = 16) (hw : wr.length = 16) :
    edEvent c0 pPtr pw qPtr qw (pr ++ qr ++ wr) =
      { clock := c0, pPtr := pPtr, p := pw, qPtr := qPtr, q := qw
        pReadRecords := pr, qReadRecords := qr, pWriteRecords := wr } := by
  have hpq : (pr ++ qr).length = 32 := by simp [hp, hq]
  rw [edEvent, List.drop_left' hpq, List.append_assoc, List.take_left' hp, List.drop_left' hp, List.take_left' hq,
    List.take_of_length_le hw.le]

section

variable {s : State} (hA : RegionFits (pointerA s) 16) (hB : RegionFits (pointerB s) 16)
include hA hB

/-- A defect of the datapath is raised after the reads (R187). -/
theorem edInvocation_defect {d : DefectCause} (h : edSum s.cfg (pWords s) (qWords s) = .error d) :
    ∃ recs, edInvocation s = .fault (.arithmeticDefect d) { s with mrb := recs, clk := s.clk + 32 } := by
  rw [pWords, qWords] at h
  simp only [edInvocation, readWords_aligned _ _ _ hA.aligned, readWords_aligned _ _ _ hB.aligned,
    readRecords_newValues _ hA, readRecords_newValues _ hB, h, BitVec.add_assoc]
  exact ⟨_, rfl⟩

theorem edEvent_schedule (ch : EdChain) :
    edEvent s.clk (pointerA s) (pWords s) (pointerB s) (qWords s)
      (readRecords s.mem 16 (pointerA s) s.clk ++ readRecords s.mem 16 (pointerB s) (s.clk + 16) ++
        writeRecords (edResultWords s.cfg ch) (pointerA s) (s.clk + 32) s.mem) = edScheduledEvent s ch := by
  have hclock (k i : Nat) : clockAt (s.clk + BitVec.ofNat 32 k) i = clockAt s.clk (k + i) := by
    rw [clockAt, clockAt, BitVec.add_assoc, BitVec.ofNat_add]
  rw [edEvent_append _ _ _ _ _ (by simp) (by simp) (by simp), readRecords_eq_map _ hA, readRecords_eq_map _ hB,
    writeRecords_eq_map _ hA (edResultWords_length _ _)]
  simp only [edScheduledEvent, pWords, qWords, ← hclock]
  rfl

theorem edInvocation_completes {ch : EdChain} (h : edSum s.cfg (pWords s) (qWords s) = .ok ch) (hmrb : s.mrb = []) :
    edInvocation s = .ok .completed
      { s with
        mem := storeWords (edResultWords s.cfg ch) (pointerA s) s.mem
        clk := s.clk + 48
        mrb := []
        logEd := s.logEd ++ [edScheduledEvent s ch] } := by
  rw [← edEvent_schedule hA hB, pWords, qWords]
  rw [pWords, qWords] at h
  simp only [edInvocation, readWords_aligned _ _ _ hA.aligned, readWords_aligned _ _ _ hB.aligned,
    readRecords_newValues _ hA, readRecords_newValues _ hB, h, writeWords_aligned _ _ _ hA.aligned, hmrb,
    BitVec.add_assoc, List.nil_append, List.append_assoc, edResultWords_length]
  rfl

end

/-! ### What EDADD answers (R181 to R188) -/

theorem exec_edadd_misaligned_p {s : State} (h : EdOpen s) (hA : aligned (pointerA s) = false)
    (hB : FitsIfAligned (pointerB s) 16) : exec .edadd s = .next (misaligned .guest (pointerA s) s) := by
  rw [exec_edadd_of_open h (fun ha => absurd ha ((aligned_eq_false_iff _).mp hA)) hB,
    edInvocation_misaligned_p (s := { s with mrb := [] }) hA]
  rfl

theorem exec_edadd_misaligned_q {s : State} (h : EdOpen s) (hA : RegionFits (pointerA s) 16)
    (hB : aligned (pointerB s) = false) :
    exec .edadd s = .next (misaligned .guest (pointerB s) { s with clk := s.clk + 16 }) := by
  rw [exec_edadd_of_open h (fun _ => hA.2) (fun hb => absurd hb ((aligned_eq_false_iff _).mp hB)),
    edInvocation_misaligned_q (s := { s with mrb := [] }) hA.aligned hB]
  rfl

theorem exec_edadd_defect {s : State} (h : EdReady s) {d : DefectCause}
    (hsum : edSum s.cfg (pWords s) (qWords s) = .error d) :
    exec .edadd s = .next (defected .guest d { s with clk := s.clk + 32 }) := by
  obtain ⟨hopen, hA, hB⟩ := h
  obtain ⟨recs, hrun⟩ := edInvocation_defect (s := { s with mrb := [] }) hA hB hsum
  rw [exec_edadd_of_open hopen (fun _ => hA.2) (fun _ => hB.2), hrun]
  rfl

theorem exec_edadd_completes {s : State} (h : EdReady s) {ch : EdChain}
    (hsum : edSum s.cfg (pWords s) (qWords s) = .ok ch) : exec .edadd s = .next (edCompleted s ch) := by
  obtain ⟨hopen, hA, hB⟩ := h
  rw [exec_edadd_of_open hopen (fun _ => hA.2) (fun _ => hB.2),
    edInvocation_completes (s := { s with mrb := [] }) hA hB hsum rfl]
  rfl

/-- An EDADD that ends without a fault was ready, had a sum, and completed. -/
theorem exec_edadd_next {s t : State} (h : exec .edadd s = .next t) (hk : t.fstat.kind = .none) :
    EdReady s ∧ ∃ ch, edSum s.cfg (pWords s) (qWords s) = .ok ch ∧ t = edCompleted s ch := by
  have faulted {u : State} (hexec : exec .edadd s = .next u) (hu : u.fstat.kind ≠ .none) : False := by
    rw [hexec] at h
    cases h
    exact hu hk
  obtain ⟨hks, -⟩ := unlessFaulted_next h
  have hnone : edRefusal s = none := by
    by_contra hne
    obtain ⟨r, hr⟩ := (exec_edadd_refused_iff hks).mpr hne
    rw [hr] at h
    cases h
  obtain ⟨hEd, hsealed, hclk, hA, hB⟩ := (edRefusal_eq_none_iff s).mp hnone
  have hopen : EdOpen s := ⟨hks, hEd, hsealed, hclk⟩
  cases ha : aligned (pointerA s) with
  | false => exact (faulted (exec_edadd_misaligned_p hopen ha hB) FaultKind.noConfusion).elim
  | true =>
    have ha' := (aligned_iff _).mp ha
    have hfitA : RegionFits (pointerA s) 16 := ⟨ha', hA ha'⟩
    cases hb : aligned (pointerB s) with
    | false => exact (faulted (exec_edadd_misaligned_q hopen hfitA hb) FaultKind.noConfusion).elim
    | true =>
      have hb' := (aligned_iff _).mp hb
      have hready : EdReady s := ⟨hopen, hfitA, hb', hB hb'⟩
      cases hsum : edSum s.cfg (pWords s) (qWords s) with
      | error d => exact (faulted (exec_edadd_defect hready hsum) FaultKind.noConfusion).elim
      | ok ch =>
        rw [exec_edadd_completes hready hsum] at h
        cases h
        exact ⟨hready, ch, rfl, rfl⟩

/-- Settles O33: a completed EDADD ran in a ready engine, and memory holds the words its write records name. -/
theorem edaddEmitsTheScheduleOfRecords : Obligations.EdaddEmitsTheScheduleOfRecords := by
  unfold Obligations.EdaddEmitsTheScheduleOfRecords
  intro s t h hk
  obtain ⟨⟨-, hA, -⟩, ch, -, rfl⟩ := exec_edadd_next h hk
  refine ⟨edScheduledEvent s ch, rfl, rfl, rfl, rfl, rfl, rfl, rfl, rfl, rfl, rfl, ?_⟩
  refine List.map_congr_left fun i hi => ?_
  have hnew := storeWords_readWord_inside (edResultWords s.cfg ch) (pointerA s) s.mem i
    (by rw [edResultWords_length]; exact hA.2) (by rw [edResultWords_length]; exact List.mem_range.mp hi)
  rw [← hnew]
  rfl

/-! ### The sum of the coordinates in memory (R182, R183, R187) -/

/-- The coordinates in memory, as the limb vectors of the datapath. -/
theorem coords_eq (s : State) : coords s =
    (val s.cfg.fd.base (pointX s.cfg (pWords s)), val s.cfg.fd.base (pointY s.cfg (pWords s)),
      val s.cfg.fd.base (pointX s.cfg (qWords s)), val s.cfg.fd.base (pointY s.cfg (qWords s))) := by
  obtain ⟨hx1, hy1⟩ := val_point_wordsAt s.cfg s.mem (pointerA s)
  obtain ⟨hx2, hy2⟩ := val_point_wordsAt s.cfg s.mem (pointerB s)
  rw [pWords, qWords, hx1, hy1, hx2, hy2, coords]

theorem edSum_of_canonicalCoords {s : State} (h : CanonicalCoords s) :
    edSum s.cfg (pWords s) (qWords s) = edChain s.cfg (pointX s.cfg (pWords s)) (pointY s.cfg (pWords s))
      (pointX s.cfg (qWords s)) (pointY s.cfg (qWords s)) := by
  rw [CanonicalCoords, coords_eq] at h
  rw [edSum, if_neg (by simpa using h)]

theorem edSum_of_not_canonicalCoords {s : State} (h : ¬ CanonicalCoords s) :
    edSum s.cfg (pWords s) (qWords s) = .error .nonCanonicalOperand := by
  simp only [CanonicalCoords, coords_eq, not_and_or, not_lt] at h
  rw [edSum, if_pos (by simpa using h)]

/-- On canonical coordinates the datapath has a sum or raises NoInverse, by the denominators in memory. -/
theorem edSum_cases {s : State} (h : CanonicalCoords s) :
    (DenominatorsInvertible s → ∃ ch, edSum s.cfg (pWords s) (qWords s) = .ok ch) ∧
      (¬ DenominatorsInvertible s → edSum s.cfg (pWords s) (qWords s) = .error .noInverse) := by
  rw [edSum_of_canonicalCoords h, DenominatorsInvertible, dfOf, coords_eq]
  rw [CanonicalCoords, coords_eq] at h
  obtain ⟨hx1, hy1, hx2, hy2⟩ := h
  obtain ⟨lx1, ly1⟩ := point_limbVector s.cfg (ws := pWords s) (wordsAt_length _ _ _)
  obtain ⟨lx2, ly2⟩ := point_limbVector s.cfg (ws := qWords s) (wordsAt_length _ _ _)
  exact edChain_cases (lx1.canonical hx1) (ly1.canonical hy1) (lx2.canonical hx2) (ly2.canonical hy2)

/-- Settles O34: the invocation ends at its first misaligned access, and the datapath, which runs after all reads, ends
in the defect of its check or of its divisions. -/
theorem edaddFaultPoints : Obligations.EdaddFaultPoints := by
  unfold Obligations.EdaddFaultPoints
  intro s hopen hA hB okA okB
  have ready (ha : okA) (hb : okB) : EdReady s := ⟨hopen, ⟨ha, hA ha⟩, ⟨hb, hB hb⟩⟩
  refine ⟨fun ha => ?_, fun ha hb => ?_, fun ha hb hcan => ?_, fun ha hb hcan hden => ?_⟩
  · exact exec_edadd_misaligned_p hopen ((aligned_eq_false_iff _).mpr ha) hB
  · exact exec_edadd_misaligned_q hopen ⟨ha, hA ha⟩ ((aligned_eq_false_iff _).mpr hb)
  · exact exec_edadd_defect (ready ha hb) (edSum_of_not_canonicalCoords hcan)
  · exact exec_edadd_defect (ready ha hb) ((edSum_cases hcan).2 hden)

/-- What a completed EDADD leaves in the P region: canonical coordinates that are the sum (R183, R184). -/
theorem edCompleted_sum {s : State} (h : EdReady s) (hcan : CanonicalCoords s) {ch : EdChain}
    (hsum : edSum s.cfg (pWords s) (qWords s) = .ok ch) :
    let x3 := fieldAt (edCompleted s ch).mem (pointerA s).toNat
    let y3 := fieldAt (edCompleted s ch).mem ((pointerA s).toNat + 32)
    x3 < s.cfg.fd.p ∧ y3 < s.cfg.fd.p ∧
      EdSum s.cfg (coords s).1 (coords s).2.1 (coords s).2.2.1 (coords s).2.2.2 x3 y3 := by
  obtain ⟨-, hA, -⟩ := h
  rw [edSum_of_canonicalCoords hcan] at hsum
  obtain ⟨hhold, hx, hy⟩ := edChain_hold hsum
  obtain ⟨ex, ey⟩ := points_edResultWords hx.limbVector hy.limbVector
  obtain ⟨mx, my⟩ := val_point_wordsAt s.cfg (edCompleted s ch).mem (pointerA s)
  have hwords : wordsAt (edCompleted s ch).mem (pointerA s) 16 = edResultWords s.cfg ch :=
    wordsAt_storeWords s.mem hA (edResultWords_length _ _)
  rw [hwords, ex] at mx
  rw [hwords, ey] at my
  rw [← mx, ← my, coords_eq]
  exact ⟨hx.val_lt, hy.val_lt, hhold.edSum⟩

/-- Settles O32: the chain has a sum, which is stored over P after both regions have been read. -/
theorem edaddWritesTheSumOverP : Obligations.EdaddWritesTheSumOverP := by
  unfold Obligations.EdaddWritesTheSumOverP
  intro s hready hcan hden p a
  obtain ⟨ch, hsum⟩ := (edSum_cases hcan).1 hden
  obtain ⟨hx, hy, hx3, hy3⟩ := edCompleted_sum hready hcan hsum
  have ⟨_, hA, _⟩ := hready
  refine ⟨edCompleted s ch, edScheduledEvent s ch, exec_edadd_completes hready hsum, rfl, hx, hy, hx3, hy3,
    fun b hb => ?_⟩
  have hlen := edResultWords_length s.cfg ch
  exact storeWords_readByte_outside _ _ _ b (by rw [hlen]; exact hA.2) (by rw [hlen]; exact hb)

/-- Settles O37: what is stored meets the addition formulas, which keep points on the curve. -/
theorem edaddStaysOnTheCurve : Obligations.EdaddStaysOnTheCurve := by
  unfold Obligations.EdaddStaysOnTheCurve
  intro s hready hcan hden h1 h2
  obtain ⟨ch, hsum⟩ := (edSum_cases hcan).1 hden
  obtain ⟨-, -, hformulas⟩ := edCompleted_sum hready hcan hsum
  obtain ⟨hplus, hminus⟩ := hden
  exact ⟨edCompleted s ch, exec_edadd_completes hready hsum, hready.1.1, hformulas.onCurve h1 h2 hplus hminus⟩

/-! ### The neutral point (R188, R53) -/

/-- The words of `(0, 1)`. -/
def neutralWords : List Word := [0, 0, 0, 0, 0, 0, 0, 0, 1, 0, 0, 0, 0, 0, 0, 0]

theorem val_point_neutralWords (c : Config) :
    val c.fd.base (pointX c neutralWords) = 0 ∧ val c.fd.base (pointY c neutralWords) = 1 := by
  rw [pointX, pointY, val_wordsToLimbs, val_wordsToLimbs]
  exact ⟨rfl, rfl⟩

theorem eq_of_sub_emod_eq_zero {p x y : Nat} (hx : x < p) (hy : y < p) (h : ((x : Int) - y) % p = 0) : x = y :=
  (((Nat.modEq_iff_dvd).mpr (Int.dvd_of_emod_eq_zero h)).eq_of_lt_of_lt hy hx).symm

/-- A sum with `(0, 1)` is the other point. -/
theorem EdSum.neutral {c : Config} {x1 y1 x3 y3 : Nat} (h : EdSum c x1 y1 0 1 x3 y3) (hx1 : x1 < c.fd.p)
    (hy1 : y1 < c.fd.p) (hx3 : x3 < c.fd.p) (hy3 : y3 < c.fd.p) : x3 = x1 ∧ y3 = y1 := by
  obtain ⟨hx, hy⟩ := h
  exact ⟨eq_of_sub_emod_eq_zero hx3 hx1 (by simpa [edProduct] using hx),
    eq_of_sub_emod_eq_zero hy3 hy1 (by simpa [edProduct] using hy)⟩

section

variable {s : State} (hq : qWords s = neutralWords)
include hq

theorem coords_neutral :
    coords s = (fieldAt s.mem (pointerA s).toNat, fieldAt s.mem ((pointerA s).toNat + 32), 0, 1) := by
  obtain ⟨hx1, hy1⟩ := val_point_wordsAt s.cfg s.mem (pointerA s)
  obtain ⟨hx2, hy2⟩ := val_point_neutralWords s.cfg
  rw [coords_eq, hq, hx2, hy2, pWords, hx1, hy1]

/-- With `d_f = 0` both denominators are `1`. -/
theorem denominatorsInvertible_neutral : DenominatorsInvertible s := by
  have hp := three_le_p s.cfg
  have hone : (1 : Int) % s.cfg.fd.p = 1 := Int.emod_eq_of_lt (by omega) (by omega)
  simp [DenominatorsInvertible, dfOf, coords_neutral hq, edProduct, hone]

end

/-- Regions that hold the same two field elements hold the same words. -/
theorem wordsAt_ext (c : Config) {m m' : Memory} {ptr : Word} (hx : fieldAt m ptr.toNat = fieldAt m' ptr.toNat)
    (hy : fieldAt m (ptr.toNat + 32) = fieldAt m' (ptr.toNat + 32)) : wordsAt m ptr 16 = wordsAt m' ptr 16 := by
  have hlen := wordsAt_length m ptr 16
  have hlen' := wordsAt_length m' ptr 16
  obtain ⟨vx, vy⟩ := val_point_wordsAt c m ptr
  obtain ⟨vx', vy'⟩ := val_point_wordsAt c m' ptr
  obtain ⟨lx, ly⟩ := point_limbVector c hlen
  obtain ⟨lx', ly'⟩ := point_limbVector c hlen'
  rw [← limbsToWords_point c hlen, ← limbsToWords_point c hlen',
    limbVector_ext lx lx' (vx.trans (hx.trans vx'.symm)), limbVector_ext ly ly' (vy.trans (hy.trans vy'.symm))]

/-- Settles O36: the formulas with `(0, 1)` give back P's coordinates, so the words stored are those that stood
there. -/
theorem edaddWithTheNeutralPointKeepsP : Obligations.EdaddWithTheNeutralPointKeepsP := by
  unfold Obligations.EdaddWithTheNeutralPointKeepsP
  intro s hready hx1 hy1 hq
  have hp := three_le_p s.cfg
  have hcan : CanonicalCoords s := by
    rw [CanonicalCoords, coords_neutral hq]
    exact ⟨hx1, hy1, (by omega : 0 < s.cfg.fd.p), (by omega : 1 < s.cfg.fd.p)⟩
  obtain ⟨ch, hsum⟩ := (edSum_cases hcan).1 (denominatorsInvertible_neutral hq)
  obtain ⟨hx3, hy3, hformulas⟩ := edCompleted_sum hready hcan hsum
  rw [coords_neutral hq] at hformulas
  obtain ⟨ex, ey⟩ := hformulas.neutral hx1 hy1 hx3 hy3
  have ⟨⟨hk, _⟩, hA, _⟩ := hready
  have hwords : edResultWords s.cfg ch = pWords s :=
    (wordsAt_storeWords s.mem hA (edResultWords_length _ _)).symm.trans (wordsAt_ext s.cfg ex ey)
  refine ⟨edCompleted s ch, edScheduledEvent s ch, exec_edadd_completes hready hsum, hk, fun b => ?_, rfl, hq⟩
  rw [edCompleted, hwords]
  exact readByte_storeWords_wordsAt s.mem hA b

end Sys2Proof.Machine
end

section
/-! PROOFS. 42_edadd.md, sections 2 and 3: what an ED row holds and stands for (R190, R191, R194), its constraints as
R192 writes them, and what they force; and the records a PERM row stands for (43_perm.md R234). -/

namespace Sys2Proof.Machine

open Claims

/-! ### The fields of a row (R190) -/

/-- Settles O45: a populated row is filled by the layout, and the view of a filled row is what filled it. -/
theorem edRowHoldsTheEventAtItsOffsets : Obligations.EdRowHoldsTheEventAtItsOffsets := by
  unfold Obligations.EdRowHoldsTheEventAtItsOffsets
  intro c e row hp hq hw h
  obtain ⟨ch, hch, rfl, hlt⟩ := edRow_eq_ok h
  have hsized := edFill_sized (e := e) hch
  obtain ⟨exp, eyp, exq, eyq, exn, eyn⟩ := edFill_row_points (c := c) (ch := ch) hp hq (by rwa [List.length_map])
  exact ⟨EdFill.cells_length hsized, hlt, ch, _, hch, EdFill.ofCells_cells hsized, rfl, rfl, rfl, exp, eyp, exq, eyq,
    exn, eyn, rfl, rfl, rfl, rfl, rfl, rfl, rfl, rfl⟩

/-- Settles O48: the row of zeros is a filled row. -/
theorem allZeroEdRowPasses : Obligations.AllZeroEdRowPasses := by
  unfold Obligations.AllZeroEdRowPasses
  exact edVerdict_zeros

/-! ### The records a row stands for (R194, 43_perm.md R234) -/

theorem ofNat_toNat_add (a : Word) (k : Nat) : BitVec.ofNat 32 (a.toNat + k) = a + BitVec.ofNat 32 k := by
  rw [BitVec.ofNat_add, BitVec.ofNat_toNat, BitVec.setWidth_eq]

/-- The records of the row of an event, by the words the event holds. -/
theorem records_edFill {c : Config} {e : EdAddEvent} {ch : EdChain} (hp : e.p.length = 16) (hq : e.q.length = 16)
    (hw : (e.pWriteRecords.map (·.newValue)).length = 16) :
    (edFill c e ch).row.records c =
      (List.range 16).map (fun i =>
        { address := regionAddr e.pPtr i, clock := clockAt e.clock i
          priorValue := e.p.getD i 0, newValue := e.p.getD i 0 }) ++
      (List.range 16).map (fun i =>
        { address := regionAddr e.qPtr i, clock := clockAt e.clock (16 + i)
          priorValue := e.q.getD i 0, newValue := e.q.getD i 0 }) ++
      (List.range 16).map (fun i =>
        { address := regionAddr e.pPtr i, clock := clockAt e.clock (32 + i)
          priorValue := e.p.getD i 0, newValue := (e.pWriteRecords.map (·.newValue)).getD i 0 }) := by
  obtain ⟨exp, eyp, exq, eyq, exn, eyn⟩ := edFill_row_points (c := c) (ch := ch) hp hq hw
  have hclk : (edFill c e ch).row.clk = e.clock.toNat := rfl
  have hpp : (edFill c e ch).row.pPtr = e.pPtr.toNat := rfl
  have hqp : (edFill c e ch).row.qPtr = e.qPtr.toNat := rfl
  simp only [EdRow.records, exp, eyp, exq, eyq, exn, eyn, limbsToWords_point c hp, limbsToWords_point c hq,
    limbsToWords_point c hw, hclk, hpp, hqp, Nat.add_assoc, ofNat_toNat_add, Nat.zero_add, regionAddr, clockAt]

theorem records_of_honest {c : Config} {e : EdAddEvent} {row : List Nat} (he : e.Honest c) (h : edRow c e = .ok row) :
    ∃ r, EdRow.ofCells c row = some r ∧ r.records c = e.pReadRecords ++ e.qReadRecords ++ e.pWriteRecords := by
  obtain ⟨-, -, -, -, hp, hq, hpr, hqr, ch, -, hwr⟩ := he
  obtain ⟨ch', hch, rfl, -⟩ := edRow_eq_ok h
  refine ⟨_, EdFill.ofCells_cells (edFill_sized hch), ?_⟩
  rw [records_edFill hp hq (by simp [hwr]), ← hpr, ← hqr]
  congr 1
  rw [hwr, List.map_map]
  refine List.map_congr_left fun i hi => ?_
  rw [getD_map_range _ _ (List.mem_range.mp hi)]
  rfl

/-- The records of the row of round `r` of a PERM from state `v`. -/
theorem records_ofRound (c : Config) (clock ptr : Word) (v : List Nat) {r : Nat} (hr : r < c.permRounds) :
    (PermRow.ofRound c clock.toNat ptr.toNat v r).records c =
      (permReadRecords c ptr clock v).getD r [] ++ (permWriteRecords c ptr clock v).getD r [] := by
  rw [permReadRecords, permWriteRecords, getD_map_range _ _ hr, getD_map_range _ _ hr]
  simp only [PermRow.records, PermRow.ofRound, Nat.add_assoc, ofNat_toNat_add, Nat.zero_add, regionAddr, clockAt]

theorem permRecords_of_honest {c : Config} {e : PermEvent} {k : Nat} {row : List Nat} (he : e.Honest c)
    (hk : k < c.permRounds) (h : permRow c e k = .ok row) :
    ∃ r, PermRow.ofCells c row = some r ∧ r.records c = e.stateReads.getD k [] ++ e.stateWrites.getD k [] := by
  obtain ⟨hPerm, -, -, v, hlen, hv, hreads, hwrites⟩ := he
  have canonical := permStateAfter_canonical hlen hv
  have hinp := map_roundWord hreads hk (canonical k).1 fun i _ => toNat_ofNat_canonical hPerm (canonical k).2
  have hout := map_roundWord hwrites hk (canonical (k + 1)).1
    fun i _ => toNat_ofNat_canonical hPerm (canonical (k + 1)).2
  exact ⟨_, ofCells_permRow h hinp hout, by rw [records_ofRound c e.clock e.statePtr v hk, hreads, hwrites]⟩

/-- Settles O47: the rows of honest events hold their words, pointers and clocks, from which the records are made. -/
theorem rowsStandForTheRecords : Obligations.RowsStandForTheRecords := by
  unfold Obligations.RowsStandForTheRecords
  exact ⟨fun c e row => records_of_honest, fun c e k row => permRecords_of_honest⟩

/-! ### The constraints (R192) -/

/-- The fields of a row of the chip's width have the sizes of R190. -/
structure EdRow.Sized (c : Config) (r : EdRow) : Prop where
  xp : r.xp.length = c.fd.numLimbs
  yp : r.yp.length = c.fd.numLimbs
  xq : r.xq.length = c.fd.numLimbs
  yq : r.yq.length = c.fd.numLimbs
  xn : r.xn.length = c.fd.numLimbs
  yn : r.yn.length = c.fd.numLimbs
  x3num : r.x3num.Sized c.fd
  y3num : r.y3num.Sized c.fd
  g1 : r.g1.Sized c.fd
  g2 : r.g2.Sized c.fd
  f : r.f.Sized c.fd
  df : r.df.Sized c.fd
  x3 : r.x3.Sized c.fd
  y3 : r.y3.Sized c.fd

theorem slice_length {off len : Nat} {row : List Nat} (h : off + len ≤ row.length) :
    (slice off len row).length = len := by
  rw [slice, List.length_take, List.length_drop]
  omega

theorem unitCellsAt_sized {c : Config} {row : List Nat} (hrow : row.length = c.edWidth) {k : Nat} (hk : k < 8) :
    (unitCellsAt c row k).Sized c.fd := by
  have hL := numLimbs_pos c
  have hG : c.fd.groupWidth = 4 * c.fd.numLimbs - 2 := rfl
  have hW : c.edWidth = 3 + 48 * c.limbsPerWord + 8 * c.fd.groupWidth := rfl
  have hgroup : (k + 1) * c.fd.groupWidth ≤ 8 * c.fd.groupWidth := Nat.mul_le_mul_right _ hk
  rw [Nat.succ_mul] at hgroup
  exact ⟨slice_length (by omega), slice_length (by omega), slice_length (by omega)⟩

/-- Eight words of a row are the limbs of one coordinate. -/
theorem flatMap_words_length {c : Config} {f : Nat → List Nat} (hf : ∀ i, i < 16 → (f i).length = c.limbsPerWord) :
    ((List.range 8).flatMap f).length = c.fd.numLimbs ∧
      (((List.range 8).map (· + 8)).flatMap f).length = c.fd.numLimbs := by
  rw [numLimbs_eq, Nat.mul_comm, List.flatMap_map]
  exact ⟨range_flatMap_length fun i hi => hf i (by omega), range_flatMap_length fun i hi => hf (i + 8) (by omega)⟩

theorem ofCells_sized {c : Config} {row : List Nat} {r : EdRow} (h : EdRow.ofCells c row = some r) : r.Sized c := by
  unfold EdRow.ofCells at h
  split at h
  next hrow =>
    have hW : c.edWidth = 3 + 48 * c.limbsPerWord + 8 * c.fd.groupWidth := rfl
    have inRow {i : Nat} (hi : i < 16) : c.limbsPerWord * i + c.limbsPerWord ≤ c.limbsPerWord * 16 :=
      Nat.mul_le_mul_left c.limbsPerWord hi
    obtain ⟨hxp, hyp⟩ := flatMap_words_length (f := pPrevCells c row) fun i hi =>
      slice_length (by have := inRow hi; rw [Nat.mul_assoc]; omega)
    obtain ⟨hxn, hyn⟩ := flatMap_words_length (f := pNewCells c row) fun i hi =>
      slice_length (by have := inRow hi; rw [Nat.mul_assoc]; omega)
    obtain ⟨hxq, hyq⟩ := flatMap_words_length (f := qValCells c row) fun i hi =>
      slice_length (by have := inRow hi; omega)
    have group {k : Nat} (hk : k < 8) := unitCellsAt_sized hrow hk
    cases h
    exact ⟨hxp, hyp, hxq, hyq, hxn, hyn, group (by decide), group (by decide), group (by decide), group (by decide),
      group (by decide), group (by decide), group (by decide), group (by decide)⟩
  next => cases h

theorem exists_ofCells {c : Config} {row : List Nat} (h : row.length = c.edWidth) :
    ∃ r, EdRow.ofCells c row = some r :=
  ⟨_, if_pos h⟩

theorem eq_iff_getD {a b : List Nat} {n : Nat} (ha : a.length = n) (hb : b.length = n) :
    a = b ↔ ∀ l, l < n → a.getD l 0 = b.getD l 0 := by
  constructor
  · rintro rfl l -
    rfl
  · intro h
    refine List.ext_getElem (ha.trans hb.symm) fun l hl hl' => ?_
    rw [← List.getD_eq_getElem a 0 hl, ← List.getD_eq_getElem b 0 hl']
    exact h l (ha ▸ hl)

/-- Eval of a row is (C1) to (C10) as R192 writes them. -/
theorem evalEdRow_iff {c : Config} {r : EdRow} (hr : r.Sized c) : evalEdRow c r = true ↔ EdConstraints c r := by
  have hL := numLimbs_pos c
  have hdl : (edDLimbs c).length = c.fd.numLimbs := limbs_length _ _ _
  have one {op : UnitOp} {a b : List Nat} {u : UnitCells} (hop : op.terms = 1) (ha : a.length = c.fd.numLimbs)
      (hb : b.length = c.fd.numLimbs) (hu : u.Sized c.fd) :
      unitPasses c.q c.fd op [(a, b)] u = true ↔ UnitConstraints c.q c.fd op [(a, b)] u :=
    unitPasses_iff hL (pair_fits hop _) (by simp [vectorsOf, ha, hb]) hu
  have two {a b a' b' : List Nat} {u : UnitCells} (ha : a.length = c.fd.numLimbs) (hb : b.length = c.fd.numLimbs)
      (ha' : a'.length = c.fd.numLimbs) (hb' : b'.length = c.fd.numLimbs) (hu : u.Sized c.fd) :
      unitPasses c.q c.fd (.ip 2) [(a, b), (a', b')] u = true ↔
        UnitConstraints c.q c.fd (.ip 2) [(a, b), (a', b')] u :=
    unitPasses_iff hL (ip_two_fits _ _) (by simp [vectorsOf, ha, hb, ha', hb']) hu
  simp only [evalEdRow, EdConstraints, Bool.and_eq_true, and_assoc, List.all_eq_true, decide_eq_true_eq,
    two hr.xp hr.yq hr.xq hr.yp hr.x3num, two hr.yp hr.yq hr.xp hr.xq hr.y3num, one (op := .mul) rfl hr.xp hr.yp hr.g1,
    one (op := .mul) rfl hr.xq hr.yq hr.g2, one (op := .mul) rfl hr.g1.1 hr.g2.1 hr.f,
    one (op := .mul) rfl hdl hr.f.1 hr.df, one (op := .denP) rfl hr.x3num.1 hr.df.1 hr.x3,
    one (op := .denM) rfl hr.y3num.1 hr.df.1 hr.y3, eq_iff_getD hr.x3.1 hr.xn, eq_iff_getD hr.y3.1 hr.yn,
    ← forall_and]

/-! ### EVAL (44_trace.md R267) -/

/-- EVAL ED at a row of the chip's width completes with the row's verdict. -/
theorem exec_eval_ed {s : State} {m : Matrix} {cur : List Nat} {r : EdRow} (hk : s.fstat.kind = .none)
    (hEd : s.cfg.hasEd = true) (hm : s.traceEd = some m) (hcur : m[s.operands.row]? = some cur)
    (hr : EdRow.ofCells s.cfg cur = some r) :
    exec (.eval .ed) s = .next (answered .host (.verdict (evalEdRow s.cfg r)) s) := by
  change execEval .ed s = _
  rw [execEval, unlessFaulted_of_clear hk, ifChip, if_pos (show hasChip s.cfg .ed = true from hEd)]
  simp only [evalCommand, hm, hcur, edVerdict, hr, Option.map_some]
  rfl

/-- Settles O56: the verdict of EVAL is that of the row, which is (C1) to (C10) since its fields have their sizes. -/
theorem evalEdReturnsTheConstraintVerdict : Obligations.EvalEdReturnsTheConstraintVerdict := by
  unfold Obligations.EvalEdReturnsTheConstraintVerdict
  intro s m cur hk hEd hm hcur hwidth
  obtain ⟨r, hr⟩ := exists_ofCells hwidth
  exact ⟨_, r, hr, exec_eval_ed hk hEd hm hcur hr, evalEdRow_iff (ofCells_sized hr)⟩

/-! ### Soundness (41_fp_units.md R146) -/

/-- In the ED chip a group that passes holds the result of its unit. -/
theorem unitHolds_of_passes {c : Config} {op : UnitOp} {ins : List LimbPair} {u : UnitCells} (hEd : c.hasEd = true)
    (hfit : op.Fits ins) (hins : ∀ v ∈ vectorsOf ins, LimbVector c.fd v) (hu : u.Sized c.fd)
    (h : unitPasses c.q c.fd op ins u = true) : LimbVector c.fd u.result ∧ UnitHolds c op ins u.result := by
  obtain ⟨hres, -⟩ := (unitPasses_iff (numLimbs_pos c) hfit (fun v hv => (hins v hv).1) hu).mp h
  exact ⟨⟨hu.1, hres⟩, _, unitEvalForcesTheIntegerIdentity c.q c.fd op ins u (unitOk_config c) hfit
    (noWrap_of_fits hEd hfit) hins hu h⟩

/-- The results of the eight groups of a row. -/
def EdRow.results (r : EdRow) : ChainResults where
  x3num := r.x3num.result
  y3num := r.y3num.result
  g1 := r.g1.result
  g2 := r.g2.result
  f := r.f.result
  df := r.df.result
  x3 := r.x3.result
  y3 := r.y3.result

/-- A row that passes holds a chain of eight units, whose last two results are the new words' limbs. -/
theorem results_hold {c : Config} {r : EdRow} (hEd : c.hasEd = true) (hr : r.Sized c) (h : evalEdRow c r = true) :
    r.results.Hold c r.xp r.yp r.xq r.yq ∧ r.x3.result = r.xn ∧ r.y3.result = r.yn := by
  have one {op : UnitOp} {a b : List Nat} {u : UnitCells} (hop : op.terms = 1) (ha : LimbVector c.fd a)
      (hb : LimbVector c.fd b) := unitHolds_of_passes (u := u) hEd (pair_fits hop (a, b)) (by simp [vectorsOf, ha, hb])
  have two {a b a' b' : List Nat} {u : UnitCells} (ha : LimbVector c.fd a) (hb : LimbVector c.fd b)
      (ha' : LimbVector c.fd a') (hb' : LimbVector c.fd b') :=
    unitHolds_of_passes (u := u) hEd (ip_two_fits (a, b) (a', b')) (by simp [vectorsOf, ha, hb, ha', hb'])
  simp only [evalEdRow, Bool.and_eq_true, and_assoc, List.all_eq_true, decide_eq_true_eq, List.forall_mem_cons] at h
  obtain ⟨bxp, byp, bxq, byq, -, -, -, px3num, py3num, pg1, pg2, pf, pdf, px3, py3, hxn, hyn⟩ := h
  have lxp : LimbVector c.fd r.xp := ⟨hr.xp, bxp⟩
  have lyp : LimbVector c.fd r.yp := ⟨hr.yp, byp⟩
  have lxq : LimbVector c.fd r.xq := ⟨hr.xq, bxq⟩
  have lyq : LimbVector c.fd r.yq := ⟨hr.yq, byq⟩
  have ldl := (edDLimbs_canonical c).limbVector
  obtain ⟨lx3num, hx3num⟩ := two lxp lyq lxq lyp hr.x3num px3num
  obtain ⟨ly3num, hy3num⟩ := two lyp lyq lxp lxq hr.y3num py3num
  obtain ⟨lg1, hg1⟩ := one (op := .mul) rfl lxp lyp hr.g1 pg1
  obtain ⟨lg2, hg2⟩ := one (op := .mul) rfl lxq lyq hr.g2 pg2
  obtain ⟨lf, hf⟩ := one (op := .mul) rfl lg1 lg2 hr.f pf
  obtain ⟨ldf, hdf⟩ := one (op := .mul) rfl ldl lf hr.df pdf
  obtain ⟨-, hx3⟩ := one (op := .denP) rfl lx3num ldf hr.x3 px3
  obtain ⟨-, hy3⟩ := one (op := .denM) rfl ly3num ldf hr.y3 py3
  exact ⟨⟨hx3num, hy3num, hg1, hg2, hf, hdf, hx3, hy3⟩, hxn, hyn⟩

/-- Settles O49: above the bound of R10(g) the eight groups are a chain over the integers, so their results are the
sum. -/
theorem edConstraintsForceTheSum : Obligations.EdConstraintsForceTheSum := by
  unfold Obligations.EdConstraintsForceTheSum
  intro c row r hEd hview heval
  obtain ⟨hhold, hxn, hyn⟩ := results_hold hEd (ofCells_sized hview) heval
  have hsum := hhold.edSum
  rw [EdRow.results, hxn, hyn] at hsum
  exact hsum

end Sys2Proof.Machine
end

section
/-! PROOFS. 43_perm.md, sections 1 and 2: the round function (R221), and PERM: where it faults (R226), and what it
leaves when it completes (R222, R224, R225, R227). -/

namespace Sys2Proof.Machine

open Claims

/-! ### The round function (R221) -/

/-- Settles O43: of either form `PermRound` is `N` reduced words, and the default form's are the sums of R221. -/
theorem permRoundIsTotalIntoCells : Obligations.PermRoundIsTotalIntoCells := by
  unfold Obligations.PermRoundIsTotalIntoCells
  intro c r v
  refine ⟨permRound_length c r v, permRound_lt c r v, fun deg m rc hform i hi => ?_⟩
  rw [permRound, hform, getD_map_range _ _ hi]
  rfl

/-! ### The schedule of one round (R225) -/

theorem clockAt_add_ofNat (c0 : Word) (a n : Nat) : clockAt c0 a + BitVec.ofNat 32 n = clockAt c0 (a + n) := by
  rw [clockAt, clockAt, BitVec.add_assoc, BitVec.ofNat_add]

/-- A run of reads gives the numbers that the region holds. -/
theorem readRecords_numbers (m : Memory) {n : Nat} {ptr : Word} (h : RegionFits ptr n) (clock : Word) :
    (readRecords m n ptr clock).map (fun r => r.newValue.toNat) = (wordsAt m ptr n).map BitVec.toNat := by
  rw [← readRecords_newValues m h clock, List.map_map]
  rfl

/-- The words a PERM from state `v` has in memory after `r` rounds. -/
def permWordsAfter (c : Config) (v : List Nat) (r : Nat) : List Word :=
  (permStateAfter c v r).map (BitVec.ofNat 32)

theorem permWordsAfter_succ (c : Config) (v : List Nat) (r : Nat) :
    permWordsAfter c v (r + 1) = (permRound c r (permStateAfter c v r)).map (BitVec.ofNat 32) := rfl

theorem permWordsAfter_getD (c : Config) (v : List Nat) (r i : Nat) :
    (permWordsAfter c v r).getD i 0 = BitVec.ofNat 32 ((permStateAfter c v r).getD i 0) :=
  List.getD_map (l := permStateAfter c v r) 0 (BitVec.ofNat 32)

/-- The read records of round `r`. -/
def permRoundReads (c : Config) (ptr c0 : Word) (v : List Nat) (r : Nat) : List MemoryRecord :=
  (List.range c.permN).map (fun i =>
    { address := regionAddr ptr i, clock := clockAt c0 (2 * c.permN * r + i)
      priorValue := BitVec.ofNat 32 ((permStateAfter c v r).getD i 0)
      newValue := BitVec.ofNat 32 ((permStateAfter c v r).getD i 0) })

/-- The write records of round `r`. -/
def permRoundWrites (c : Config) (ptr c0 : Word) (v : List Nat) (r : Nat) : List MemoryRecord :=
  (List.range c.permN).map (fun i =>
    { address := regionAddr ptr i, clock := clockAt c0 (2 * c.permN * r + c.permN + i)
      priorValue := BitVec.ofNat 32 ((permStateAfter c v r).getD i 0)
      newValue := BitVec.ofNat 32 ((permStateAfter c v (r + 1)).getD i 0) })

theorem permSchedule_eq_map (c : Config) (ptr c0 : Word) (v : List Nat) :
    permReadRecords c ptr c0 v = (List.range' 0 c.permRounds).map (permRoundReads c ptr c0 v) ∧
      permWriteRecords c ptr c0 v = (List.range' 0 c.permRounds).map (permRoundWrites c ptr c0 v) := by
  rw [← List.range_eq_range']
  exact ⟨rfl, rfl⟩

/-- `t` is `s` but for recorded accesses whose writes stay in the `n` words at `ptr`. -/
structure AccessedIn (ptr : Word) (n : Nat) (s t : State) : Prop where
  accessed : Accessed s t
  outside : ∀ b, b < ptr.toNat ∨ ptr.toNat + 4 * n ≤ b → t.mem.readByte b = s.mem.readByte b

theorem AccessedIn.refl (ptr : Word) (n : Nat) (s : State) : AccessedIn ptr n s s := ⟨.refl s, fun _ _ => rfl⟩

theorem AccessedIn.trans {ptr : Word} {n : Nat} {s t u : State} (hst : AccessedIn ptr n s t)
    (htu : AccessedIn ptr n t u) : AccessedIn ptr n s u :=
  ⟨hst.accessed.trans htu.accessed, fun b hb => (htu.outside b hb).trans (hst.outside b hb)⟩

/-- A PERM that began at clock `c0` with the words `v` stands before round `r`. -/
structure PermAtRound (c : Config) (ptr c0 : Word) (v : List Nat) (r : Nat) (s : State) : Prop where
  cfg : s.cfg = c
  clk : s.clk = clockAt c0 (2 * c.permN * r)
  words : wordsAt s.mem ptr c.permN = permWordsAfter c v r

/-- Canonical words that PERM runs on. -/
structure PermInput (c : Config) (ptr : Word) (v : List Nat) : Prop where
  hasPerm : c.hasPerm = true
  fits : RegionFits ptr c.permN
  length : v.length = c.permN
  canonical : ∀ x ∈ v, x < c.q

section

variable {c : Config} {ptr c0 : Word} {v : List Nat} {r : Nat} (hv : PermInput c ptr v)
include hv

theorem permWordsAfter_length : (permWordsAfter c v r).length = c.permN := by
  rw [permWordsAfter, List.length_map, (permStateAfter_canonical hv.length hv.canonical r).1]

/-- Words below `Q` are read back as the numbers that were stored (R10(h)). -/
theorem permWordsAfter_toNat : (permWordsAfter c v r).map BitVec.toNat = permStateAfter c v r := by
  have hlt := (permStateAfter_canonical hv.length hv.canonical r).2
  rw [permWordsAfter, List.map_map]
  refine (List.map_congr_left fun x hx => ?_).trans (List.map_id _)
  exact Nat.mod_eq_of_lt ((hlt x hx).trans_le (c.wellFormed.wordsFit hv.hasPerm))

variable {s : State} (hs : PermAtRound c ptr c0 v r s)
include hs

theorem PermAtRound.readRecords_eq : readRecords s.mem c.permN ptr s.clk = permRoundReads c ptr c0 v r := by
  rw [readRecords_eq_map _ hv.fits, hs.words, hs.clk]
  simp only [permWordsAfter_getD]
  refine List.map_congr_left fun i _ => ?_
  rw [clockAt, clockAt_add_ofNat]

theorem PermAtRound.writeRecords_eq :
    writeRecords (permWordsAfter c v (r + 1)) ptr (clockAt c0 (2 * c.permN * r + c.permN)) s.mem =
      permRoundWrites c ptr c0 v r := by
  rw [writeRecords_eq_map _ hv.fits (permWordsAfter_length hv), hs.words]
  simp only [permWordsAfter_getD]
  refine List.map_congr_left fun i _ => ?_
  rw [clockAt, clockAt_add_ofNat]

/-- The numbers read are the state of the round. -/
theorem PermAtRound.read_values :
    (permRoundReads c ptr c0 v r).map (fun m => m.newValue.toNat) = permStateAfter c v r := by
  rw [← hs.readRecords_eq hv, ← permWordsAfter_toNat hv, ← hs.words, readRecords_numbers _ hv.fits]

/-- The reads of a round. -/
theorem PermAtRound.readWords_eq :
    readWords c.permN ptr s = .ok (permRoundReads c ptr c0 v r)
      { s with mrb := s.mrb ++ permRoundReads c ptr c0 v r, clk := clockAt c0 (2 * c.permN * r + c.permN) } := by
  rw [readWords_aligned _ _ s hv.fits.aligned, hs.readRecords_eq hv, hs.clk, clockAt_add_ofNat]

/-- The writes of a round, from the state after its reads. -/
theorem PermAtRound.writeWords_eq {recs : List MemoryRecord} :
    ∃ t, writeWords (permWordsAfter c v (r + 1)) ptr
        { s with mrb := recs, clk := clockAt c0 (2 * c.permN * r + c.permN) } =
        .ok (permRoundWrites c ptr c0 v r) t ∧
      PermAtRound c ptr c0 v (r + 1) t ∧ AccessedIn ptr c.permN s t := by
  have hlen := permWordsAfter_length (r := r + 1) hv
  rw [writeWords_aligned _ _ _ hv.fits.aligned, hs.writeRecords_eq hv, hlen, clockAt_add_ofNat,
    show 2 * c.permN * r + c.permN + c.permN = 2 * c.permN * (r + 1) by ring]
  refine ⟨_, rfl, ⟨hs.cfg, rfl, wordsAt_storeWords s.mem hv.fits hlen⟩, ⟨_, _, _, rfl⟩, fun b hb => ?_⟩
  exact storeWords_readByte_outside _ ptr s.mem b (by rw [hlen]; exact hv.fits.2) (by rwa [hlen])

end

/-! ### The rounds (R222) -/

/-- `k` rounds complete: their records, and the state that stands before the next round. -/
theorem PermAtRound.permLoop_eq {c : Config} {ptr c0 : Word} {v : List Nat} (hv : PermInput c ptr v) (k : Nat) {r : Nat}
    {s : State} (hs : PermAtRound c ptr c0 v r s) :
    ∃ t, permLoop ptr k r s =
        .ok ((List.range' r k).map (permRoundReads c ptr c0 v),
          (List.range' r k).map (permRoundWrites c ptr c0 v)) t ∧
      PermAtRound c ptr c0 v (r + k) t ∧ AccessedIn ptr c.permN s t := by
  induction k generalizing r s with
  | zero => exact ⟨s, rfl, hs, .refl _ _ s⟩
  | succ k ih =>
    obtain rfl := hs.cfg
    have hcanonical : (permStateAfter s.cfg v r).any (fun x => decide (s.cfg.q ≤ x)) = false := by
      simpa using (permStateAfter_canonical hv.length hv.canonical r).2
    obtain ⟨t, hwrite, ht, hst⟩ := hs.writeWords_eq hv (recs := s.mrb ++ permRoundReads s.cfg ptr c0 v r)
    obtain ⟨u, hloop, hu, htu⟩ := ih ht
    refine ⟨u, ?_, by rwa [← Nat.succ_add_eq_add_succ], hst.trans htu⟩
    rw [permWordsAfter_succ] at hwrite
    simp only [permLoop, hs.readWords_eq hv, hs.read_values hv, hcanonical, Bool.false_eq_true, if_false, hwrite,
      hloop]
    rfl

/-- The event of a completed PERM, with the schedule of records of R225. -/
def permScheduledEvent (s : State) : PermEvent where
  clock := s.clk
  statePtr := pointerA s
  stateReads := permReadRecords s.cfg (pointerA s) s.clk (permWords s)
  stateWrites := permWriteRecords s.cfg (pointerA s) s.clk (permWords s)

/-- The state a completed PERM leaves, with its memory. -/
def permCompleted (s : State) (m : Memory) : State :=
  { answered .guest .completed s with
    mem := m
    clk := s.clk + BitVec.ofNat 32 (2 * s.cfg.permN * s.cfg.permRounds)
    mrb := []
    logPerm := s.logPerm ++ [permScheduledEvent s] }

/-- The memory a completed PERM leaves: the last round's output in the region, all else as before (R224). -/
structure PermMemory (s : State) (m : Memory) : Prop where
  words : wordsAt m (pointerA s) s.cfg.permN = permWordsAfter s.cfg (permWords s) s.cfg.permRounds
  outside : ∀ b, b < (pointerA s).toNat ∨ (pointerA s).toNat + 4 * s.cfg.permN ≤ b →
    m.readByte b = s.mem.readByte b

theorem permInput_of_ready {s : State} (h : PermReady s) : PermInput s.cfg (pointerA s) (permWords s) := by
  obtain ⟨⟨-, hPerm, -⟩, hfit, hq⟩ := h
  exact ⟨hPerm, hfit, by simp [permWords], hq⟩

theorem permAtRound_zero (s : State) : PermAtRound s.cfg (pointerA s) s.clk (permWords s) 0 s := by
  refine ⟨rfl, by simp [clockAt], ?_⟩
  rw [permWordsAfter, permStateAfter, permWords, List.map_map]
  refine ((List.map_congr_left fun w _ => ?_).trans (List.map_id _)).symm
  simp

theorem permInvocation_completes {s : State} (hv : PermInput s.cfg (pointerA s) (permWords s)) :
    ∃ m, permInvocation s = .ok .completed
        { s with
          mem := m
          clk := s.clk + BitVec.ofNat 32 (2 * s.cfg.permN * s.cfg.permRounds)
          mrb := []
          logPerm := s.logPerm ++ [permScheduledEvent s] } ∧
      PermMemory s m := by
  obtain ⟨t, hloop, hend, haccessed⟩ := (permAtRound_zero s).permLoop_eq hv s.cfg.permRounds
  obtain ⟨hreads, hwrites⟩ := permSchedule_eq_map s.cfg (pointerA s) s.clk (permWords s)
  obtain ⟨-, hclk, hwords⟩ := hend
  obtain ⟨⟨m, c, recs, rfl⟩, houtside⟩ := haccessed
  obtain rfl : c = _ := hclk
  rw [Nat.zero_add] at hwords hloop
  refine ⟨m, ?_, hwords, houtside⟩
  simp only [permInvocation, hloop, permScheduledEvent, hreads, hwrites]
  rfl

/-- The first read of the first round faults on a misaligned pointer (R226). -/
theorem permInvocation_misaligned {s : State} (h : aligned (pointerA s) = false) :
    permInvocation s = .fault (.alignmentError (pointerA s)) s := by
  obtain ⟨n, hn⟩ := Nat.exists_eq_add_of_le' s.cfg.wellFormed.permutation.1
  obtain ⟨k, hk⟩ := Nat.exists_eq_add_of_le' s.cfg.wellFormed.permutation.2
  simp only [permInvocation, hk, permLoop, hn, readWords_misaligned n _ s h]

/-- The check after the reads of the first round faults on a word that is not canonical (R226). -/
theorem permInvocation_nonCanonical {s : State} (hfit : RegionFits (pointerA s) s.cfg.permN)
    (h : ∃ x ∈ permWords s, s.cfg.q ≤ x) :
    ∃ recs, permInvocation s = .fault (.arithmeticDefect .nonCanonicalOperand)
      { s with mrb := recs, clk := s.clk + BitVec.ofNat 32 s.cfg.permN } := by
  obtain ⟨k, hk⟩ := Nat.exists_eq_add_of_le' s.cfg.wellFormed.permutation.2
  have hdefect : (permWords s).any (fun x => decide (s.cfg.q ≤ x)) = true := by simpa using h
  rw [permWords] at hdefect
  simp only [permInvocation, hk, permLoop, readWords_aligned _ _ s hfit.aligned, readRecords_numbers _ hfit, hdefect,
    if_true]
  exact ⟨_, rfl⟩

/-! ### What PERM answers (R222, R226) -/

theorem permRefusal_eq_none_iff (s : State) : permRefusal s = none ↔
    s.cfg.hasPerm = true ∧ s.sealedPerm = false ∧ s.clk.toNat + 2 * s.cfg.permN * s.cfg.permRounds < 2 ^ 32 ∧
      FitsIfAligned (pointerA s) s.cfg.permN := by
  have hN := s.cfg.wellFormed.permutation.1
  rw [← not_ne_iff, permRefusal_ne_none_iff]
  simp only [not_or, Bool.not_eq_false, Bool.not_eq_true, FitsIfAligned]
  constructor
  all_goals
    rintro ⟨hPerm, hsealed, hclk, hptr⟩
    exact ⟨hPerm, hsealed, by omega, by omega⟩

/-- PERM that is not refused runs its rounds. -/
theorem exec_perm_of_open {s : State} (h : PermOpen s) (hptr : FitsIfAligned (pointerA s) s.cfg.permN) :
    exec .perm s = conclude .guest (permInvocation { s with mrb := [] }) := by
  obtain ⟨hk, hPerm, hsealed, hclk⟩ := h
  change execPerm s = _
  rw [execPerm, unlessFaulted_of_clear hk, (permRefusal_eq_none_iff s).mpr ⟨hPerm, hsealed, hclk, hptr⟩]

theorem exec_perm_next_open {s t : State} (h : exec .perm s = .next t) :
    PermOpen s ∧ FitsIfAligned (pointerA s) s.cfg.permN := by
  obtain ⟨hk, -⟩ := unlessFaulted_next h
  have hnone : permRefusal s = none := by
    by_contra hne
    obtain ⟨r, hr⟩ := (exec_perm_refused_iff hk).mpr hne
    rw [hr] at h
    cases h
  obtain ⟨hPerm, hsealed, hclk, hptr⟩ := (permRefusal_eq_none_iff s).mp hnone
  exact ⟨⟨hk, hPerm, hsealed, hclk⟩, hptr⟩

section

variable {s : State} (h : PermOpen s) (hptr : FitsIfAligned (pointerA s) s.cfg.permN)
include h hptr

theorem exec_perm_misaligned (ha : aligned (pointerA s) = false) :
    exec .perm s = .next (misaligned .guest (pointerA s) s) := by
  rw [exec_perm_of_open h hptr, permInvocation_misaligned (s := { s with mrb := [] }) ha]
  rfl

theorem exec_perm_nonCanonical (ha : aligned (pointerA s) = true) (hq : ∃ x ∈ permWords s, s.cfg.q ≤ x) :
    exec .perm s =
      .next (defected .guest .nonCanonicalOperand { s with clk := s.clk + BitVec.ofNat 32 s.cfg.permN }) := by
  have ha' := (aligned_iff _).mp ha
  obtain ⟨recs, hrun⟩ := permInvocation_nonCanonical (s := { s with mrb := [] }) ⟨ha', hptr ha'⟩ hq
  rw [exec_perm_of_open h hptr, hrun]
  rfl

end

/-- PERM completes on canonical words (R222). -/
theorem exec_perm_completes {s : State} (h : PermReady s) :
    ∃ m, exec .perm s = .next (permCompleted s m) ∧ PermMemory s m := by
  have hv := permInput_of_ready h
  obtain ⟨hopen, hfit, -⟩ := h
  obtain ⟨m, hrun, hm⟩ := permInvocation_completes (s := { s with mrb := [] }) hv
  refine ⟨m, ?_, hm.words, hm.outside⟩
  rw [exec_perm_of_open hopen fun _ => hfit.2, hrun]
  rfl

/-- The fault that PERM raises on a pointer and the words there, if it does, and the ticks before it (R226). -/
def permFault (c : Config) (ptr : Word) (words : List Nat) : Option (Fault × Nat) :=
  if aligned ptr then
    if ∃ x ∈ words, c.q ≤ x then some (.arithmeticDefect .nonCanonicalOperand, c.permN) else none
  else some (.alignmentError ptr, 0)

/-- How PERM ends in a state `t`, with a fault or without. -/
def PermEnds (s t : State) : Option (Fault × Nat) → Prop
  | some (f, n) => t = takeFault .guest f { s with clk := s.clk + BitVec.ofNat 32 n }
  | none => PermReady s ∧ ∃ m, t = permCompleted s m ∧ PermMemory s m

/-- Everything PERM can answer. -/
theorem exec_perm_next {s t : State} (h : exec .perm s = .next t) :
    PermEnds s t (permFault s.cfg (pointerA s) (permWords s)) := by
  obtain ⟨hopen, hptr⟩ := exec_perm_next_open h
  unfold permFault
  split
  next ha =>
    split
    next hq =>
      rw [exec_perm_nonCanonical hopen hptr ha hq] at h
      exact (Host.Outcome.next.inj h).symm
    next hq =>
      have ha' := (aligned_iff _).mp ha
      have hready : PermReady s := ⟨hopen, ⟨ha', hptr ha'⟩, by simpa using hq⟩
      obtain ⟨m, hexec, hm⟩ := exec_perm_completes hready
      rw [hexec] at h
      exact ⟨hready, m, (Host.Outcome.next.inj h).symm, hm⟩
  next ha =>
    rw [exec_perm_misaligned hopen hptr (by simpa using ha)] at h
    rw [← Host.Outcome.next.inj h, PermEnds, BitVec.add_zero]
    rfl

/-! ### The obligations -/

/-- Settles O39: the rounds run one after the other, each on the words the one before it stored. -/
theorem permWritesTheLastRound : Obligations.PermWritesTheLastRound := by
  unfold Obligations.PermWritesTheLastRound
  intro s hready n out
  obtain ⟨m, hexec, hwords, houtside⟩ := exec_perm_completes hready
  refine ⟨permCompleted s m, permScheduledEvent s, hexec, rfl, fun i hi => ?_, houtside⟩
  obtain ⟨hPerm, -, hlen, hv⟩ := permInput_of_ready hready
  have hword : m.readWord ((pointerA s).toNat + 4 * i) = BitVec.ofNat 32 (out.getD i 0) := by
    rw [← wordsAt_getD m (pointerA s) hi, hwords, permWordsAfter_getD]
  exact (congrArg BitVec.toNat hword).trans (toNat_ofNat_canonical hPerm (permStateAfter_canonical hlen hv _).2)

/-- Settles O40: what a completed PERM leaves is said in full by `permCompleted`. -/
theorem permEmitsTheScheduleOfRecords : Obligations.PermEmitsTheScheduleOfRecords := by
  unfold Obligations.PermEmitsTheScheduleOfRecords
  intro s t h hk
  have hends := exec_perm_next h
  cases hfault : permFault s.cfg (pointerA s) (permWords s) with
  | some f =>
    rw [hfault] at hends
    rw [hends] at hk
    exact absurd hk (FStat.ofFault_kind_ne_none f.1)
  | none =>
    rw [hfault] at hends
    obtain ⟨-, m, rfl, -⟩ := hends
    exact ⟨rfl, rfl, rfl⟩

/-- Settles O41: the first round reads, and checks what it has read, before anything is written. -/
theorem permFaultPoints : Obligations.PermFaultPoints := by
  unfold Obligations.PermFaultPoints
  exact fun s hopen hptr => ⟨fun ha => exec_perm_misaligned hopen hptr ((aligned_eq_false_iff _).mpr ha),
    fun ha hq => exec_perm_nonCanonical hopen hptr ((aligned_iff _).mpr ha) hq⟩

/-- Settles O42: the fault, if any, the ticks and the event are functions of the configuration, the pointer, the words
and the clock. -/
theorem permIsDeterminedByItsInputs : Obligations.PermIsDeterminedByItsInputs := by
  unfold Obligations.PermIsDeterminedByItsInputs
  intro s₁ s₂ t₁ t₂ hcfg hptr hclk hwords h₁ h₂
  have hends₁ := exec_perm_next h₁
  have hends₂ := exec_perm_next h₂
  rw [← hcfg, ← hptr, ← hwords] at hends₂
  have hevent : permScheduledEvent s₂ = permScheduledEvent s₁ := by
    simp only [permScheduledEvent, hcfg, hptr, hclk, hwords]
  generalize permFault s₁.cfg (pointerA s₁) (permWords s₁) = fault at hends₁ hends₂
  cases fault with
  | some f =>
    obtain ⟨rfl, rfl⟩ := And.intro hends₁ hends₂
    exact ⟨rfl, fun _ => rfl, congrArg (· + _) hclk, fun hk => absurd hk (FStat.ofFault_kind_ne_none f.1)⟩
  | none =>
    obtain ⟨⟨⟨hk₁, -⟩, -⟩, m₁, rfl, -⟩ := hends₁
    obtain ⟨⟨⟨hk₂, -⟩, -⟩, m₂, rfl, -⟩ := hends₂
    refine ⟨hk₁.trans hk₂.symm, fun hk => absurd hk₁ hk, ?_, fun _ => ⟨permScheduledEvent s₁, rfl, ?_⟩⟩
    · simp only [permCompleted, hclk, hcfg]
    · rw [← hevent]
      rfl

end Sys2Proof.Machine
end

section
/-! PROOFS. 43_perm.md, sections 3 and 4: what a PERM row holds (R228, R229), and EVAL PERM on a window of the matrix
(R231 to R233, 44_trace.md R267). -/

namespace Sys2Proof.Machine

open Claims

/-- The fields that the row of round `r` of an event is populated with (R229). -/
def PermRow.ofEvent (c : Config) (e : PermEvent) (r : Nat) : PermRow where
  clk := e.clock.toNat + 2 * c.permN * r
  statePtr := e.statePtr.toNat
  isExternal := 1
  isFinalize := if r + 1 = c.permRounds then 1 else 0
  roundSel := (List.range c.permRounds).map (fun k => if k = r then 1 else 0)
  inp := (List.range c.permN).map (roundWord e.stateReads r)
  out := (List.range c.permN).map (roundWord e.stateWrites r)
  finOpd := (List.range c.permN).map (fun i =>
    if r + 1 = c.permRounds then
      (((roundWord e.stateWrites r i : Int) - roundWord e.stateReads r i) % c.q).toNat
    else 0)

theorem permCells_eq_cells (c : Config) (e : PermEvent) (r : Nat) :
    permCells c e r = (PermRow.ofEvent c e r).cells := by
  simp only [permCells, decide_eq_true_eq]
  rfl

theorem permRow_lt {c : Config} {e : PermEvent} {r : Nat} {row : List Nat} (h : permRow c e r = .ok row) :
    ∀ x ∈ row, x < c.q := by
  unfold permRow at h
  split at h
  next hlt => cases h; simpa using hlt
  next => cases h

theorem permWidth_of_ofCells {c : Config} {row : List Nat} {v : PermRow} (h : PermRow.ofCells c row = some v) :
    row.length = c.permWidth := by
  unfold PermRow.ofCells at h
  split at h
  · assumption
  · cases h

/-- Settles O46: a populated row is the layout of the fields of R229, and its view is those fields. -/
theorem permRowHoldsTheRoundAtItsOffsets : Obligations.PermRowHoldsTheRoundAtItsOffsets := by
  unfold Obligations.PermRowHoldsTheRoundAtItsOffsets
  intro c e r row _ h last inp out
  have hview : PermRow.ofCells c row = some (PermRow.ofEvent c e r) := by
    rw [permRow_eq_ok h, permCells_eq_cells]
    exact PermRow.ofCells_cells (by simp [PermRow.ofEvent]) (by simp [PermRow.ofEvent]) (by simp [PermRow.ofEvent])
      (by simp [PermRow.ofEvent])
  have hq : (c.q : Int) ≠ 0 := by exact_mod_cast c.wellFormed.primeQ.ne_zero
  refine ⟨permWidth_of_ofCells hview, permRow_lt h, _, hview, rfl, rfl, rfl, fun hl => if_pos hl, fun hl => if_neg hl,
    rfl, rfl, rfl, fun i hi => ?_⟩
  rw [PermRow.ofEvent, getD_map_range _ _ hi]
  refine ⟨fun hl => ?_, fun hl => if_neg hl⟩
  rw [if_pos hl, Int.toNat_of_nonneg (Int.emod_nonneg _ hq)]

theorem PermRow.exists_ofCells {c : Config} {row : List Nat} (h : row.length = c.permWidth) :
    ∃ r, PermRow.ofCells c row = some r :=
  ⟨_, if_pos h⟩

/-- EVAL PERM on a window of rows of the chip's width completes with the window's verdict. -/
theorem exec_eval_perm {s : State} {m : Matrix} {cur : List Nat} {r n : PermRow} (hk : s.fstat.kind = .none)
    (hPerm : s.cfg.hasPerm = true) (hm : s.tracePerm = some m) (hcur : m[s.operands.row]? = some cur)
    (hr : PermRow.ofCells s.cfg cur = some r)
    (hn : PermRow.ofCells s.cfg (nextRow m s.operands.row cur) = some n) :
    exec (.eval .perm) s = .next (answered .host (.verdict (evalPermWindow s.cfg r n (decide (s.operands.row = 0))
      (decide (s.operands.row + 1 < m.length)))) s) := by
  change execEval .perm s = _
  rw [execEval, unlessFaulted_of_clear hk, ifChip, if_pos (show hasChip s.cfg .perm = true from hPerm)]
  simp only [evalCommand, hm, hcur, permVerdict, hr, hn]
  rfl

/-- The window's next row is the row after, or on the last row the row itself. -/
theorem nextRow_eq {m : Matrix} {i : Nat} {cur next : List Nat} (hinner : i + 1 < m.length → m[i + 1]? = some next)
    (hlast : ¬ i + 1 < m.length → next = cur) : nextRow m i cur = next := by
  by_cases hi : i + 1 < m.length
  · rw [nextRow, hinner hi, Option.getD_some]
  · rw [nextRow, List.getElem?_eq_none (not_lt.mp hi), Option.getD_none, hlast hi]

/-- Settles O57: EVAL answers with the verdict on the window, which is R231 to R233 with their gates. -/
theorem evalPermReturnsTheConstraintVerdict : Obligations.EvalPermReturnsTheConstraintVerdict := by
  unfold Obligations.EvalPermReturnsTheConstraintVerdict
  intro s m cur next hk hPerm hm hcur hinner hlast hwidth hwidth'
  obtain ⟨r, hr⟩ := PermRow.exists_ofCells hwidth
  obtain ⟨n, hn⟩ := PermRow.exists_ofCells hwidth'
  have hwindow : PermRow.ofCells s.cfg (nextRow m s.operands.row cur) = some n := by rw [nextRow_eq hinner hlast, hn]
  refine ⟨_, r, n, hr, hn, exec_eval_perm hk hPerm hm hcur hr hwindow, ?_⟩
  simp only [evalPermWindow_iff, decide_eq_true_eq]

end Sys2Proof.Machine
end

section
/-! PROOFS. 44_trace.md: WIDTH (R260), the matrices GENTRACE builds and the overflow that stops it (R261 to R265, R270),
what the seal ends (R269), and when EVAL is refused (R267). -/

namespace Sys2Proof.Machine

open Claims

/-! ### The padded height (R263) -/

/-- `pad_height(n)` is two to the binary logarithm of `n`, rounded up. -/
theorem padHeight_eq_two_pow_clog (n : Nat) : padHeight n = 2 ^ Nat.clog 2 n := by
  unfold padHeight
  split
  next hn => rw [Nat.clog_of_right_le_one hn, pow_zero]
  next hn =>
    congr 1
    refine eq_of_forall_ge_iff fun k => ?_
    rw [Nat.clog_le_iff_le_pow one_lt_two, Nat.succ_le_iff, Nat.log2_lt (by omega)]
    omega

theorem le_padHeight (n : Nat) : n ≤ padHeight n := by
  rw [padHeight_eq_two_pow_clog]
  exact Nat.le_pow_clog one_lt_two n

/-- Settles O51: the height is the power of the rounded-up logarithm, which is the least exponent that reaches `n`. -/
theorem padHeightIsTheSmallestPowerOfTwo : Obligations.PadHeightIsTheSmallestPowerOfTwo := by
  unfold Obligations.PadHeightIsTheSmallestPowerOfTwo
  intro n
  refine ⟨Nat.clog 2 n, padHeight_eq_two_pow_clog n, max_le ?_ (le_padHeight n), fun j hj => ?_⟩
  all_goals rw [padHeight_eq_two_pow_clog]
  · exact Nat.one_le_two_pow
  · exact Nat.pow_le_pow_right two_pos (Nat.clog_le_of_le_pow (le_of_max_le_right hj))

/-! ### Gathering populated rows (R261 to R264, R270) -/

/-- The padded matrix of rows as they are populated, or the first defect: what GENTRACE makes of either log. -/
def gatherRows (width : Nat) (rows : List (Except DefectCause (List Nat))) : Except DefectCause Matrix :=
  match collect rows with
  | .error d => .error d
  | .ok rows => .ok (padMatrix width rows)

theorem edMatrix_eq_gatherRows (c : Config) (log : List EdAddEvent) :
    edMatrix c log = gatherRows c.edWidth (log.map (edRow c)) := rfl

/-- The rows of a PERM log as they are populated: `R` per event, round 0 first. -/
def permRows (c : Config) (log : List PermEvent) : List (Except DefectCause (List Nat)) :=
  log.flatMap (fun e => (List.range c.permRounds).map (permRow c e))

theorem permMatrix_eq_gatherRows (c : Config) (log : List PermEvent) :
    permMatrix c log = gatherRows c.permWidth (permRows c log) := rfl

theorem mem_permRows {c : Config} {log : List PermEvent} {x : Except DefectCause (List Nat)} :
    x ∈ permRows c log ↔ ∃ e ∈ log, ∃ r, r < c.permRounds ∧ permRow c e r = x := by
  simp [permRows]

@[simp] theorem permRows_length (c : Config) (log : List PermEvent) :
    (permRows c log).length = log.length * c.permRounds := by
  simp [permRows, List.length_flatMap]

/-- Row `k·R + r` is that of event `k` and round `r`. -/
theorem permRows_getElem? {c : Config} {log : List PermEvent} {k r : Nat} {e : PermEvent} (he : log[k]? = some e)
    (hr : r < c.permRounds) : (permRows c log)[k * c.permRounds + r]? = some (permRow c e r) := by
  obtain ⟨hdiv, hmod⟩ : (k * c.permRounds + r) / c.permRounds = k ∧ (k * c.permRounds + r) % c.permRounds = r :=
    (Nat.div_mod_unique (by omega)).mpr ⟨by rw [Nat.mul_comm, Nat.add_comm], hr⟩
  rw [permRows, getElem?_flatMap_map_range (by omega), hdiv, hmod, he, Option.map_some]

/-- The defect that stops the gathering is that of a row. -/
theorem mem_of_collect_eq_error {α : Type} {l : List (Except DefectCause α)} {d : DefectCause}
    (h : collect l = .error d) : .error d ∈ l := by
  induction l with
  | nil => cases h
  | cons x l ih =>
    cases x with
    | error d' => cases h; exact List.mem_cons_self
    | ok a =>
      unfold collect at h
      split at h
      next d' hd' => cases h; exact List.mem_cons_of_mem _ (ih hd')
      next => cases h

/-- A list that holds defects of one cause only answers that cause. -/
theorem collect_eq_error {α : Type} {l : List (Except DefectCause α)} {d : DefectCause} (hmem : .error d ∈ l)
    (honly : ∀ d', .error d' ∈ l → d' = d) : collect l = .error d := by
  cases hl : collect l with
  | error d' => rw [honly d' (mem_of_collect_eq_error hl)]
  | ok rows => simp [collect_eq_ok hl] at hmem

theorem gatherRows_eq_error {width : Nat} {rows : List (Except DefectCause (List Nat))} {d : DefectCause}
    (hmem : .error d ∈ rows) (honly : ∀ d', .error d' ∈ rows → d' = d) : gatherRows width rows = .error d := by
  rw [gatherRows, collect_eq_error hmem honly]

@[simp] theorem padMatrix_length (width : Nat) (rows : List (List Nat)) :
    (padMatrix width rows).length = padHeight rows.length := by
  have := le_padHeight rows.length
  simp [padMatrix, this]

theorem padMatrix_getElem?_row {width i : Nat} {rows : List (List Nat)} (h : i < rows.length) :
    (padMatrix width rows)[i]? = rows[i]? :=
  List.getElem?_append_left h

theorem padMatrix_getElem?_padding {width i : Nat} {rows : List (List Nat)} (h : rows.length ≤ i)
    (hi : i < (padMatrix width rows).length) : (padMatrix width rows)[i]? = some (List.replicate width 0) := by
  rw [padMatrix_length] at hi
  rw [padMatrix, List.getElem?_append_right h, List.getElem?_replicate, if_pos (by omega)]

/-- `m` is the matrix of these rows: each of them at its place, and zero rows up to the padded height. -/
structure MatrixOf (width : Nat) (rows : List (Except DefectCause (List Nat))) (m : Matrix) : Prop where
  length : m.length = padHeight rows.length
  row : ∀ (i : Nat) (x : Except DefectCause (List Nat)), rows[i]? = some x → ∃ row, x = .ok row ∧ m[i]? = some row
  padding : ∀ i, rows.length ≤ i → i < m.length → m[i]? = some (List.replicate width 0)

/-- Rows without a defect make their matrix. -/
theorem exists_gatherRows {width : Nat} {rows : List (Except DefectCause (List Nat))}
    (h : ∀ x ∈ rows, ∃ row, x = .ok row) : ∃ m, gatherRows width rows = .ok m ∧ MatrixOf width rows m := by
  cases hrows : collect rows with
  | error d =>
    obtain ⟨row, hrow⟩ := h _ (mem_of_collect_eq_error hrows)
    cases hrow
  | ok cells =>
    refine ⟨padMatrix width cells, by rw [gatherRows, hrows], ?_⟩
    rw [collect_eq_ok hrows]
    refine ⟨by simp, fun i x hx => ?_, fun i hi => padMatrix_getElem?_padding (by simpa using hi)⟩
    rw [List.getElem?_map, Option.map_eq_some_iff] at hx
    obtain ⟨row, hrow, rfl⟩ := hx
    obtain ⟨hi, -⟩ := List.getElem?_eq_some_iff.mp hrow
    exact ⟨row, rfl, by rw [padMatrix_getElem?_row hi, hrow]⟩

/-! ### When a row of an honest event is populated (R265) -/

theorem storeRow_of_lt {q : Nat} {cells : List Nat} (h : ∀ x ∈ cells, x < q) : storeRow q cells = .ok cells :=
  if_pos (by simpa using h)

theorem storeRow_eq_error {q : Nat} {cells : List Nat} {d : DefectCause} (h : storeRow q cells = .error d) :
    d = .cellOverflow := by
  unfold storeRow at h
  split at h <;> cases h
  rfl

/-- The limbs of the ED chip fit a cell (R10(g)). -/
theorem base_le_q {c : Config} (hEd : c.hasEd = true) : c.fd.base ≤ c.q := by
  have htwo := two_mul_tOff_lt (two_le_base (unitOk_config c)) (c.wellFormed.noWrap hEd)
  have hbase : c.fd.base ≤ c.fd.tOff Config.ipMax :=
    Nat.le_mul_of_pos_left _ (Nat.mul_pos two_pos (numLimbs_pos c))
  omega

theorem wordLimbs_lt (c : Config) (v : Word) : ∀ x ∈ wordLimbs c v, x < c.fd.base :=
  limbs_lt _ _ _ (Nat.two_pow_pos _)

/-- The group of a unit of the chain fits the cells: limbs are below `B`, and a carry is stored modulo `Q` (R141). -/
theorem toCells_flat_lt {c : Config} (hEd : c.hasEd = true) {op : UnitOp} {ins : List LimbPair} {t : UnitResult}
    (hfit : op.Fits ins) (h : populate op c.fd ins = .ok t) : ∀ x ∈ (t.toCells c.q).flat, x < c.q := by
  obtain ⟨⟨-, hres, -⟩, ⟨-, hquot⟩, -⟩ := populate_answer c.fd op ins t (unitOk_config c) hfit h
  intro x hx
  simp only [UnitCells.flat, UnitResult.toCells, List.mem_append, List.mem_map] at hx
  obtain (hx | hx) | ⟨u, -, rfl⟩ := hx
  · exact (hres x hx).trans_le (base_le_q hEd)
  · exact (hquot x hx).trans_le (base_le_q hEd)
  · exact carryCell_lt c.wellFormed.primeQ.pos u

/-- Every cell of a row whose clock and pointers fit is below `Q`. -/
theorem edFill_cells_lt {c : Config} {e : EdAddEvent} {ch : EdChain} {x1 y1 x2 y2 : List Nat} (hEd : c.hasEd = true)
    (hfit : EdEventFits c e) (hch : edChain c x1 y1 x2 y2 = .ok ch) : ∀ x ∈ (edFill c e ch).cells, x < c.q := by
  obtain ⟨hclk, hpPtr, hqPtr⟩ := hfit
  have word (v : Word) (x : Nat) (hx : x ∈ wordLimbs c v) : x < c.q := (wordLimbs_lt c v x hx).trans_le (base_le_q hEd)
  intro x hx
  simp only [EdFill.cells, List.mem_append, List.mem_flatMap] at hx
  obtain ((hx | ⟨i, -, hx | hx⟩) | ⟨i, -, hx⟩) | ⟨k, -, hx⟩ := hx
  · simp only [EdFill.header, List.mem_cons, List.not_mem_nil, or_false] at hx
    obtain rfl | rfl | rfl := hx
    · exact hclk
    · exact hpPtr
    · exact hqPtr
  · exact word _ x hx
  · exact word _ x hx
  · exact word _ x hx
  · obtain ⟨op, ins, hop, hpop⟩ := edChain_unitAt hch k
    exact toCells_flat_lt hEd hop hpop x hx

theorem edRow_of_overflow {c : Config} {e : EdAddEvent} (h : ¬ EdEventFits c e) :
    edRow c e = .error .cellOverflow := by
  refine if_pos ?_
  by_contra hall
  exact h (by simpa [EdEventFits] using hall)

/-- The row of an event that fits is stored as the chain, run again, gives it. -/
theorem edRow_of_fits {c : Config} {e : EdAddEvent} {ch : EdChain} (hfit : EdEventFits c e)
    (hch : edChain c (pointX c e.p) (pointY c e.p) (pointX c e.q) (pointY c e.q) = .ok ch) :
    edRow c e = storeRow c.q (edCells c e ch) := by
  unfold edRow
  rw [if_neg (by simpa [EdEventFits] using hfit), hch]

theorem exists_edRow {c : Config} {e : EdAddEvent} (he : e.Honest c) (hfit : EdEventFits c e) :
    ∃ row, edRow c e = .ok row := by
  obtain ⟨hEd, -, -, -, -, -, -, -, ch, hsum, -⟩ := he
  have hch := edSum_eq_ok hsum
  exact ⟨_, (edRow_of_fits hfit hch).trans (storeRow_of_lt (edFill_cells_lt hEd hfit hch))⟩

/-- The row of an honest event has no other defect than an overflow: its chain has run before. -/
theorem edRow_eq_error {c : Config} {e : EdAddEvent} (he : e.Honest c) {d : DefectCause} (h : edRow c e = .error d) :
    d = .cellOverflow := by
  by_cases hfit : EdEventFits c e
  · obtain ⟨row, hrow⟩ := exists_edRow he hfit
    rw [hrow] at h
    cases h
  · rw [edRow_of_overflow hfit] at h
    exact (Except.error.inj h).symm

theorem permRow_eq_storeRow (c : Config) (e : PermEvent) (r : Nat) :
    permRow c e r = storeRow c.q (PermRow.ofEvent c e r).cells := by
  rw [← permCells_eq_cells]
  rfl

/-- The words of an honest event are canonical. -/
theorem honest_roundWords_lt {c : Config} {e : PermEvent} (he : e.Honest c) {r : Nat} (hr : r < c.permRounds) :
    (∀ x ∈ (PermRow.ofEvent c e r).inp, x < c.q) ∧ ∀ x ∈ (PermRow.ofEvent c e r).out, x < c.q := by
  obtain ⟨hPerm, -, -, v, hv, hvlt, hreads, hwrites⟩ := he
  obtain ⟨hlen, hlt⟩ := permStateAfter_canonical hv hvlt r
  obtain ⟨hlen', hlt'⟩ := permStateAfter_canonical hv hvlt (r + 1)
  simp only [PermRow.ofEvent]
  rw [map_roundWord hreads hr hlen fun i _ => toNat_ofNat_canonical hPerm hlt,
    map_roundWord hwrites hr hlen' fun i _ => toNat_ofNat_canonical hPerm hlt']
  exact ⟨hlt, hlt'⟩

/-- Every cell of a round's row is below `Q` when the event's clocks and pointer are. -/
theorem ofEvent_cells_lt {c : Config} {e : PermEvent} (he : e.Honest c) (hfit : PermEventFits c e) {r : Nat}
    (hr : r < c.permRounds) : ∀ x ∈ (PermRow.ofEvent c e r).cells, x < c.q := by
  obtain ⟨hclk, hptr⟩ := hfit
  obtain ⟨hinp, hout⟩ := honest_roundWords_lt he hr
  have hq := c.wellFormed.primeQ.one_lt
  have hround : 2 * c.permN * r ≤ 2 * c.permN * (c.permRounds - 1) := Nat.mul_le_mul_left _ (by omega)
  have flag (P : Prop) [Decidable P] : (if P then 1 else 0) < c.q := by split <;> omega
  intro x hx
  simp only [PermRow.cells, List.mem_append] at hx
  obtain (((hx | hx) | hx) | hx) | hx := hx
  · simp only [PermRow.ofEvent, List.mem_cons, List.not_mem_nil, or_false] at hx
    obtain rfl | rfl | rfl | rfl := hx
    · omega
    · exact hptr
    · exact hq
    · exact flag _
  · obtain ⟨k, -, rfl⟩ := List.mem_map.mp hx
    exact flag _
  · exact hinp x hx
  · exact hout x hx
  · obtain ⟨i, -, rfl⟩ := List.mem_map.mp hx
    split
    · exact carryCell_lt c.wellFormed.primeQ.pos _
    · exact c.wellFormed.primeQ.pos

theorem exists_permRow {c : Config} {e : PermEvent} (he : e.Honest c) (hfit : PermEventFits c e) {r : Nat}
    (hr : r < c.permRounds) : ∃ row, permRow c e r = .ok row :=
  ⟨_, (permRow_eq_storeRow c e r).trans (storeRow_of_lt (ofEvent_cells_lt he hfit hr))⟩

theorem permRow_eq_error {c : Config} {e : PermEvent} {r : Nat} {d : DefectCause} (h : permRow c e r = .error d) :
    d = .cellOverflow :=
  storeRow_eq_error ((permRow_eq_storeRow c e r).symm.trans h)

/-- The row of the last round, whose clock is the largest, shows that an event does not fit. -/
theorem permRow_of_overflow {c : Config} {e : PermEvent} (h : ¬ PermEventFits c e) :
    permRow c e (c.permRounds - 1) = .error .cellOverflow := by
  rw [permRow_eq_storeRow]
  refine if_neg fun hall => h ?_
  simp only [List.all_eq_true, decide_eq_true_eq] at hall
  exact ⟨hall _ (by simp [PermRow.cells, PermRow.ofEvent]), hall _ (by simp [PermRow.cells, PermRow.ofEvent])⟩

/-! ### The matrix of a log -/

theorem exists_edMatrix {c : Config} {log : List EdAddEvent} (h : ∀ e ∈ log, e.Honest c ∧ EdEventFits c e) :
    ∃ m, edMatrix c log = .ok m ∧ MatrixOf c.edWidth (log.map (edRow c)) m := by
  rw [edMatrix_eq_gatherRows]
  refine exists_gatherRows fun x hx => ?_
  obtain ⟨e, he, rfl⟩ := List.mem_map.mp hx
  obtain ⟨hhonest, hfit⟩ := h e he
  exact exists_edRow hhonest hfit

theorem edMatrix_overflow {c : Config} {log : List EdAddEvent} (hlog : ∀ e ∈ log, e.Honest c)
    (h : ∃ e ∈ log, ¬ EdEventFits c e) : edMatrix c log = .error .cellOverflow := by
  obtain ⟨e, he, hfit⟩ := h
  rw [edMatrix_eq_gatherRows]
  refine gatherRows_eq_error (List.mem_map.mpr ⟨e, he, edRow_of_overflow hfit⟩) fun d hd => ?_
  obtain ⟨e', he', hrow⟩ := List.mem_map.mp hd
  exact edRow_eq_error (hlog e' he') hrow

theorem exists_permMatrix {c : Config} {log : List PermEvent} (h : ∀ e ∈ log, e.Honest c ∧ PermEventFits c e) :
    ∃ m, permMatrix c log = .ok m ∧ MatrixOf c.permWidth (permRows c log) m := by
  rw [permMatrix_eq_gatherRows]
  refine exists_gatherRows fun x hx => ?_
  obtain ⟨e, he, r, hr, rfl⟩ := mem_permRows.mp hx
  obtain ⟨hhonest, hfit⟩ := h e he
  exact exists_permRow hhonest hfit hr

theorem permMatrix_overflow {c : Config} {log : List PermEvent} (h : ∃ e ∈ log, ¬ PermEventFits c e) :
    permMatrix c log = .error .cellOverflow := by
  obtain ⟨e, he, hfit⟩ := h
  have hlast : c.permRounds - 1 < c.permRounds := Nat.sub_one_lt_of_lt c.wellFormed.permutation.2
  rw [permMatrix_eq_gatherRows]
  refine gatherRows_eq_error (mem_permRows.mpr ⟨e, he, _, hlast, permRow_of_overflow hfit⟩) fun d hd => ?_
  obtain ⟨e', -, r, -, hrow⟩ := mem_permRows.mp hd
  exact permRow_eq_error hrow

/-- Rows of the ED matrix have the chip's width, whatever the log. -/
theorem edMatrix_width {c : Config} {log : List EdAddEvent} {m : Matrix} (h : edMatrix c log = .ok m) :
    ∀ row ∈ m, row.length = c.edWidth := by
  intro row hrow
  obtain ⟨i, hi⟩ := List.mem_iff_getElem?.mp hrow
  obtain ⟨e, -, hrow⟩ | rfl := edMatrix_getElem? h hi
  · obtain ⟨ch, hch, rfl, -⟩ := edRow_eq_ok hrow
    exact EdFill.cells_length (edFill_sized hch)
  · exact List.length_replicate

/-- Rows of the PERM matrix have the chip's width, whatever the log. -/
theorem permMatrix_width {c : Config} {log : List PermEvent} {m : Matrix} (h : permMatrix c log = .ok m) :
    ∀ row ∈ m, row.length = c.permWidth := by
  intro row hrow
  obtain ⟨i, hi⟩ := List.mem_iff_getElem?.mp hrow
  obtain ⟨e, -, hrow⟩ | ⟨-, rfl⟩ := permMatrix_getElem? h hi
  · obtain ⟨hwidth, -⟩ :=
      permRowHoldsTheRoundAtItsOffsets c e _ row (Nat.mod_lt _ c.wellFormed.permutation.2) hrow
    exact hwidth
  · exact List.length_replicate

/-! ### What the host commands read and write of a chip

GENTRACE and EVAL are the same command for both chips, on the chip's own seal, log, matrix and constraints. -/

/-- `SEALED_chip`. -/
def isSealed (s : State) : Chip → Bool
  | .ed => s.sealedEd
  | .perm => s.sealedPerm

/-- `TRACE_chip`. -/
def traceOf (s : State) : Chip → Option Matrix
  | .ed => s.traceEd
  | .perm => s.tracePerm

/-- The matrix of `LOG_chip`. -/
def matrixOfLog (s : State) : Chip → Except DefectCause Matrix
  | .ed => edMatrix s.cfg s.logEd
  | .perm => permMatrix s.cfg s.logPerm

/-- The state a completed GENTRACE leaves. -/
def traced (s : State) (m : Matrix) : Chip → State
  | .ed => { answered .host (.matrix m) s with traceEd := some m, sealedEd := true }
  | .perm => { answered .host (.matrix m) s with tracePerm := some m, sealedPerm := true }

/-- The verdict on a window of a chip's matrix. -/
def windowVerdict (c : Config) : Chip → List Nat → List Nat → Nat → Nat → Option Bool
  | .ed => fun cur _ _ _ => edVerdict c cur
  | .perm => permVerdict c

/-- GENTRACE of a chip that the engine has, before any fault. -/
def gentraceOf (s : State) (chip : Chip) : Host.Outcome State Fault Refusal :=
  if isSealed s chip then .refused (.chipSealed chip)
  else
    match matrixOfLog s chip with
    | .error d => .next (defected .host d s)
    | .ok m => .next (traced s m chip)

theorem exec_gentrace_eq (s : State) (chip : Chip) :
    exec (.gentrace chip) s = unlessFaulted s (ifChip chip s (gentraceOf s chip)) := by
  cases chip <;> rfl

theorem exec_eval_eq (s : State) (chip : Chip) : exec (.eval chip) s =
    unlessFaulted s (ifChip chip s (evalCommand chip (traceOf s chip) (windowVerdict s.cfg chip) s)) := by
  cases chip <;> rfl

@[simp] theorem traced_cfg (s : State) (m : Matrix) (chip : Chip) : (traced s m chip).cfg = s.cfg := by
  cases chip <;> rfl

@[simp] theorem isSealed_traced (s : State) (m : Matrix) (chip : Chip) : isSealed (traced s m chip) chip = true := by
  cases chip <;> rfl

@[simp] theorem traceOf_traced (s : State) (m : Matrix) (chip : Chip) : traceOf (traced s m chip) chip = some m := by
  cases chip <;> rfl

section

variable {s : State} {chip : Chip}

theorem evalCommand_noTrace {verdict : List Nat → List Nat → Nat → Nat → Option Bool} :
    evalCommand chip none verdict s = .refused (.noTrace chip) := rfl

theorem evalCommand_rowIndexOutOfRange {verdict : List Nat → List Nat → Nat → Nat → Option Bool} {m : Matrix}
    (h : m.length ≤ s.operands.row) :
    evalCommand chip (some m) verdict s = .refused (.rowIndexOutOfRange s.operands.row) := by
  simp only [evalCommand, List.getElem?_eq_none h]

end

/-! ### WIDTH, GENTRACE and EVAL before any fault (R260 to R262, R265, R267) -/

section

variable {s : State} {chip : Chip} (hk : s.fstat.kind = .none)
include hk

theorem exec_width (chip : Chip) :
    exec (.width chip) s = .next (answered .host (.width (chipWidth s.cfg chip)) s) :=
  unlessFaulted_of_clear hk _

theorem exec_gentrace_absent (h : hasChip s.cfg chip = false) :
    exec (.gentrace chip) s = .refused (.chipAbsent chip) := by
  rw [exec_gentrace_eq, unlessFaulted_of_clear hk, ifChip, if_neg (by simp [h])]

theorem exec_eval_absent (h : hasChip s.cfg chip = false) : exec (.eval chip) s = .refused (.chipAbsent chip) := by
  rw [exec_eval_eq, unlessFaulted_of_clear hk, ifChip, if_neg (by simp [h])]

variable (hchip : hasChip s.cfg chip = true)
include hchip

theorem exec_gentrace_of_has : exec (.gentrace chip) s = gentraceOf s chip := by
  rw [exec_gentrace_eq, unlessFaulted_of_clear hk, ifChip, if_pos hchip]

theorem exec_gentrace_sealed (h : isSealed s chip = true) :
    exec (.gentrace chip) s = .refused (.chipSealed chip) := by
  rw [exec_gentrace_of_has hk hchip, gentraceOf, if_pos h]

theorem exec_gentrace_defect (hopen : isSealed s chip = false) {d : DefectCause} (h : matrixOfLog s chip = .error d) :
    exec (.gentrace chip) s = .next (defected .host d s) := by
  simp [exec_gentrace_of_has hk hchip, gentraceOf, hopen, h]

theorem exec_gentrace_completes (hopen : isSealed s chip = false) {m : Matrix} (h : matrixOfLog s chip = .ok m) :
    exec (.gentrace chip) s = .next (traced s m chip) := by
  simp [exec_gentrace_of_has hk hchip, gentraceOf, hopen, h]

theorem exec_eval_of_has :
    exec (.eval chip) s = evalCommand chip (traceOf s chip) (windowVerdict s.cfg chip) s := by
  rw [exec_eval_eq, unlessFaulted_of_clear hk, ifChip, if_pos hchip]

theorem exec_eval_noTrace (h : traceOf s chip = none) : exec (.eval chip) s = .refused (.noTrace chip) := by
  rw [exec_eval_of_has hk hchip, h, evalCommand_noTrace]

theorem exec_eval_rowIndexOutOfRange {m : Matrix} (h : traceOf s chip = some m) (hrow : m.length ≤ s.operands.row) :
    exec (.eval chip) s = .refused (.rowIndexOutOfRange s.operands.row) := by
  rw [exec_eval_of_has hk hchip, h, evalCommand_rowIndexOutOfRange hrow]

end

/-- Settles O50: the answer is the width of R190 or R228 with the parameters' abbreviations written out. -/
theorem widthReturnsTheColumnCount : Obligations.WidthReturnsTheColumnCount := by
  unfold Obligations.WidthReturnsTheColumnCount
  exact ⟨by decide, by decide, fun s hk => ⟨exec_width hk .ed, exec_width hk .perm⟩⟩

/-- Settles O58: the chip is asked for first, then its matrix, then the row. -/
theorem evalIsRefusedWithoutARow : Obligations.EvalIsRefusedWithoutARow := by
  unfold Obligations.EvalIsRefusedWithoutARow
  exact fun s hk => ⟨fun h => ⟨exec_gentrace_absent hk h, exec_eval_absent hk h⟩,
    fun h => ⟨exec_gentrace_absent hk h, exec_eval_absent hk h⟩,
    fun h hm => exec_eval_noTrace (chip := .ed) hk h hm, fun h hm => exec_eval_noTrace (chip := .perm) hk h hm,
    fun _ h hm hrow => exec_eval_rowIndexOutOfRange (chip := .ed) hk h hm hrow,
    fun _ h hm hrow => exec_eval_rowIndexOutOfRange (chip := .perm) hk h hm hrow⟩

/-- Settles O52: honest events that fit have their rows, and those are the matrix with its padding. -/
theorem gentraceEdBuildsTheMatrix : Obligations.GentraceEdBuildsTheMatrix := by
  unfold Obligations.GentraceEdBuildsTheMatrix
  intro s hk hEd hopen hlog
  obtain ⟨m, hm, hof⟩ := exists_edMatrix hlog
  refine ⟨m, exec_gentrace_completes (chip := .ed) hk hEd hopen hm, ?_, fun i e he => ?_, fun i hi => ?_⟩
  · rw [hof.length, List.length_map]
  · exact hof.row i _ (by rw [List.getElem?_map, he, Option.map_some])
  · exact hof.padding i (by rwa [List.length_map])

/-- Settles O53: as for ED, with the `R` rows of each event. -/
theorem gentracePermBuildsTheMatrix : Obligations.GentracePermBuildsTheMatrix := by
  unfold Obligations.GentracePermBuildsTheMatrix
  intro s hk hPerm hopen hlog rounds
  obtain ⟨m, hm, hof⟩ := exists_permMatrix hlog
  refine ⟨m, exec_gentrace_completes (chip := .perm) hk hPerm hopen hm, ?_, fun k e r he hr => ?_, fun i hi => ?_⟩
  · rw [hof.length, permRows_length]
  · exact hof.row _ _ (permRows_getElem? he hr)
  · exact hof.padding i (by rwa [permRows_length])

/-- Settles O54: a row of an honest event has no other defect, and an event that does not fit has a row with this one. -/
theorem gentraceFaultsOnCellOverflow : Obligations.GentraceFaultsOnCellOverflow := by
  unfold Obligations.GentraceFaultsOnCellOverflow
  refine fun s hk => ⟨fun hEd hopen hlog h => ?_, fun hPerm hopen _ h => ?_⟩
  · exact exec_gentrace_defect (chip := .ed) hk hEd hopen (edMatrix_overflow hlog h)
  · exact exec_gentrace_defect (chip := .perm) hk hPerm hopen (permMatrix_overflow h)

/-! ### When GENTRACE answers a next state -/

theorem exists_exec_gentrace_next_iff (s : State) (chip : Chip) : (∃ u, exec (.gentrace chip) s = .next u) ↔
    s.fstat.kind = .none ∧ hasChip s.cfg chip = true ∧ isSealed s chip = false := by
  constructor
  · rintro ⟨u, h⟩
    obtain ⟨hk, hrun⟩ := unlessFaulted_next ((exec_gentrace_eq s chip).symm.trans h)
    obtain ⟨hchip, -⟩ := ifChip_next hrun
    refine ⟨hk, hchip, ?_⟩
    by_contra hs
    rw [exec_gentrace_sealed hk hchip (by simpa using hs)] at h
    cases h
  · rintro ⟨hk, hchip, hopen⟩
    cases hm : matrixOfLog s chip with
    | error d => exact ⟨_, exec_gentrace_defect hk hchip hopen hm⟩
    | ok m => exact ⟨_, exec_gentrace_completes hk hchip hopen hm⟩

/-- GENTRACE that completes leaves the matrix of the chip's log. -/
theorem exec_gentrace_completed {s t : State} {chip : Chip} (h : exec (.gentrace chip) s = .next t)
    (hk : t.fstat.kind = .none) :
    hasChip s.cfg chip = true ∧ ∃ m, matrixOfLog s chip = .ok m ∧ t = traced s m chip := by
  obtain ⟨hks, hchip, hopen⟩ := (exists_exec_gentrace_next_iff s chip).mp ⟨t, h⟩
  refine ⟨hchip, ?_⟩
  cases hm : matrixOfLog s chip with
  | error d =>
    rw [exec_gentrace_defect hks hchip hopen hm] at h
    cases h
    cases hk
  | ok m =>
    rw [exec_gentrace_completes hks hchip hopen hm] at h
    exact ⟨m, rfl, (Host.Outcome.next.inj h).symm⟩

/-! ### When a guest command answers a next state (42_edadd.md R180, 43_perm.md R222) -/

/-- A guest command from its refusal and its invocation, the same for both chips. -/
def guestCommand (s : State) (refusal : Option Refusal) (a : Attempt Response) : Host.Outcome State Fault Refusal :=
  unlessFaulted s <|
    match refusal with
    | some r => .refused r
    | none => conclude .guest a

theorem exec_edadd_eq (s : State) :
    exec .edadd s = guestCommand s (edRefusal s) (edInvocation { s with mrb := [] }) := rfl

theorem exec_perm_eq (s : State) :
    exec .perm s = guestCommand s (permRefusal s) (permInvocation { s with mrb := [] }) := rfl

theorem guestCommand_refused {s : State} (hk : s.fstat.kind = .none) (r : Refusal) (a : Attempt Response) :
    guestCommand s (some r) a = .refused r :=
  unlessFaulted_of_clear hk _

theorem exists_guestCommand_next_iff {s : State} {refusal : Option Refusal} {a : Attempt Response} :
    (∃ u, guestCommand s refusal a = .next u) ↔ s.fstat.kind = .none ∧ refusal = none := by
  constructor
  · rintro ⟨u, h⟩
    obtain ⟨hk, h⟩ := unlessFaulted_next h
    cases refusal with
    | none => exact ⟨hk, rfl⟩
    | some r => cases h
  · rintro ⟨hk, rfl⟩
    rw [guestCommand, unlessFaulted_of_clear hk]
    cases a with
    | ok r t => exact ⟨_, rfl⟩
    | fault f t => exact ⟨_, rfl⟩

/-! ### The seal (R269) -/

theorem exec_edadd_sealed {s : State} (hk : s.fstat.kind = .none) (hEd : s.cfg.hasEd = true)
    (h : s.sealedEd = true) : exec .edadd s = .refused (.chipSealed .ed) := by
  have hr : edRefusal s = some (.chipSealed .ed) := by simp [edRefusal, hEd, h]
  rw [exec_edadd_eq, hr, guestCommand_refused hk]

theorem exec_perm_sealed {s : State} (hk : s.fstat.kind = .none) (hPerm : s.cfg.hasPerm = true)
    (h : s.sealedPerm = true) : exec .perm s = .refused (.chipSealed .perm) := by
  have hr : permRefusal s = some (.chipSealed .perm) := by simp [permRefusal, hPerm, h]
  rw [exec_perm_eq, hr, guestCommand_refused hk]

theorem nextRow_mem {m : Matrix} {i : Nat} {cur : List Nat} (h : cur ∈ m) : nextRow m i cur ∈ m := by
  unfold nextRow
  cases hnext : m[i + 1]? with
  | none => exact h
  | some next => exact List.mem_of_getElem? hnext

/-- EVAL answers at every row of a matrix of the chip's width. -/
theorem exists_exec_eval_next {s : State} {chip : Chip} {m : Matrix} (hk : s.fstat.kind = .none)
    (hchip : hasChip s.cfg chip = true) (hm : traceOf s chip = some m)
    (hwidth : ∀ row ∈ m, row.length = chipWidth s.cfg chip) {i : Nat} (hi : i < m.length) :
    ∃ u, exec (.eval chip) (atRow s i) = .next u := by
  have hcur := List.getElem_mem hi
  cases chip with
  | ed =>
    obtain ⟨r, hr⟩ := exists_ofCells (hwidth _ hcur)
    exact ⟨_, exec_eval_ed (s := atRow s i) hk hchip hm (List.getElem?_eq_getElem hi) hr⟩
  | perm =>
    obtain ⟨r, hr⟩ := PermRow.exists_ofCells (hwidth _ hcur)
    obtain ⟨n, hn⟩ := PermRow.exists_ofCells (hwidth _ (nextRow_mem (i := i) hcur))
    exact ⟨_, exec_eval_perm (s := atRow s i) hk hchip hm (List.getElem?_eq_getElem hi) hr hn⟩

/-- Rows of a chip's matrix have the chip's width. -/
theorem matrixOfLog_width {s : State} {chip : Chip} {m : Matrix} (h : matrixOfLog s chip = .ok m) :
    ∀ row ∈ m, row.length = chipWidth s.cfg chip := by
  cases chip with
  | ed => exact edMatrix_width h
  | perm => exact permMatrix_width h

/-- What a completed GENTRACE leaves of the host commands of its chip. -/
theorem hostCommands_traced {s : State} {chip : Chip} {m : Matrix} (hchip : hasChip s.cfg chip = true)
    (hm : matrixOfLog s chip = .ok m) (hk : (traced s m chip).fstat.kind = .none) :
    exec (.gentrace chip) (traced s m chip) = .refused (.chipSealed chip) ∧
      ∀ i, i < m.length → ∃ u, exec (.eval chip) (atRow (traced s m chip) i) = .next u := by
  have hchip' : hasChip (traced s m chip).cfg chip = true := by rwa [traced_cfg]
  have hwidth : ∀ row ∈ m, row.length = chipWidth (traced s m chip).cfg chip := by
    rw [traced_cfg]
    exact matrixOfLog_width hm
  exact ⟨exec_gentrace_sealed hk hchip' (isSealed_traced s m chip),
    fun i hi => exists_exec_eval_next hk hchip' (traceOf_traced s m chip) hwidth hi⟩

/-- Settles O55: a completed GENTRACE leaves the matrix and the seal, and all that the other chip reads as it was. -/
theorem logsAreConsumedOnce : Obligations.LogsAreConsumedOnce := by
  unfold Obligations.LogsAreConsumedOnce
  refine fun s t => ⟨fun h hk => ?_, fun h hk => ?_⟩
  · obtain ⟨hEd, m, hm, rfl⟩ := exec_gentrace_completed h hk
    obtain ⟨hsealed, heval⟩ := hostCommands_traced hEd hm hk
    refine ⟨exec_edadd_sealed hk hEd rfl, hsealed, rfl, rfl, ⟨_, exec_width hk .ed⟩, ⟨m, rfl, heval⟩, ?_, ?_⟩
    · rw [exec_perm_eq, exec_perm_eq, exists_guestCommand_next_iff, exists_guestCommand_next_iff]
      exact id
    · rw [exists_exec_gentrace_next_iff, exists_exec_gentrace_next_iff]
      exact id
  · obtain ⟨hPerm, m, hm, rfl⟩ := exec_gentrace_completed h hk
    obtain ⟨hsealed, heval⟩ := hostCommands_traced hPerm hm hk
    refine ⟨exec_perm_sealed hk hPerm rfl, hsealed, rfl, rfl, ⟨_, exec_width hk .perm⟩, ⟨m, rfl, heval⟩, ?_, ?_⟩
    · rw [exec_edadd_eq, exec_edadd_eq, exists_guestCommand_next_iff, exists_guestCommand_next_iff]
      exact id
    · rw [exists_exec_gentrace_next_iff, exists_exec_gentrace_next_iff]
      exact id

end Sys2Proof.Machine
end

section
/-! PROOFS. 60_exceptions.md: the refusal of every command after a fault (R299), what faults in which command (R295), the
state a fault leaves (R294, R298), and the clock of a completed command (R306). -/

namespace Sys2Proof.Machine

open Claims

/-! ### After a fault (R299) -/

theorem exec_of_faulted {i : Instr} {s : State} (h : s.fstat.kind ≠ .none) (hwf : i.wf = true) :
    exec i s = .refused .segmentFaulted := by
  cases i
  case fpip n => exact (if_pos ((wf_fpip_iff n).mp hwf)).trans (if_neg h)
  all_goals exact if_neg h

/-- Presenting a command changes nothing of `FSTAT`. -/
theorem fetch_of_isCommand {s : State} {input : Input} {rest : List Input} (hin : s.inputs = input :: rest)
    (h : isCommand input = true) : ∃ port w t, fetch s = .command port w t ∧ t.fstat = s.fstat := by
  cases input
  case guest | unit | host => exact ⟨_, _, _, fetch_cons hin, rfl⟩
  all_goals cases h

/-- Settles O12: an illegal word is refused by the decoder and a well-formed command by its meaning; reset clears
`FSTAT`. -/
theorem commandsAfterAFaultAreRefused : Obligations.CommandsAfterAFaultAreRefused := by
  unfold Obligations.CommandsAfterAFaultAreRefused
  refine fun s hs => ⟨fun i hwf => exec_of_faulted hs hwf, fun input rest hin hcmd => ?_,
    fun rest hin => ⟨_, step_reset hin, rfl⟩⟩
  obtain ⟨port, w, t, hfetch, ht⟩ := fetch_of_isCommand hin hcmd
  cases hd : decode port w with
  | error e => exact ⟨_, step_of_decode_error hfetch hd⟩
  | ok i =>
    obtain ⟨hwf, -⟩ := decode_eq_ok_iff.mp hd
    exact ⟨_, (step_of_decode_ok hfetch hd).trans (exec_of_faulted (by rwa [ht]) hwf)⟩

/-! ### The defects of the units and of the logs (R292) -/

theorem operandDefect_eq_some {fd : FieldDesc} {vs : List (List Nat)} {d : DefectCause}
    (h : operandDefect fd vs = some d) : d = .limbCountMismatch ∨ d = .limbOutOfRange ∨ d = .nonCanonicalOperand := by
  unfold operandDefect at h
  split_ifs at h <;> cases h <;> simp

/-- Only the two divisions lack a result on operands that pass the checks. -/
theorem solve_eq_none {op : UnitOp} {p : Nat} {abs : List (Nat × Nat)} (h : op.solve p abs = none) :
    op = .denP ∨ op = .denM := by
  cases op
  case denP => exact .inl rfl
  case denM => exact .inr rfl
  all_goals cases h

/-- The defects that populate raises: those of the operand checks, and NoInverse in a division. -/
theorem populate_eq_error {op : UnitOp} {fd : FieldDesc} {ins : List LimbPair} {d : DefectCause}
    (h : populate op fd ins = .error d) :
    d = .limbCountMismatch ∨ d = .limbOutOfRange ∨ d = .nonCanonicalOperand ∨
      (d = .noInverse ∧ (op = .denP ∨ op = .denM)) := by
  unfold populate at h
  split at h
  next d' hd =>
    cases h
    have hchecks := operandDefect_eq_some hd
    tauto
  next =>
    split at h
    next hs =>
      cases h
      exact .inr (.inr (.inr ⟨rfl, solve_eq_none hs⟩))
    next => cases h

/-- The defects of the datapath on the points in memory (42_edadd.md R182, R183). -/
theorem edSum_eq_error {s : State} {d : DefectCause} (h : edSum s.cfg (pWords s) (qWords s) = .error d) :
    d = .nonCanonicalOperand ∨ d = .noInverse := by
  by_cases hcan : CanonicalCoords s
  · obtain ⟨hsum, hdefect⟩ := edSum_cases hcan
    by_cases hden : DenominatorsInvertible s
    · obtain ⟨ch, hch⟩ := hsum hden
      rw [hch] at h
      cases h
    · exact .inr (Except.error.inj (h.symm.trans (hdefect hden)))
  · exact .inl (Except.error.inj (h.symm.trans (edSum_of_not_canonicalCoords hcan)))

theorem mem_of_gatherRows_eq_error {width : Nat} {rows : List (Except DefectCause (List Nat))} {d : DefectCause}
    (h : gatherRows width rows = .error d) : .error d ∈ rows := by
  unfold gatherRows at h
  split at h
  next d' hd => cases h; exact mem_of_collect_eq_error hd
  next => cases h

/-- Honest logs have no other defect than an overflow (44_trace.md R265). -/
theorem matrixOfLog_eq_error {s : State} (hs : s.Inv) {chip : Chip} {d : DefectCause}
    (h : matrixOfLog s chip = .error d) : d = .cellOverflow := by
  cases chip with
  | ed =>
    obtain ⟨e, he, hrow⟩ := List.mem_map.mp (mem_of_gatherRows_eq_error h)
    exact edRow_eq_error (hs.logEd e he) hrow
  | perm =>
    obtain ⟨e, -, r, -, hrow⟩ := mem_permRows.mp (mem_of_gatherRows_eq_error h)
    exact permRow_eq_error hrow

/-! ### The faults of each command (R295) -/

/-- The unit that a command runs, if it runs one (30_encoding.md R84). -/
def unitOf : Instr → Option UnitOp
  | .fpadd => some .add
  | .fpsub => some .sub
  | .fpmul => some .mul
  | .fpip n => some (.ip n)
  | .fpdenP => some .denP
  | .fpdenM => some .denM
  | _ => none

/-- The faults a command can take from `s`, and the clock at each faulting point (R295; 42_edadd.md R187, 43_perm.md
R226). -/
inductive FaultPoint (s : State) : Instr → Fault → Word → Prop where
  | mrd : FaultPoint s .mrd (.alignmentError s.operands.addr) s.clk
  | mwr : FaultPoint s .mwr (.alignmentError s.operands.addr) s.clk
  | unit {i : Instr} {op : UnitOp} {ins : List LimbPair} {d : DefectCause} (hop : unitOf i = some op)
    (hd : populate op s.cfg.fd ins = .error d) : FaultPoint s i (.arithmeticDefect d) s.clk
  | edaddP (ha : aligned (pointerA s) = false) : FaultPoint s .edadd (.alignmentError (pointerA s)) s.clk
  | edaddQ (ha : aligned (pointerA s) = true) (hb : aligned (pointerB s) = false) :
    FaultPoint s .edadd (.alignmentError (pointerB s)) (s.clk + 16)
  | edaddSum {d : DefectCause} (ha : aligned (pointerA s) = true) (hb : aligned (pointerB s) = true)
    (hd : edSum s.cfg (pWords s) (qWords s) = .error d) : FaultPoint s .edadd (.arithmeticDefect d) (s.clk + 32)
  | permPointer (ha : aligned (pointerA s) = false) : FaultPoint s .perm (.alignmentError (pointerA s)) s.clk
  | permWord (ha : aligned (pointerA s) = true) :
    FaultPoint s .perm (.arithmeticDefect .nonCanonicalOperand) (s.clk + BitVec.ofNat 32 s.cfg.permN)
  | gentrace {chip : Chip} {d : DefectCause} (hd : matrixOfLog s chip = .error d) :
    FaultPoint s (.gentrace chip) (.arithmeticDefect d) s.clk

/-- `t` is the state after an aborting fault of command `i` from `s`: only the clock may have moved before it. -/
def Faults (i : Instr) (s t : State) : Prop :=
  ∃ f c, FaultPoint s i f c ∧ t = takeFault i.port f { s with clk := c }

theorem next_unique {o : Host.Outcome State Fault Refusal} {t u : State} (ht : o = .next t) (hu : o = .next u) :
    t = u :=
  Host.Outcome.next.inj (ht.symm.trans hu)

@[simp] theorem traced_fstat (s : State) (m : Matrix) (chip : Chip) : (traced s m chip).fstat = s.fstat := by
  cases chip <;> rfl

theorem exec_edadd_next_open {s t : State} (h : exec .edadd s = .next t) :
    EdOpen s ∧ FitsIfAligned (pointerA s) 16 ∧ FitsIfAligned (pointerB s) 16 := by
  rw [exec_edadd_eq] at h
  obtain ⟨hk, hnone⟩ := exists_guestCommand_next_iff.mp ⟨t, h⟩
  obtain ⟨hEd, hsealed, hclk, hA, hB⟩ := (edRefusal_eq_none_iff s).mp hnone
  exact ⟨⟨hk, hEd, hsealed, hclk⟩, hA, hB⟩

theorem exec_unit_next {i : Instr} {s t : State} {op : UnitOp} (hop : unitOf i = some op) (h : exec i s = .next t) :
    ∃ ins, unitCommand op ins s = .next t := by
  cases i
  case fpip n =>
    cases hop
    change execFpip n s = _ at h
    unfold execFpip at h
    split at h
    · exact ⟨_, h⟩
    · cases h
  case fpadd | fpsub | fpmul | fpdenP | fpdenM => cases hop; exact ⟨_, h⟩
  all_goals cases hop

/-- EVAL's verdict sets nothing in `FSTAT` (R293). -/
theorem exec_eval_fstat {chip : Chip} {s t : State} (h : exec (.eval chip) s = .next t) : t.fstat = s.fstat := by
  obtain ⟨-, h⟩ := unlessFaulted_next ((exec_eval_eq s chip).symm.trans h)
  obtain ⟨-, h⟩ := ifChip_next h
  unfold evalCommand at h
  split at h
  next => cases h
  next =>
    split at h
    next => cases h
    next =>
      split at h
      next => cases h
      next => cases h; rfl

section

variable {s t : State} (hk : t.fstat.kind ≠ .none)
include hk

theorem exec_mrd_faults (h : exec .mrd s = .next t) : Faults .mrd s t := by
  obtain ⟨hs, -⟩ := unlessFaulted_next h
  cases ha : aligned s.operands.addr with
  | true =>
    obtain rfl := next_unique h (exec_mrd_aligned hs ha)
    exact absurd hs hk
  | false => exact ⟨_, _, .mrd, next_unique h (exec_mrd_misaligned hs ha)⟩

theorem exec_mwr_faults (h : exec .mwr s = .next t) : Faults .mwr s t := by
  obtain ⟨hs, -⟩ := unlessFaulted_next h
  cases ha : aligned s.operands.addr with
  | true =>
    obtain rfl := next_unique h (exec_mwr_aligned hs ha)
    exact absurd hs hk
  | false => exact ⟨_, _, .mwr, next_unique h (exec_mwr_misaligned hs ha)⟩

theorem exec_unit_faults {i : Instr} {op : UnitOp} (hop : unitOf i = some op) (hport : i.port = .unit)
    (h : exec i s = .next t) : Faults i s t := by
  obtain ⟨ins, h⟩ := exec_unit_next hop h
  obtain ⟨hs, -⟩ := unlessFaulted_next h
  cases hd : populate op s.cfg.fd ins with
  | error d =>
    refine ⟨_, _, .unit hop hd, ?_⟩
    rw [hport]
    exact next_unique h (unitCommand_of_error hs hd)
  | ok r =>
    obtain rfl := next_unique h (unitCommand_of_ok hs hd)
    exact absurd hs hk

/-- EDADD faults at its first misaligned access, or in the datapath once both regions have been read. -/
theorem exec_edadd_faults (h : exec .edadd s = .next t) : Faults .edadd s t := by
  obtain ⟨hopen, hA, hB⟩ := exec_edadd_next_open h
  cases ha : aligned (pointerA s) with
  | false => exact ⟨_, _, .edaddP ha, next_unique h (exec_edadd_misaligned_p hopen ha hB)⟩
  | true =>
    have ha' := (aligned_iff _).mp ha
    have hfitA : RegionFits (pointerA s) 16 := ⟨ha', hA ha'⟩
    cases hb : aligned (pointerB s) with
    | false => exact ⟨_, _, .edaddQ ha hb, next_unique h (exec_edadd_misaligned_q hopen hfitA hb)⟩
    | true =>
      have hb' := (aligned_iff _).mp hb
      have hready : EdReady s := ⟨hopen, hfitA, hb', hB hb'⟩
      cases hd : edSum s.cfg (pWords s) (qWords s) with
      | error d => exact ⟨_, _, .edaddSum ha hb hd, next_unique h (exec_edadd_defect hready hd)⟩
      | ok ch =>
        obtain rfl := next_unique h (exec_edadd_completes hready hd)
        exact absurd hopen.1 hk

/-- PERM faults at its first access, or in the check of the words the first round has read. -/
theorem exec_perm_faults (h : exec .perm s = .next t) : Faults .perm s t := by
  obtain ⟨hopen, hptr⟩ := exec_perm_next_open h
  cases ha : aligned (pointerA s) with
  | false => exact ⟨_, _, .permPointer ha, next_unique h (exec_perm_misaligned hopen hptr ha)⟩
  | true =>
    have ha' := (aligned_iff _).mp ha
    by_cases hq : ∃ x ∈ permWords s, s.cfg.q ≤ x
    · exact ⟨_, _, .permWord ha, next_unique h (exec_perm_nonCanonical hopen hptr ha hq)⟩
    · obtain ⟨m, hexec, -⟩ := exec_perm_completes ⟨hopen, ⟨ha', hptr ha'⟩, by simpa using hq⟩
      obtain rfl := next_unique h hexec
      exact absurd hopen.1 hk

theorem exec_gentrace_faults {chip : Chip} (h : exec (.gentrace chip) s = .next t) : Faults (.gentrace chip) s t := by
  obtain ⟨hs, hchip, hopen⟩ := (exists_exec_gentrace_next_iff s chip).mp ⟨t, h⟩
  cases hd : matrixOfLog s chip with
  | error d => exact ⟨_, _, .gentrace hd, next_unique h (exec_gentrace_defect hs hchip hopen hd)⟩
  | ok m =>
    obtain rfl := next_unique h (exec_gentrace_completes hs hchip hopen hd)
    exact absurd ((congrArg FStat.kind (traced_fstat s m chip)).trans hs) hk

/-- Every fault that `exec` can take. -/
theorem exec_faults {i : Instr} (h : exec i s = .next t) : Faults i s t := by
  cases i with
  | edadd => exact exec_edadd_faults hk h
  | perm => exact exec_perm_faults hk h
  | fpadd | fpsub | fpmul | fpip | fpdenP | fpdenM => exact exec_unit_faults hk rfl rfl h
  | mrd => exact exec_mrd_faults hk h
  | mwr => exact exec_mwr_faults hk h
  | width chip =>
    obtain ⟨hs, -⟩ := unlessFaulted_next h
    obtain rfl := next_unique h (exec_width hs chip)
    exact absurd hs hk
  | gentrace chip => exact exec_gentrace_faults hk h
  | eval chip =>
    obtain ⟨hs, -⟩ := unlessFaulted_next h
    exact absurd ((congrArg FStat.kind (exec_eval_fstat h)).trans hs) hk

end

/-! ### The clock at the faulting point (R298) -/

section

variable {s : State} {i : Instr} {f : Fault} {c : Word}

theorem FaultPoint.clk_eq (h : FaultPoint s i f c) (hed : i ≠ .edadd) (hperm : i ≠ .perm) : c = s.clk := by
  cases h with
  | edaddP | edaddQ | edaddSum => exact absurd rfl hed
  | permPointer | permWord => exact absurd rfl hperm
  | _ => rfl

theorem FaultPoint.clk_edadd (h : FaultPoint s .edadd f c) :
    c = if (pointerA s).toNat % 4 ≠ 0 then s.clk
      else if (pointerB s).toNat % 4 ≠ 0 then s.clk + 16 else s.clk + 32 := by
  simp only [← aligned_eq_false_iff]
  cases h with
  | unit hop => cases hop
  | edaddP ha => simp [ha]
  | edaddQ ha hb | edaddSum ha hb => simp [ha, hb]

theorem FaultPoint.clk_perm (h : FaultPoint s .perm f c) :
    c = if (pointerA s).toNat % 4 ≠ 0 then s.clk else s.clk + BitVec.ofNat 32 s.cfg.permN := by
  simp only [← aligned_eq_false_iff]
  cases h with
  | unit hop => cases hop
  | permPointer ha | permWord ha => simp [ha]

end

/-- Settles O13: a fault is taken before anything but the clock and `MRB` has been written, and `MRB` is emptied. -/
theorem faultLeavesTheStateOfTheTable : Obligations.FaultLeavesTheStateOfTheTable := by
  unfold Obligations.FaultLeavesTheStateOfTheTable
  refine ⟨fun a => rfl, fun cause => rfl, fun i s t h hk => ?_⟩
  obtain ⟨f, c, hf, rfl⟩ := exec_faults hk h
  refine ⟨⟨f, rfl, rfl⟩, rfl, rfl, rfl, rfl, rfl, rfl, rfl, rfl, rfl, hf.clk_eq, ?_, ?_⟩
  · rintro rfl
    exact hf.clk_edadd
  · rintro rfl
    exact hf.clk_perm

theorem FStat.ofFault_inj {f g : Fault} : FStat.ofFault f = FStat.ofFault g ↔ f = g := by
  cases f <;> cases g <;> simp [FStat.ofFault]

/-- Settles O14: the fault points of a command are those of its row, with the defects of the units, of the datapath and
of honest logs. -/
theorem faultsByCommand : Obligations.FaultsByCommand := by
  unfold Obligations.FaultsByCommand
  intro i s t hinv h hk alignment cause
  obtain ⟨f, c, hf, rfl⟩ := exec_faults hk h
  cases hf with
  | mrd | mwr => exact ⟨_, rfl⟩
  | unit hop hd =>
    have hcause := populate_eq_error hd
    cases i
    case fpadd | fpsub | fpmul | fpip | fpdenP | fpdenM =>
      cases hop
      simpa [cause, FStat.ofFault_inj] using hcause
    all_goals cases hop
  | edaddP | edaddQ => exact .inl ⟨_, rfl⟩
  | edaddSum _ _ hd =>
    obtain rfl | rfl := edSum_eq_error hd
    · exact .inr (.inl rfl)
    · exact .inr (.inr rfl)
  | permPointer => exact .inl ⟨_, rfl⟩
  | permWord => exact .inr rfl
  | gentrace hd =>
    obtain rfl := matrixOfLog_eq_error hinv hd
    exact rfl

/-! ### The clock of a completed command (R306) -/

theorem toNat_add_ofNat {c : Word} {n : Nat} (h : c.toNat + n < 2 ^ 32) :
    (c + BitVec.ofNat 32 n).toNat = c.toNat + n := by
  rw [BitVec.toNat_add, BitVec.toNat_ofNat]
  omega

/-- A PERM that ends without a fault completed. -/
theorem exec_perm_completed {s t : State} (h : exec .perm s = .next t) (hk : t.fstat.kind = .none) :
    ∃ m, t = permCompleted s m := by
  have hends := exec_perm_next h
  cases hfault : permFault s.cfg (pointerA s) (permWords s) with
  | some f =>
    rw [hfault] at hends
    obtain rfl : t = _ := hends
    exact absurd hk (FStat.ofFault_kind_ne_none f.1)
  | none =>
    rw [hfault] at hends
    obtain ⟨-, m, ht, -⟩ := hends
    exact ⟨m, ht⟩

/-- Settles O17: the two commands that tick were refused if the clock would have wrapped. -/
theorem clockAdvancesPerCompletedCommand : Obligations.ClockAdvancesPerCompletedCommand := by
  unfold Obligations.ClockAdvancesPerCompletedCommand
  intro i s t h hk
  cases i
  case edadd =>
    obtain ⟨⟨⟨-, -, -, hclk⟩, -⟩, ch, -, rfl⟩ := exec_edadd_next h hk
    exact toNat_add_ofNat hclk
  case perm =>
    obtain ⟨⟨-, -, -, hclk⟩, -⟩ := exec_perm_next_open h
    obtain ⟨m, rfl⟩ := exec_perm_completed h hk
    exact toNat_add_ofNat hclk
  all_goals
    obtain ⟨-, -, -, -, -, hclk, -⟩ := onlyTheNamedCommandsWriteEachState _ s t h
    exact congrArg BitVec.toNat (hclk nofun nofun)

end Sys2Proof.Machine
end

section
/-! PROOFS. 70_reset_and_hazards.md, sections 1, 2 and 5, and 30_encoding.md R82: what one step can do, the configuration
that no step changes (R331), and what happens between commands (R335, R342). -/

namespace Sys2Proof.Machine

/-! ### The input of a step (R80, R335, R342) -/

/-- What the surroundings can do in a step without a command (R330, R335, R342). -/
inductive Quiet (s : State) : State → Prop where
  | hold : Quiet s s
  | setReg (id : Nat) (v : Word) (rest : List Input) : Quiet s { s with x := s.x.write id v, inputs := rest }
  | setMem (k : BitVec 30) (v : Word) (rest : List Input) :
    Quiet s { s with mem := s.mem.writeWord (4 * k.toNat) v, inputs := rest }
  | setClk (v : Word) (rest : List Input) : Quiet s { s with clk := v, inputs := rest }
  | reset (rest : List Input) : Quiet s (resetEngine { s with inputs := rest })

/-- The state `s` with a command taken from its inputs and that command's operands on the operand port. -/
def commanded (s : State) (rest : List Input) (ops : Operands) : State := { s with inputs := rest, operands := ops }

theorem fetch_nil {s : State} (h : s.inputs = []) : fetch s = .quiet s := by
  simp [fetch, h]

theorem step_of_quiet {s t : State} (hf : fetch s = .quiet t) : step s = .next t := by
  simp [step, hf]

/-- Everything a step can answer: a change by the surroundings, or what a command answers. -/
theorem step_next {s t : State} (h : step s = .next t) :
    Quiet s t ∨ ∃ i rest ops, exec i (commanded s rest ops) = .next t := by
  have command {port : Port} {w : Word} {rest : List Input} {ops : Operands}
      (hf : fetch s = .command port w (commanded s rest ops)) :
      ∃ i rest ops, exec i (commanded s rest ops) = .next t := by
    cases hd : decode port w with
    | error e => rw [step_of_decode_error hf hd] at h; cases h
    | ok i => exact ⟨i, rest, ops, (step_of_decode_ok hf hd).symm.trans h⟩
  have quiet {u : State} (hf : fetch s = .quiet u) : u = t := next_unique (step_of_quiet hf) h
  cases hin : s.inputs with
  | nil => obtain rfl := quiet (fetch_nil hin); exact .inl .hold
  | cons input rest =>
    have hf := fetch_cons hin
    cases input with
    | guest => exact .inr (command (ops := s.operands) hf)
    | unit w ops | host w ops => exact .inr (command hf)
    | setReg id v => obtain rfl := quiet hf; exact .inl (.setReg id v rest)
    | setMem k v => obtain rfl := quiet hf; exact .inl (.setMem k v rest)
    | setClk v => obtain rfl := quiet hf; exact .inl (.setClk v rest)
    | reset => obtain rfl := quiet hf; exact .inl (.reset rest)

/-- Settles O9: neither the surroundings nor a command's own writes nor its end touch the configuration. -/
theorem configurationNeverChanges : Obligations.ConfigurationNeverChanges := by
  unfold Obligations.ConfigurationNeverChanges
  intro s t h
  obtain hquiet | ⟨i, rest, ops, hexec⟩ := step_next h
  · cases hquiet <;> rfl
  · obtain ⟨-, hcfg, -⟩ := onlyTheNamedCommandsWriteEachState i _ t hexec
    exact hcfg

/-- Settles O7: what `takeInput` does with each of these inputs is the change that is asked. -/
theorem engineHoldsItsStateBetweenCommands : Obligations.EngineHoldsItsStateBetweenCommands := by
  unfold Obligations.EngineHoldsItsStateBetweenCommands
  intro s rest
  refine ⟨fun hin => step_of_quiet (fetch_nil hin), fun id v hin => ?_, fun k v hin => ?_,
    fun v hin => step_of_quiet (fetch_cons hin)⟩
  · exact ⟨_, step_of_quiet (fetch_cons hin), rfl, Regs.read_write_same s.x id v,
      fun other ho => Regs.read_write_other s.x id other v ho⟩
  · exact ⟨_, step_of_quiet (fetch_cons hin), rfl, Memory.readWord_writeWord_same _ _ _,
      fun b hb => Memory.readByte_writeWord_outside _ _ b v hb⟩

/-! ### A presented word (30_encoding.md R80, R82) -/

/-- The family `HomePort`, over all commands. -/
theorem homePort_encode {i : Instr} (h : i.wf = true) : homePort (encode i) = i.port := by
  cases i with
  | edadd => exact Laws.HomePort.edadd h
  | perm => exact Laws.HomePort.perm h
  | fpadd => exact Laws.HomePort.fpadd h
  | fpsub => exact Laws.HomePort.fpsub h
  | fpmul => exact Laws.HomePort.fpmul h
  | fpip n => exact Laws.HomePort.fpip n h
  | fpdenP => exact Laws.HomePort.fpdenP h
  | fpdenM => exact Laws.HomePort.fpdenM h
  | mrd => exact Laws.HomePort.mrd h
  | mwr => exact Laws.HomePort.mwr h
  | width c => exact Laws.HomePort.width c h
  | gentrace c => exact Laws.HomePort.gentrace c h
  | eval c => exact Laws.HomePort.eval c h

/-- A presented word is the input taken next, on its own port, at the state it was presented in; a guest word is then in
`REG_OPCODE`. -/
theorem fetch_presentWord (w : Word) (s : State) : fetch (presentWord w s) =
    .command (homePort w) w (if homePort w = .guest then { s with x := s.x.write s.cfg.regOpcode w } else s) := by
  unfold presentWord
  cases homePort w with
  | guest => simp [fetch, takeInput]
  | unit | host => rfl

/-- Settles O6: the word goes to the command's own port, where it is the input taken next and decodes to the command. -/
theorem presentedWordRunsItsCommand : Obligations.PresentedWordRunsItsCommand := by
  unfold Obligations.PresentedWordRunsItsCommand
  intro s i hwf
  have hfetch := fetch_presentWord (encode i) s
  rw [homePort_encode hwf] at hfetch
  rw [State.withFetchWord, BitVec.ofNat_toNat, BitVec.setWidth_eq]
  exact step_of_decode_ok hfetch (decode_eq_ok_iff.mpr ⟨hwf, rfl, rfl⟩)

end Sys2Proof.Machine
end

section
/-! PROOFS. 20_memory.md: the runs of recorded accesses that a command makes (R56, R62 to R64), and the bytes a storing
command leaves (R59). -/

namespace Sys2Proof.Machine

open Claims

/-! ### Runs of recorded accesses (40_memrec.md R110, R111) -/

/-- An access of an aligned word at clock `c`: the memory before it, its record, the memory after it. -/
inductive RecordedAccess (c : Word) (m : Memory) : MemoryRecord → Memory → Prop where
  | read (a : Word) (ha : aligned a = true) : RecordedAccess c m (readRecord m a c) m
  | write (a v : Word) (ha : aligned a = true) :
    RecordedAccess c m (writeRecord m a c v) (m.writeWord a.toNat v)

/-- Two addresses of words either agree or share no byte. -/
theorem disjoint_of_aligned {a b : Word} (ha : aligned a = true) (hb : aligned b = true) (h : b ≠ a) :
    b.toNat + 4 ≤ a.toNat ∨ a.toNat + 4 ≤ b.toNat := by
  have hne : b.toNat ≠ a.toNat := fun heq => h (BitVec.eq_of_toNat_eq heq)
  rw [aligned_iff] at ha hb
  omega

/-- An aligned word lies inside the address space. -/
theorem toNat_add_three_lt {a : Word} (h : aligned a = true) : a.toNat + 3 < 2 ^ 32 := by
  have := a.isLt
  rw [aligned_iff] at h
  omega

section

variable {c : Word} {m m' : Memory} {r : MemoryRecord} (h : RecordedAccess c m r m')
include h

theorem RecordedAccess.aligned : aligned r.address = true := by
  cases h with
  | read a ha => exact ha
  | write a v ha => exact ha

theorem RecordedAccess.clock : r.clock = c := by
  cases h <;> rfl

theorem RecordedAccess.priorValue : r.priorValue = m.readWord r.address.toNat := by
  cases h <;> rfl

theorem RecordedAccess.newValue : m'.readWord r.address.toNat = r.newValue := by
  cases h with
  | read => rfl
  | write => exact Memory.readWord_writeWord_same _ _ _

theorem RecordedAccess.readWord_other {b : Word} (hb : Machine.aligned b = true) (hne : b ≠ r.address) :
    m'.readWord b.toNat = m.readWord b.toNat := by
  cases h with
  | read => rfl
  | write a v ha => exact Memory.readWord_writeWord_disjoint _ _ _ _ (disjoint_of_aligned ha hb hne)

theorem RecordedAccess.wf (hm : m.wf = true) : m'.wf = true := by
  cases h with
  | read => exact hm
  | write a v ha => exact Memory.wf_writeWord m _ v hm (toNat_add_three_lt ha)

end

/-- A run of accesses, each followed by a tick: memory and clock before it, its records, memory and clock after it. -/
inductive AccessRun : Memory → Word → List MemoryRecord → Memory → Word → Prop where
  | nil (m : Memory) (c : Word) : AccessRun m c [] m c
  | cons {m m₁ m' : Memory} {c c' : Word} {r : MemoryRecord} {rs : List MemoryRecord}
    (head : RecordedAccess c m r m₁) (tail : AccessRun m₁ (c + 1) rs m' c') : AccessRun m c (r :: rs) m' c'

theorem AccessRun.append {m m₁ m' : Memory} {c c₁ c' : Word} {rs rs' : List MemoryRecord}
    (h : AccessRun m c rs m₁ c₁) (h' : AccessRun m₁ c₁ rs' m' c') : AccessRun m c (rs ++ rs') m' c' := by
  induction h with
  | nil => exact h'
  | cons head _ ih => exact .cons head (ih h')

theorem readRecords_run (m : Memory) (n : Nat) {a : Word} (c : Word) (ha : aligned a = true) :
    AccessRun m c (readRecords m n a c) m (c + BitVec.ofNat 32 n) := by
  induction n generalizing a c with
  | zero => simpa [readRecords] using AccessRun.nil m c
  | succ n ih =>
    rw [← add_one_add_ofNat]
    exact .cons (.read a ha) (ih (c + 1) ((aligned_add_four a).trans ha))

theorem writeRecords_run (ws : List Word) {a : Word} (c : Word) (m : Memory) (ha : aligned a = true) :
    AccessRun m c (writeRecords ws a c m) (storeWords ws a m) (c + BitVec.ofNat 32 ws.length) := by
  induction ws generalizing a c m with
  | nil => simpa [writeRecords, storeWords] using AccessRun.nil m c
  | cons w ws ih =>
    rw [List.length_cons, ← add_one_add_ofNat]
    exact .cons (.write a w ha) (ih (c + 1) _ ((aligned_add_four a).trans ha))

section

variable {m m' : Memory} {c c' : Word} {recs : List MemoryRecord} (h : AccessRun m c recs m' c')
include h

/-- Accesses keep the canonical form of memory. -/
theorem AccessRun.wf (hm : m.wf = true) : m'.wf = true := by
  induction h with
  | nil => exact hm
  | cons head _ ih => exact ih (head.wf hm)

/-- Record `k` carries clock `c0 + k` (R62). -/
theorem AccessRun.clock {k : Nat} {r : MemoryRecord} (hr : recs[k]? = some r) : r.clock = c + BitVec.ofNat 32 k := by
  induction h generalizing k with
  | nil => cases hr
  | cons head _ ih =>
    cases k with
    | zero => cases hr; simpa using head.clock
    | succ k => rw [← add_one_add_ofNat]; exact ih hr

theorem AccessRun.aligned {r : MemoryRecord} (hr : r ∈ recs) : aligned r.address = true := by
  induction h with
  | nil => cases hr
  | cons head _ ih =>
    obtain rfl | hr := List.mem_cons.mp hr
    · exact head.aligned
    · exact ih hr

/-- The first access of a run to an address finds there what memory held before the run. -/
theorem AccessRun.priorValue_of_first {j : Nat} {b : MemoryRecord} (hb : recs[j]? = some b)
    (hfirst : ∀ k r, k < j → recs[k]? = some r → r.address ≠ b.address) :
    b.priorValue = m.readWord b.address.toNat := by
  induction h generalizing j with
  | nil => cases hb
  | cons head tail ih =>
    cases j with
    | zero => cases hb; exact head.priorValue
    | succ j =>
      have hne := hfirst 0 _ (Nat.succ_pos j) rfl
      have htail := ih hb fun k r hk hr => hfirst (k + 1) r (Nat.succ_lt_succ hk) hr
      rw [htail, head.readWord_other (tail.aligned (List.mem_of_getElem? hb)) hne.symm]

/-- A run is locally consistent (R63): after an access memory holds its new value, until the next one to the address. -/
theorem AccessRun.locallyConsistent : LocallyConsistent recs := by
  induction h with
  | nil => intro i j a b _ ha; cases ha
  | cons head tail ih =>
    intro i j a b hij ha hb hab hbetween
    obtain ⟨j, rfl⟩ := Nat.exists_eq_add_of_le' (Nat.zero_lt_of_lt hij)
    cases i with
    | zero =>
      cases ha
      have hprior := tail.priorValue_of_first hb fun k r hk hr =>
        hab ▸ hbetween (k + 1) r (Nat.succ_pos k) (Nat.succ_lt_succ hk) hr
      rw [hprior, ← hab, head.newValue]
    | succ i =>
      exact ih i j a b (Nat.lt_of_succ_lt_succ hij) ha hb hab fun k r hik hkj hr =>
        hbetween (k + 1) r (Nat.succ_lt_succ hik) (Nat.succ_lt_succ hkj) hr

/-- ... and its clocks are those of R62 as numbers, when the clock does not wrap in it (10_state.md R25). -/
theorem AccessRun.consistent_clocked (hc : c.toNat + recs.length < 2 ^ 32) :
    LocallyConsistent recs ∧ ∀ k r, recs[k]? = some r → r.clock.toNat = c.toNat + k := by
  refine ⟨h.locallyConsistent, fun k r hr => ?_⟩
  have hk := (List.getElem?_eq_some_iff.mp hr).1
  rw [h.clock hr, toNat_add_ofNat (by omega)]

end

/-! ### What the recorder commands answer (40_memrec.md R110, R111) -/

theorem exec_mrd_next {s t : State} (h : exec .mrd s = .next t) :
    let r := readRecord s.mem s.operands.addr s.clk
    (aligned s.operands.addr = true ∧
      t = { answered .unit (.wordRead r.newValue r) s with mrb := s.mrb ++ [r] }) ∨
    (aligned s.operands.addr = false ∧ t = misaligned .unit s.operands.addr s) := by
  obtain ⟨hs, -⟩ := unlessFaulted_next h
  cases ha : aligned s.operands.addr with
  | true => exact .inl ⟨rfl, next_unique h (exec_mrd_aligned hs ha)⟩
  | false => exact .inr ⟨rfl, next_unique h (exec_mrd_misaligned hs ha)⟩

theorem exec_mwr_next {s t : State} (h : exec .mwr s = .next t) :
    let r := writeRecord s.mem s.operands.addr s.clk s.operands.value
    (aligned s.operands.addr = true ∧
      t = { answered .unit (.wordWritten r) s with
        mrb := s.mrb ++ [r], mem := s.mem.writeWord s.operands.addr.toNat s.operands.value }) ∨
    (aligned s.operands.addr = false ∧ t = misaligned .unit s.operands.addr s) := by
  obtain ⟨hs, -⟩ := unlessFaulted_next h
  cases ha : aligned s.operands.addr with
  | true => exact .inl ⟨rfl, next_unique h (exec_mwr_aligned hs ha)⟩
  | false => exact .inr ⟨rfl, next_unique h (exec_mwr_misaligned hs ha)⟩

/-! ### The accesses of EDADD and PERM (42_edadd.md R181 to R184, 43_perm.md R222) -/

/-- The records of a completed EDADD, in their order. -/
theorem edScheduledEvent_run {s : State} (hA : RegionFits (pointerA s) 16) (hB : RegionFits (pointerB s) 16)
    (ch : EdChain) :
    let e := edScheduledEvent s ch
    AccessRun s.mem s.clk (e.pReadRecords ++ e.qReadRecords ++ e.pWriteRecords)
      (storeWords (edResultWords s.cfg ch) (pointerA s) s.mem) (s.clk + 48) := by
  have hP := readRecords_run s.mem 16 s.clk hA.aligned
  have hQ := readRecords_run s.mem 16 (s.clk + 16) hB.aligned
  have hW := writeRecords_run (edResultWords s.cfg ch) (s.clk + 32) s.mem hA.aligned
  rw [edResultWords_length, BitVec.add_assoc] at hW
  rw [BitVec.add_assoc] at hQ
  rw [← edEvent_schedule hA hB ch, edEvent_append _ _ _ _ _ (by simp) (by simp) (by simp)]
  exact (hP.append hQ).append hW

/-- Rounds of PERM that complete are a run of `2·N` accesses each. -/
theorem permLoop_run {ptr : Word} (ha : aligned ptr = true) {k r : Nat} {s t : State}
    {rds wrs : List (List MemoryRecord)} (h : permLoop ptr k r s = .ok (rds, wrs) t) :
    let recs := (List.zipWith (fun a b => a ++ b) rds wrs).flatten
    AccessRun s.mem s.clk recs t.mem t.clk ∧ recs.length = 2 * s.cfg.permN * k := by
  induction k generalizing r s rds wrs with
  | zero => cases h; exact ⟨.nil _ _, rfl⟩
  | succ k ih =>
    simp only [permLoop, readWords_aligned _ _ s ha, writeWords_aligned _ _ _ ha] at h
    split at h
    next => cases h
    next =>
      split at h
      next => cases h
      next rds wrs u hrest =>
        cases h
        obtain ⟨hrun, hlen⟩ := ih hrest
        have hreads := readRecords_run s.mem s.cfg.permN s.clk ha
        refine ⟨(hreads.append (writeRecords_run _ _ _ ha)).append hrun, ?_⟩
        simp only [List.zipWith_cons_cons, List.flatten_cons, List.length_append, hlen, readRecords_length,
          writeRecords_length, List.length_map, permRound_length]
        ring

/-- A PERM that ends without a fault was ready and completed. -/
theorem exec_perm_next_completed {s t : State} (h : exec .perm s = .next t) (hk : t.fstat.kind = .none) :
    PermReady s ∧ ∃ m, t = permCompleted s m ∧ PermMemory s m := by
  have hends := exec_perm_next h
  cases hfault : permFault s.cfg (pointerA s) (permWords s) with
  | some f =>
    rw [hfault] at hends
    obtain rfl : t = _ := hends
    exact absurd hk (FStat.ofFault_kind_ne_none f.1)
  | none => rwa [hfault] at hends

/-- An invocation of PERM that completes appends one event, whose records are those of its rounds. -/
theorem permInvocation_run {s t : State} {r : Response} (ha : aligned (pointerA s) = true)
    (h : permInvocation s = .ok r t) :
    ∃ e, t.logPerm = s.logPerm ++ [e] ∧ AccessRun s.mem s.clk (permRecords e) t.mem t.clk ∧
      (permRecords e).length = 2 * s.cfg.permN * s.cfg.permRounds := by
  unfold permInvocation at h
  split at h
  next => cases h
  next rds wrs u hloop =>
    obtain ⟨hrun, hlen⟩ := permLoop_run ha hloop
    obtain ⟨m, c, recs, rfl⟩ := (permLoop_accessed _ _ _ _).of_ok hloop
    cases h
    exact ⟨_, rfl, hrun, hlen⟩

/-- The accesses of a completed PERM. -/
theorem exec_perm_run {s t : State} (h : exec .perm s = .next t) (hk : t.fstat.kind = .none) :
    ∃ e, t.logPerm = s.logPerm ++ [e] ∧ AccessRun s.mem s.clk (permRecords e) t.mem t.clk ∧
      (permRecords e).length = 2 * s.cfg.permN * s.cfg.permRounds := by
  obtain ⟨⟨hopen, hfit, -⟩, -⟩ := exec_perm_next_completed h hk
  rw [exec_perm_of_open hopen fun _ => hfit.2] at h
  obtain ⟨r, u, hrun, rfl⟩ | ⟨f, u, -, rfl⟩ := conclude_next h
  · exact permInvocation_run (s := { s with mrb := [] }) (t := u) hfit.aligned hrun
  · exact absurd hk (FStat.ofFault_kind_ne_none f)

/-- Settles O38: the records of a completed command are those of a run of recorded accesses, whose clock the refusal
kept from wrapping. -/
theorem invocationRecordsAreLocallyConsistent : Obligations.InvocationRecordsAreLocallyConsistent := by
  unfold Obligations.InvocationRecordsAreLocallyConsistent
  refine ⟨fun s t h hk => ?_, fun s t h hk => ?_⟩
  · obtain ⟨⟨⟨-, -, -, hclk⟩, hA, hB⟩, ch, -, rfl⟩ := exec_edadd_next h hk
    exact ⟨_, rfl, (edScheduledEvent_run hA hB ch).consistent_clocked (by simpa [edScheduledEvent] using hclk)⟩
  · obtain ⟨⟨⟨-, -, -, hclk⟩, -⟩, -⟩ := exec_perm_next_completed h hk
    obtain ⟨e, hlog, hrun, hlen⟩ := exec_perm_run h hk
    exact ⟨e, hlog, hrun.consistent_clocked (by rwa [hlen])⟩

/-! ### The stored regions (R59) -/

/-- A faulting command has stored nothing (60_exceptions.md R298). -/
theorem exec_fault_mem {i : Instr} {s t : State} (h : exec i s = .next t) (hk : t.fstat.kind ≠ .none) :
    t.mem = s.mem := by
  obtain ⟨f, c, -, rfl⟩ := exec_faults hk h
  rfl

/-- Settles O16: a fault leaves memory alone, and a completed command has stored its region's words. -/
theorem storesStayInTheirRegion : Obligations.StoresStayInTheirRegion := by
  unfold Obligations.StoresStayInTheirRegion
  intro s t b
  refine ⟨fun h hb => ?_, fun h hb => ?_, fun h hb => ?_⟩
  · obtain ⟨-, rfl⟩ | ⟨-, rfl⟩ := exec_mwr_next h
    · exact Memory.readByte_writeWord_outside _ _ b _ hb
    · rfl
  · by_cases hk : t.fstat.kind = .none
    · obtain ⟨⟨-, hA, -⟩, ch, -, rfl⟩ := exec_edadd_next h hk
      have hlen := edResultWords_length s.cfg ch
      exact storeWords_readByte_outside _ _ s.mem b (by rw [hlen]; exact hA.2) (by rw [hlen]; exact hb)
    · rw [exec_fault_mem h hk]
  · by_cases hk : t.fstat.kind = .none
    · obtain ⟨-, m, rfl, hm⟩ := exec_perm_next_completed h hk
      exact hm.outside b hb
    · rw [exec_fault_mem h hk]

end Sys2Proof.Machine
end

section
/-! PROOFS. The invariant of the machine (10_state.md R20 to R35): it holds at launch, and every step keeps it. -/

namespace Sys2Proof.Machine

open Claims

/-! ### At launch (10_state.md R35) -/

theorem inv_launch {c : Config} {x₀ : Regs} {m₀ : Memory} (k₀ : Word) (hx : x₀.wf = true) (hm : m₀.wf = true) :
    (State.launch c x₀ m₀ k₀).Inv where
  mem := hm
  regs := hx
  fstat := .inl rfl
  records := nofun
  logEd := nofun
  logPerm := nofun
  sealEd := by simp
  sealPerm := by simp
  traceEd := nofun
  tracePerm := nofun

/-- Settles O10: an engine just launched has empty logs and no matrix, and reset is a launch on empty maps. -/
theorem invariantHoldsAtLaunch : Obligations.InvariantHoldsAtLaunch := by
  unfold Obligations.InvariantHoldsAtLaunch
  exact ⟨inv_launch 0 rfl rfl, fun c x₀ m₀ k₀ hx hm => inv_launch k₀ hx hm⟩

/-! ### Steps of the surroundings -/

theorem State.Inv.commanded {s : State} (hs : s.Inv) (rest : List Input) (ops : Operands) :
    (commanded s rest ops).Inv := { hs with }

theorem State.Inv.quiet {s t : State} (hs : s.Inv) (h : Quiet s t) : t.Inv := by
  cases h with
  | hold => exact hs
  | setReg id v rest => exact { hs with regs := Regs.wf_write s.x id v hs.regs }
  | setMem k v rest =>
    have hk := k.isLt
    exact { hs with mem := Memory.wf_writeWord s.mem _ v hs.mem (by omega) }
  | setClk v rest => exact { hs with }
  | reset rest => exact { inv_launch s.clk hs.regs hs.mem with }

/-! ### Faults (60_exceptions.md R294, R298) -/

theorem legal_alignmentError {a : Word} (h : aligned a = false) : (FStat.ofFault (.alignmentError a)).Legal :=
  .inr (.inl ⟨a, (aligned_eq_false_iff a).mp h, rfl⟩)

/-- An alignment fault is of a misaligned address, at each fault point that raises one. -/
theorem exec_fault_legal {i : Instr} {s t : State} (h : exec i s = .next t) (hk : t.fstat.kind ≠ .none) :
    t.fstat.Legal := by
  obtain ⟨f, c, hf, ht⟩ := exec_faults hk h
  rw [ht]
  cases hf with
  | mrd =>
    obtain ⟨-, rfl⟩ | ⟨ha, -⟩ := exec_mrd_next h
    · exact absurd (unlessFaulted_next h).1 hk
    · exact legal_alignmentError ha
  | mwr =>
    obtain ⟨-, rfl⟩ | ⟨ha, -⟩ := exec_mwr_next h
    · exact absurd (unlessFaulted_next h).1 hk
    · exact legal_alignmentError ha
  | edaddP ha | permPointer ha => exact legal_alignmentError ha
  | edaddQ _ hb => exact legal_alignmentError hb
  | unit | edaddSum | permWord | gentrace => exact .inr (.inr ⟨_, rfl⟩)

theorem State.Inv.faulted {i : Instr} {s t : State} (hs : s.Inv) (h : exec i s = .next t) (hk : t.fstat.kind ≠ .none) :
    t.Inv := by
  have hlegal := exec_fault_legal h hk
  obtain ⟨f, c, -, rfl⟩ := exec_faults hk h
  exact { hs with fstat := hlegal, records := nofun }

/-! ### Completed commands -/

/-- The event of a completed EDADD is honest (42_edadd.md R185, R186). -/
theorem edScheduledEvent_honest {s : State} {ch : EdChain} (h : EdReady s)
    (hsum : edSum s.cfg (pWords s) (qWords s) = .ok ch) : (edScheduledEvent s ch).Honest s.cfg := by
  obtain ⟨⟨-, hEd, -, hclk⟩, hA, hB⟩ := h
  exact ⟨hEd, hA, hB, hclk, by simp [edScheduledEvent, pWords], by simp [edScheduledEvent, qWords], rfl, rfl,
    ch, hsum, rfl⟩

/-- The event of a completed PERM is honest (43_perm.md R225). -/
theorem permScheduledEvent_honest {s : State} (h : PermReady s) : (permScheduledEvent s).Honest s.cfg := by
  obtain ⟨hPerm, hfit, hlen, hcanonical⟩ := permInput_of_ready h
  obtain ⟨⟨-, -, -, hclk⟩, -⟩ := h
  exact ⟨hPerm, hfit, hclk, permWords s, hlen, hcanonical, rfl, rfl⟩

theorem forall_mem_append_singleton {α : Type} {P : α → Prop} {l : List α} {a : α} (hl : ∀ x ∈ l, P x) (ha : P a) :
    ∀ x ∈ l ++ [a], P x :=
  List.forall_mem_append.mpr ⟨hl, List.forall_mem_singleton.mpr ha⟩

section

variable {s t : State} (hs : s.Inv)
include hs

/-- A chip whose log is not sealed has no matrix. -/
theorem State.Inv.traceOf_eq_none {chip : Chip} (h : isSealed s chip = false) : traceOf s chip = none := by
  rw [← Option.not_isSome_iff_eq_none]
  intro hm
  cases chip with
  | ed => exact Bool.false_ne_true (h.symm.trans (hs.sealEd.mpr hm))
  | perm => exact Bool.false_ne_true (h.symm.trans (hs.sealPerm.mpr hm))

theorem State.Inv.mrd (h : exec .mrd s = .next t) (hk : t.fstat.kind = .none) : t.Inv := by
  obtain ⟨ha, rfl⟩ | ⟨-, rfl⟩ := exec_mrd_next h
  · exact { hs with records := forall_mem_append_singleton hs.records ((aligned_iff _).mp ha) }
  · cases hk

theorem State.Inv.mwr (h : exec .mwr s = .next t) (hk : t.fstat.kind = .none) : t.Inv := by
  obtain ⟨ha, rfl⟩ | ⟨-, rfl⟩ := exec_mwr_next h
  · exact { hs with
      mem := Memory.wf_writeWord s.mem _ _ hs.mem (toNat_add_three_lt ha)
      records := forall_mem_append_singleton hs.records ((aligned_iff _).mp ha) }
  · cases hk

/-- EDADD runs while its log is not sealed, so no matrix is left behind by the longer log. -/
theorem State.Inv.edadd (h : exec .edadd s = .next t) (hk : t.fstat.kind = .none) : t.Inv := by
  obtain ⟨hready, ch, hsum, rfl⟩ := exec_edadd_next h hk
  have hevent := edScheduledEvent_honest hready hsum
  obtain ⟨⟨-, -, hopen, -⟩, hA, hB⟩ := hready
  have hnone : s.traceEd = none := hs.traceOf_eq_none (chip := .ed) hopen
  exact { hs with
    mem := (edScheduledEvent_run hA hB ch).wf hs.mem
    records := nofun
    logEd := forall_mem_append_singleton hs.logEd hevent
    traceEd := fun m hm => nomatch hnone.symm.trans hm }

/-- The same for PERM. -/
theorem State.Inv.perm (h : exec .perm s = .next t) (hk : t.fstat.kind = .none) : t.Inv := by
  obtain ⟨_, -, hrun, -⟩ := exec_perm_run h hk
  have hmem := hrun.wf hs.mem
  obtain ⟨hready, m, rfl, -⟩ := exec_perm_next_completed h hk
  have hevent := permScheduledEvent_honest hready
  obtain ⟨⟨-, -, hopen, -⟩, -⟩ := hready
  have hnone : s.tracePerm = none := hs.traceOf_eq_none (chip := .perm) hopen
  exact { hs with
    mem := hmem
    records := nofun
    logPerm := forall_mem_append_singleton hs.logPerm hevent
    tracePerm := fun m hm => nomatch hnone.symm.trans hm }

/-- GENTRACE seals a log together with the matrix of that log. -/
theorem State.Inv.gentrace {chip : Chip} (h : exec (.gentrace chip) s = .next t) (hk : t.fstat.kind = .none) :
    t.Inv := by
  obtain ⟨hchip, m, hm, rfl⟩ := exec_gentrace_completed h hk
  cases chip with
  | ed => exact { hs with sealEd := by simp [traced], traceEd := fun m' h' => Option.some.inj h' ▸ ⟨hchip, hm⟩ }
  | perm =>
    exact { hs with sealPerm := by simp [traced], tracePerm := fun m' h' => Option.some.inj h' ▸ ⟨hchip, hm⟩ }

/-- A command that only answers touches nothing that the invariant speaks of. -/
theorem State.Inv.answered {port : Port} (h : Ends port s t) (hk : t.fstat.kind = .none) : t.Inv := by
  cases h with
  | answer r => exact { hs with }
  | fault f => exact absurd hk (FStat.ofFault_kind_ne_none f)

theorem State.Inv.completed {i : Instr} (h : exec i s = .next t) (hk : t.fstat.kind = .none) : t.Inv := by
  cases i with
  | edadd => exact hs.edadd h hk
  | perm => exact hs.perm h hk
  | mrd => exact hs.mrd h hk
  | mwr => exact hs.mwr h hk
  | gentrace chip => exact hs.gentrace h hk
  | fpadd | fpsub | fpmul | fpip | fpdenP | fpdenM | width | eval =>
    obtain ⟨u, hw, he⟩ := exec_ends h
    cases hw
    exact hs.answered he hk

end

/-- Settles O11: a step of the surroundings keeps each map in its form; a command keeps the invariant whether it faults
or completes. -/
theorem stepKeepsTheInvariant : Obligations.StepKeepsTheInvariant := by
  unfold Obligations.StepKeepsTheInvariant
  intro s t hs h
  obtain hquiet | ⟨i, rest, ops, hexec⟩ := step_next h
  · exact hs.quiet hquiet
  · have hs' := hs.commanded rest ops
    by_cases hk : t.fstat.kind = .none
    · exact hs'.completed hexec hk
    · exact hs'.faulted hexec hk

end Sys2Proof.Machine
end
